-- ==== Sys2Proof/Word.lean ====
section
/-! DEFINITION. The machine's two word types (spec 00_scope.md R7, R8; 10_state.md R17, R22). -/

namespace Sys2Proof

/-- A byte of a bit buffer (R22); bit 0 is the least significant bit (R8). -/
abbrev Byte := BitVec 8

/-- A 32-bit register or command word (R17, R21, `XLEN` of R6). All values are unsigned (R7). -/
abbrev Word := BitVec 32

end Sys2Proof
end

