-- ==== Sys2Proof/Syntax.lean ====
section
/-! DEFINITION. The seventeen commands of spec 30_encoding.md R70 as one inductive type, with the types of
their command-word fields (R67, R69). The pseudo-commands DEILV and DEWHITEN (R75) are other names of the words
of `ilv` and `whiten`. -/

namespace Sys2Proof

/-- A buffer number, the value of the fields `SB` and `DB` (R67; `NBUF = 2`, R6). -/
inductive BufId where
  | b0
  | b1
  deriving DecidableEq, Repr, Inhabited

/-- The field `W` of REV (R67): a reversal width, or its reserved value 3. -/
inductive RevWidth where
  | w8
  | w16
  | w32
  | reserved
  deriving DecidableEq, Repr, Inhabited

/-- The two convolutional code families (R67 `FAM`; R13). -/
inductive Family where
  | nrnsc
  | rsc
  deriving DecidableEq, Repr, Inhabited

/-- The SfdType variants in the order of their codes 0 to 3 (R171). -/
inductive SfdType where
  | coded0
  | uncoded0
  | coded1
  | uncoded1
  deriving DecidableEq, Repr, Inhabited

/-- The commands, one constructor for each row of R70. -/
inductive Instr where
  /-- RDBIT (R86). -/
  | rdbit (sb : BufId)
  /-- WRBIT (R87). -/
  | wrbit (sb : BufId)
  /-- REV (R89). -/
  | rev (w : RevWidth)
  /-- WHITEN, alias DEWHITEN (R104). -/
  | whiten (sb : BufId)
  /-- RSCENC (R117). -/
  | rscenc (sb db : BufId)
  /-- NRNSCENC (R118). -/
  | nrnscenc (sb db : BufId)
  /-- RSCDEC (R138). -/
  | rscdec (sb db : BufId)
  /-- NRNSCDEC (R139). -/
  | nrnscdec (sb db : BufId)
  /-- ILV, alias DEILV (R149). -/
  | ilv (sb : BufId)
  /-- FCS32 (R161). -/
  | fcs32 (sb : BufId)
  /-- FCSCHK (R162). -/
  | fcschk (sb : BufId)
  /-- FCSAPP (R163). -/
  | fcsapp (sb : BufId)
  /-- SHRDET (R174). -/
  | shrdet (sb : BufId)
  /-- PHRENC (R179). -/
  | phrenc
  /-- PHRDEC (R180). -/
  | phrdec
  /-- FRMDEC (R193); `skipv` is the field `SKIPV`. -/
  | frmdec (sb db : BufId) (skipv : Bool)
  /-- FRMENC (R207); `dw` and `fcst` are the fields `DW` and `FCST`. -/
  | frmenc (sb db : BufId) (fam : Family) (dw : Bool) (sfd : SfdType) (fcst : Bool)
  deriving DecidableEq, Repr, Inhabited

end Sys2Proof
end

