-- ==== Sys2Proof/WellFormed.lean ====
section
/-! DEFINITION. Which commands are legal encodings (spec 30_encoding.md R71). Every field value of a command
is one its type admits; the one command a word can match and R71 still calls illegal is REV with `W = 3`. -/

namespace Sys2Proof

/-- The reversal width is one of 8, 16 and 32 (R67: `W` = 3 is reserved). -/
def RevWidth.legal : RevWidth → Bool
  | .w8 => true
  | .w16 => true
  | .w32 => true
  | .reserved => false

/-- A command whose word R71 does not call illegal. Operand values and `SB = DB` are no matter of the encoding
(R72, R55): the command's own checks report them. -/
def Instr.wellFormed : Instr → Bool
  | .rdbit _ => true
  | .wrbit _ => true
  | .rev w => w.legal
  | .whiten _ => true
  | .rscenc _ _ => true
  | .nrnscenc _ _ => true
  | .rscdec _ _ => true
  | .nrnscdec _ _ => true
  | .ilv _ => true
  | .fcs32 _ => true
  | .fcschk _ => true
  | .fcsapp _ => true
  | .shrdet _ => true
  | .phrenc => true
  | .phrdec => true
  | .frmdec _ _ _ => true
  | .frmenc _ _ _ _ _ _ => true

end Sys2Proof
end

