-- ==== Sys2Proof/Decode.lean ====
section
/-! DEFINITION. Decoding a command word by the mask and match table of spec 30_encoding.md R70, and the encoder
written from the same fields (R67, R68). Decoding is total: a word that matches no row is rejected by name (R71). -/

namespace Sys2Proof

/-- Why a word encodes no command (R71). -/
inductive DecodeError where
  /-- The `OP` value stands in no row of R70. -/
  | unknownOp (op : Byte)
  /-- The `OP` value is known, and a bit of 31:18 is set. -/
  | reservedBits
  /-- The `OP` value is known, bits 31:18 are 0, and a field outside the command's format is not 0. -/
  | strayField
  deriving DecidableEq, Repr

/-- The buffer number in bit `pos` of a command word: bit 8 is `SB`, bit 9 is `DB` (R67). -/
def bufField (w : Word) (pos : Nat) : BufId :=
  if w.getLsbD pos then .b1 else .b0

/-- The field `W`, bits 11:10 (R67). -/
def widthField (w : Word) : RevWidth :=
  match w.getLsbD 11, w.getLsbD 10 with
  | false, false => .w8
  | false, true => .w16
  | true, false => .w32
  | true, true => .reserved

/-- The field `FAM`, bit 12: 0 is NRNSC, 1 is RSC (R67). -/
def famField (w : Word) : Family :=
  if w.getLsbD 12 then .rsc else .nrnsc

/-- The field `SFD`, bits 16:15 (R67). -/
def sfdField (w : Word) : SfdType :=
  match w.getLsbD 16, w.getLsbD 15 with
  | false, false => .coded0
  | false, true => .uncoded0
  | true, false => .coded1
  | true, true => .uncoded1

/-- A row of R70: `w` encodes the command when `w & mask = pattern` (R68); `build` reads its live fields. -/
structure OpRow where
  /-- The fixed bits of the command's format (R68). -/
  mask : Word
  /-- The value of the fixed bits: `OP` below zeros. -/
  pattern : Word
  /-- The command with its live fields read from the word. -/
  build : Word → Instr

/-- The mask of format F1: `OP` and `SB` are live (R68). -/
def maskF1 : Word := 0xFFFFFEFF#32

/-- The mask of format F2: `OP`, `SB` and `DB` are live (R68). -/
def maskF2 : Word := 0xFFFFFCFF#32

/-- The opcode map, in the order of R70. -/
def opRows : List OpRow :=
  [ ⟨maskF1, 0x01#32, fun w => .rdbit (bufField w 8)⟩,
    ⟨maskF1, 0x02#32, fun w => .wrbit (bufField w 8)⟩,
    ⟨0xFFFFF3FF#32, 0x03#32, fun w => .rev (widthField w)⟩,
    ⟨maskF1, 0x10#32, fun w => .whiten (bufField w 8)⟩,
    ⟨maskF2, 0x20#32, fun w => .rscenc (bufField w 8) (bufField w 9)⟩,
    ⟨maskF2, 0x21#32, fun w => .nrnscenc (bufField w 8) (bufField w 9)⟩,
    ⟨maskF2, 0x22#32, fun w => .rscdec (bufField w 8) (bufField w 9)⟩,
    ⟨maskF2, 0x23#32, fun w => .nrnscdec (bufField w 8) (bufField w 9)⟩,
    ⟨maskF1, 0x30#32, fun w => .ilv (bufField w 8)⟩,
    ⟨maskF1, 0x40#32, fun w => .fcs32 (bufField w 8)⟩,
    ⟨maskF1, 0x41#32, fun w => .fcschk (bufField w 8)⟩,
    ⟨maskF1, 0x42#32, fun w => .fcsapp (bufField w 8)⟩,
    ⟨maskF1, 0x50#32, fun w => .shrdet (bufField w 8)⟩,
    ⟨0xFFFFFFFF#32, 0x51#32, fun _ => .phrenc⟩,
    ⟨0xFFFFFFFF#32, 0x52#32, fun _ => .phrdec⟩,
    ⟨0xFFFFDCFF#32, 0x60#32, fun w => .frmdec (bufField w 8) (bufField w 9) (w.getLsbD 13)⟩,
    ⟨0xFFFC2CFF#32, 0x61#32, fun w =>
      .frmenc (bufField w 8) (bufField w 9) (famField w) (w.getLsbD 14) (sfdField w) (w.getLsbD 17)⟩ ]

/-- The row accepts the word (R68). -/
def OpRow.accepts (r : OpRow) (w : Word) : Bool := w &&& r.mask == r.pattern

/-- The name under which a word that no row accepts is rejected (R71). -/
def rejectionOf (w : Word) : DecodeError :=
  if opRows.any (fun r => r.pattern.setWidth 8 == w.setWidth 8) then
    if w.extractLsb' 18 14 == 0#14 then .strayField else .reservedBits
  else .unknownOp (w.setWidth 8)

/-- The command a word encodes, or why it encodes none (R70, R71). REV with `W = 3` matches REV's row and is
decoded: REV's own check rejects it (R71, R89). -/
def decode (w : Word) : Except DecodeError Instr :=
  match opRows.find? (fun r => r.accepts w) with
  | some r => .ok (r.build w)
  | none => .error (rejectionOf w)

/-- A one-bit field at `pos`. -/
def flagBit (b : Bool) (pos : Nat) : Word := if b then 1#32 <<< pos else 0#32

/-- A buffer number at `pos` (R67). -/
def bufBit (b : BufId) (pos : Nat) : Word :=
  match b with
  | .b0 => 0#32
  | .b1 => 1#32 <<< pos

/-- The code of a reversal width (R67). -/
def RevWidth.code : RevWidth → Word
  | .w8 => 0#32
  | .w16 => 1#32
  | .w32 => 2#32
  | .reserved => 3#32

/-- The code of a family (R67). -/
def Family.code : Family → Word
  | .nrnsc => 0#32
  | .rsc => 1#32

/-- The code of an SfdType (R67, R171). -/
def SfdType.code : SfdType → Word
  | .coded0 => 0#32
  | .uncoded0 => 1#32
  | .coded1 => 2#32
  | .uncoded1 => 3#32

/-- The word of a command of format F1 (R68). -/
def encodeF1 (op : Word) (sb : BufId) : Word := op ||| bufBit sb 8

/-- The word of a command of format F2 (R68). -/
def encodeF2 (op : Word) (sb db : BufId) : Word := op ||| bufBit sb 8 ||| bufBit db 9

/-- The command word of a command (R67, R68, R70). -/
def encode : Instr → Word
  | .rdbit sb => encodeF1 0x01#32 sb
  | .wrbit sb => encodeF1 0x02#32 sb
  | .rev w => 0x03#32 ||| w.code <<< 10
  | .whiten sb => encodeF1 0x10#32 sb
  | .rscenc sb db => encodeF2 0x20#32 sb db
  | .nrnscenc sb db => encodeF2 0x21#32 sb db
  | .rscdec sb db => encodeF2 0x22#32 sb db
  | .nrnscdec sb db => encodeF2 0x23#32 sb db
  | .ilv sb => encodeF1 0x30#32 sb
  | .fcs32 sb => encodeF1 0x40#32 sb
  | .fcschk sb => encodeF1 0x41#32 sb
  | .fcsapp sb => encodeF1 0x42#32 sb
  | .shrdet sb => encodeF1 0x50#32 sb
  | .phrenc => 0x51#32
  | .phrdec => 0x52#32
  | .frmdec sb db skipv => encodeF2 0x60#32 sb db ||| flagBit skipv 13
  | .frmenc sb db fam dw sfd fcst =>
      encodeF2 0x61#32 sb db ||| fam.code <<< 12 ||| flagBit dw 14 ||| sfd.code <<< 15 ||| flagBit fcst 17

/-- The command word of an instruction whose `nbits` low bits are `w`'s and whose other bits are 0. -/
def tableWord (nbits w : Nat) : Word := BitVec.ofNat 32 (w % 2 ^ nbits)

/-- The command the decoder reads from an instruction given as the opcode table numbers its bits. -/
def decodeTableWord (nbits w : Nat) : Option Instr :=
  match decode (tableWord nbits w) with
  | .ok i => some i
  | .error _ => none

end Sys2Proof
end

