-- ==== Sys2Proof/Config.lean ====
section
/-! DEFINITION. What an implementation fixes (the OPEN parameters of spec 00_scope.md R6) and the free values of
93_implementation_defined.md U1 to U3. The constants `Config.…` are opaque: nothing in Lean can evaluate them or
prove a value of them, so what is proved holds for every admissible value. -/

namespace Sys2Proof

/-- `PN9_OUT` (R6, R100): which bit of the shift register is the keystream bit. -/
inductive Pn9Out where
  | feedback
  | bit0
  deriving DecidableEq, Repr, Inhabited

/-- `ILV_VARIANT` (R6, R147): which of the two interleaver tables. -/
inductive IlvVariant where
  | formula
  | reversed
  deriving DecidableEq, Repr, Inhabited

/-- The OPEN parameters of R6 with their admissible values. The field defaults are the defaults of R6, the values
the spec's test vectors use; `SFD_FAMILY` has no default in the spec, and the two values here serve the vectors
F17 and R217(b). -/
structure Params where
  /-- `CAP_BYTES`, the capacity of each buffer in bytes. -/
  capBytes : Nat := 8192
  /-- `PN9_OUT`. -/
  pn9Out : Pn9Out := .feedback
  /-- `ILV_VARIANT`. -/
  ilvVariant : IlvVariant := .formula
  /-- `SFD_PATTERN[0]`; bit `i` of the word is `b_i` of R172, here and in the next three. -/
  sfdCoded0 : BitVec 16 := 0x72F6#16
  /-- `SFD_PATTERN[1]`. -/
  sfdUncoded0 : BitVec 16 := 0x7209#16
  /-- `SFD_PATTERN[2]`. -/
  sfdCoded1 : BitVec 16 := 0xB4C6#16
  /-- `SFD_PATTERN[3]`. -/
  sfdUncoded1 : BitVec 16 := 0x705E#16
  /-- `SFD_FAMILY[Coded0]`. -/
  famCoded0 : Family := .rsc
  /-- `SFD_FAMILY[Coded1]`. -/
  famCoded1 : Family := .nrnsc
  /-- `VITERBI_MAX_DIST`; `none` is the spec's `NONE`, no limit (R136). -/
  viterbiMaxDist : Option Nat := none
  /-- `CAP_BYTES >= 4112` (R6). -/
  cap_lo : 4112 ≤ capBytes := by decide
  /-- `CAP_BYTES <= 2^28` (R6, R12). -/
  cap_hi : capBytes ≤ 2 ^ 28 := by decide
  /-- The four patterns are pairwise distinct (R172). -/
  sfd_distinct : [sfdCoded0, sfdUncoded0, sfdCoded1, sfdUncoded1].Nodup := by decide
  deriving DecidableEq, Repr, Inhabited

/-- The parameters of this hardware instance: any admissible value (R6, R34, P1 to P6). -/
opaque Config.params : Params

/-- What a byte of buffer memory that nothing has written holds (U1, U3): any byte, one for each filling (see
`Machine.Memory.fill`), buffer number and byte index. -/
opaque Config.freeByte : Nat → Nat → Nat → Byte

/-- The words a failure in flight leaves behind (U3): any word, one for each draw and place. -/
opaque Config.freeWord : Nat → Nat → Word

/-- How the decoder breaks ties in one decode (U2, R135): for the family, the start state and the encoded bits, whether at
a symbol index and a trellis state the later of two paths of equal distance is kept. -/
abbrev TieChoice := Family → Nat → List Bool → Nat → Nat → Bool

/-- The decoder's choice among ties: any choice, one for each place a decode is made in (0 a decoder command, 1 the header
and 2 the payload of FRMDEC). It depends on the decode's own arguments and on nothing else (R225; assumption log 6). -/
opaque Config.tiePick : Nat → TieChoice

end Sys2Proof
end

