-- ==== Sys2Proof/Machine/Bits.lean ====
section
/-! DEFINITION. Bits and bytes: stream order, `pack` and `unpack`, words as bit strings (spec 00_scope.md R7 to R9,
20_memory.md R50, R51; 40_bit_buffer.md R88). A bit sequence is a list whose head is the first bit in time (R9). -/

namespace Sys2Proof.Machine

/-- `ceil8(n)` of R7. -/
def ceil8 (n : Nat) : Nat := (n + 7) / 8

/-- The `w`-bit value whose bit `i` is the `i`-th bit of the list, 0 past its end (R8, R9). -/
def wordOfBits (w : Nat) : List Bool → BitVec w
  | [] => 0#w
  | b :: bs => wordOfBits w bs <<< 1 ||| (if b then 1#w else 0#w)

/-- The bits of a value, bit 0 first (R8, R9). -/
def bitsOfWord {w : Nat} (v : BitVec w) : List Bool := (List.range w).map v.getLsbD

/-- The bytes of an LSB-first reading, `n` of them, zeros past the end of the bits. -/
def packBytes : Nat → List Bool → List Byte
  | 0, _ => []
  | n + 1, bits => wordOfBits 8 (bits.take 8) :: packBytes n (bits.drop 8)

/-- `pack` of R50. -/
def pack (bits : List Bool) : List Byte := packBytes (ceil8 bits.length) bits

/-- All bits of a byte sequence in stream order (R9). -/
def streamBits (bytes : List Byte) : List Bool := bytes.flatMap bitsOfWord

/-- `unpack` of R50: the first `n` bits of the bytes in stream order. -/
def unpack (bytes : List Byte) (n : Nat) : List Bool := (streamBits bytes).take n

/-- The bytes a buffer with order tag `ord` holds when bit `i` of it is the `i`-th bit of the list and the unused bits
of its last byte are 0 (R26, R48, R214): `pack` for LSB-first, each of its bytes reversed for MSB-first. -/
def packOrd (ord : Bool) (bits : List Bool) : List Byte :=
  if ord then (pack bits).map BitVec.reverse else pack bits

/-- The bit position inside a byte that bit index `i` names under an order tag (R48). -/
def bitPos (ord : Bool) (i : Nat) : Nat := if ord then 7 - i % 8 else i % 8

/-- `reverse_bits` (R88) on the low `n` bits of a word, extended with zeros. -/
def reverseBits (n : Nat) (word : Word) : Word := (word.setWidth n).reverse.setWidth 32

/-- The four bytes of a word, least significant first (R51). -/
def wordBytes (v : Word) : List Byte :=
  [v.extractLsb' 0 8, v.extractLsb' 8 8, v.extractLsb' 16 8, v.extractLsb' 24 8]

/-- The number of positions at which two bit sequences of one length differ (R130). -/
def hamming : List Bool → List Bool → Nat
  | a :: as, b :: bs => (if a = b then 0 else 1) + hamming as bs
  | _, _ => 0

end Sys2Proof.Machine
end

