-- ==== Sys2Proof/Machine/State.lean ====
section
/-! DEFINITION. The state of the machine as plain data (spec 10_state.md R16), the reasons a step can stop, and the
state after reset (R35). -/

namespace Sys2Proof.Machine

/-- The error codes of R221, in the order of their numbers 0 to 7. -/
inductive ErrCode where
  | ok
  | malformed
  | notFound
  | capacity
  | verify
  | unsupported
  | decode
  | illegal
  deriving DecidableEq, Repr, Inhabited

/-- The states of the frame machine (R29, R192), in the order of their codes 0 to 6. -/
inductive FsmState where
  | searching
  | preambleFound
  | sfdMatched
  | headerRecovered
  | payloadRecovered
  | verified
  | failed
  deriving DecidableEq, Repr, Inhabited

/-- One access of the host to the address map of R58: `MemRead(off, n)` and `MemWrite(off, n, v)` of R10, of `n`
bytes at offset `off`. -/
inductive HostAccess where
  | read (off n : Nat)
  | write (off n : Nat) (v : Word)
  deriving DecidableEq, Repr

/-- A buffer memory `BUF[b].data` (R22). `cells` lists the bytes that have been written, by byte index; a byte that
is not listed holds the free value `Config.freeByte fill b j` (R35, R57; assumption log 4). -/
structure Memory where
  /-- The bytes written since the last filling, addresses strictly rising. -/
  cells : List Host.Cell
  /-- Which filling of unspecified bytes lies under `cells`: the model's own. -/
  fill : Nat
  deriving DecidableEq, Repr

/-- A bit buffer (R22, R23, R25). -/
structure Buffer where
  /-- `BUF[b].data`. -/
  mem : Memory
  /-- `BLEN[b]`, the bit length. -/
  len : Word
  /-- `BORD[b]`: `false` is LSB-first, `true` is MSB-first. -/
  ord : Bool
  deriving DecidableEq, Repr

/-- The state (R16). `CMD` holds nothing (R21); `BBYTES` and `CAP` are derived when read (R24, R30); the codec tables
are constants (R31). -/
structure State where
  /-- `x[0]` to `x[7]` (R17). -/
  regs : Vector Word 8
  /-- `STATUS` (R27). -/
  status : Word
  /-- `FSM` (R29). -/
  fsm : Word
  /-- Buffer 0. -/
  buf0 : Buffer
  /-- Buffer 1. -/
  buf1 : Buffer
  /-- The OPEN parameters of this instance (R6, R34), which no step changes; the model's own (assumption log 1). -/
  params : Params
  /-- The host's accesses that are still to come, the next one first; the model's own (assumption log 2). -/
  pending : List HostAccess
  /-- The data of the last host read; the model's own (assumption log 3). -/
  rdata : Word
  /-- How many failures in flight have drawn free values; the model's own (assumption log 5). -/
  draws : Nat
  deriving DecidableEq, Repr

/-- The machine has no fault: no source describes a stuck state, every command word has a next state in every state
(93_implementation_defined.md section 4), and an error is a completion that `STATUS` records (R220). So nothing raises
a fault, which is as the spec says. -/
inductive Fault where
  deriving DecidableEq, Repr

/-- Why the model gives a step no meaning. -/
inductive Refusal where
  /-- Raised by `exec` for a command that has no meaning yet; no arm raises it. Safe. -/
  | notModelled (mnemonic : String)
  /-- Raised by a host access to an offset outside the address map (R58, H1). Safe: the spec gives it no meaning. -/
  | noSuchOffset (off : Nat)
  /-- Raised by a host access of a width the addressed item does not have (R58, H1). Safe. -/
  | badWidth (off n : Nat)
  /-- Raised by a host access inside the register block that is not 4-byte aligned (R58, H1). Safe. -/
  | misaligned (off : Nat)
  deriving DecidableEq, Repr

/-- A buffer after reset: bytes unspecified, length 0, LSB-first (R35). -/
def Buffer.reset : Buffer := { mem := { cells := [], fill := 0 }, len := 0#32, ord := false }

/-- The state after reset of an instance with the parameters `P` (R35, R245). -/
def State.resetWith (P : Params) : State where
  regs := Vector.replicate 8 0#32
  status := 0#32
  fsm := 0#32
  buf0 := Buffer.reset
  buf1 := Buffer.reset
  params := P
  pending := []
  rdata := 0#32
  draws := 0

/-- The state after reset (R35, R245). -/
def State.reset : State := State.resetWith Config.params

end Sys2Proof.Machine
end

