-- ==== Sys2Proof/Machine/Flags.lean ====
section
/-! DEFINITION. The words of `STATUS` and `FSM`: codes, fields and updates (spec 10_state.md R27, R29; 60_exceptions.md
R221). There are no other flags (R28). -/

namespace Sys2Proof.Machine

/-- The code of an error (R221). -/
def ErrCode.code : ErrCode → Word
  | .ok => 0#32
  | .malformed => 1#32
  | .notFound => 2#32
  | .capacity => 3#32
  | .verify => 4#32
  | .unsupported => 5#32
  | .decode => 6#32
  | .illegal => 7#32

/-- The field `ERR`, bits 3:0 of `STATUS` (R27). -/
def errField (status : Word) : Word := status &&& 0xF#32

/-- The bit `STICKY`, bit 8 of `STATUS` (R27). -/
def stickyBit (status : Word) : Bool := status.getLsbD 8

/-- `STATUS` with its field `ERR` written and its other bits kept (R27). -/
def withErr (status : Word) (e : ErrCode) : Word := status &&& 0xFFFFFFF0#32 ||| e.code

/-- `STATUS` after a successful command: `ERR` is `OK`, `STICKY` unchanged (R76). -/
def statusOk (status : Word) : Word := withErr status .ok

/-- `STATUS` after an error: `ERR` is the code and `STICKY` is 1 (R224, R226). -/
def statusErr (status : Word) (e : ErrCode) : Word := withErr status e ||| 0x100#32

/-- The code of a state of the frame machine (R29). -/
def FsmState.code : FsmState → Word
  | .searching => 0#32
  | .preambleFound => 1#32
  | .sfdMatched => 2#32
  | .headerRecovered => 3#32
  | .payloadRecovered => 4#32
  | .verified => 5#32
  | .failed => 6#32

/-- The field `STATE`, bits 2:0 of `FSM` (R29). -/
def fsmStateField (fsm : Word) : Word := fsm &&& 7#32

/-- The field `FROM`, bits 5:3 of `FSM` (R29). -/
def fsmFromField (fsm : Word) : Word := fsm >>> 3 &&& 7#32

/-- The word of `FSM` when the machine ended in a state that is not `Failed`: `FROM` is 0 (R29). -/
def fsmAt (st : FsmState) : Word := st.code

/-- The word of `FSM` when the machine failed in the state `src` (R29, R192). -/
def fsmFailed (src : FsmState) : Word := FsmState.failed.code ||| src.code <<< 3

end Sys2Proof.Machine
end

