-- ==== Sys2Proof/Machine/Ops.lean ====
section
/-! DEFINITION. The named operations over registers and memory, and the completions of a command: success (spec
30_encoding.md R76), and the error completion in its two kinds, rejection and failure in flight (60_exceptions.md
R224), which is this machine's taking of an exception. It has no return from one (R225). -/

namespace Sys2Proof.Machine

/-! ### Memory (R22) -/

/-- The byte listed at an address. -/
def cellAt : List Host.Cell → Nat → Option Byte
  | [], _ => none
  | (k, w) :: rest, a => if k = a then some w else cellAt rest a

/-- The list with the byte at an address written, in its place among rising addresses. -/
def setCell : List Host.Cell → Nat → Byte → List Host.Cell
  | [], a, v => [(a, v)]
  | (k, w) :: rest, a, v =>
    if a < k then (a, v) :: (k, w) :: rest
    else if a = k then (a, v) :: rest
    else (k, w) :: setCell rest a v

/-- The canonical form of a memory: addresses strictly rising. An unlisted address has no listed value at all, so no
entry repeats what an unlisted address reads as. -/
abbrev Memory.wf (m : Memory) : Prop := m.cells.Pairwise (fun p q => p.1 < q.1)

/-- The number of a buffer (R67). -/
def bufIndex : BufId → Nat
  | .b0 => 0
  | .b1 => 1

/-- The byte of `BUF[b].data` at an index: the byte written there, or the free value of this filling (U1, U3). -/
def Memory.read (b : BufId) (m : Memory) (j : Nat) : Byte :=
  match cellAt m.cells j with
  | some v => v
  | none => Config.freeByte m.fill (bufIndex b) j

/-- Writing one byte. -/
def Memory.write (m : Memory) (j : Nat) (v : Byte) : Memory := { m with cells := setCell m.cells j v }

/-- Writing consecutive bytes from an index on. -/
def Memory.writeBytes (m : Memory) (j : Nat) : List Byte → Memory
  | [] => m
  | v :: vs => (m.write j v).writeBytes (j + 1) vs

/-- A memory every byte of which is unspecified (R57). -/
def Memory.unspecified (fill : Nat) : Memory := { cells := [], fill := fill }

/-! ### Buffers -/

/-- Buffer `b`. -/
def State.buf (s : State) : BufId → Buffer
  | .b0 => s.buf0
  | .b1 => s.buf1

/-- The state with buffer `b` replaced. -/
def State.setBuf (s : State) (b : BufId) (B : Buffer) : State :=
  match b with
  | .b0 => { s with buf0 := B }
  | .b1 => { s with buf1 := B }

/-- `BUF[b].data[j]` (R22). -/
def State.byteAt (s : State) (b : BufId) (j : Nat) : Byte := (s.buf b).mem.read b j

/-- `BLEN[b]` as a number of bits (R23). -/
def State.blen (s : State) (b : BufId) : Nat := (s.buf b).len.toNat

/-- `BORD[b]` (R25). -/
def State.bord (s : State) (b : BufId) : Bool := (s.buf b).ord

/-- `BBYTES[b]`, always `ceil8(BLEN[b])` (R24). -/
def State.bbytes (s : State) (b : BufId) : Nat := ceil8 (s.blen b)

/-- The capacity of each buffer in bits, `8 * CAP_BYTES` (R47). -/
def State.capBits (s : State) : Nat := 8 * s.params.capBytes

/-- `BLEN[b] <- n`. -/
def State.setLen (s : State) (b : BufId) (n : Nat) : State :=
  s.setBuf b { s.buf b with len := BitVec.ofNat 32 n }

/-- `BORD[b] <- v`; only the host writes it (R25). -/
def State.setOrd (s : State) (b : BufId) (v : Bool) : State := s.setBuf b { s.buf b with ord := v }

/-- `BUF[b].data[j ..] <- bytes`. -/
def State.writeBytes (s : State) (b : BufId) (j : Nat) (bytes : List Byte) : State :=
  s.setBuf b { s.buf b with mem := (s.buf b).mem.writeBytes j bytes }

/-- What a successful command writes to a buffer it produces: the bytes from 0 on and `BLEN[b]`; the bytes above
and `BORD[b]` stay (R56). -/
def State.produce (s : State) (b : BufId) (bytes : List Byte) (n : Nat) : State :=
  (s.writeBytes b 0 bytes).setLen b n

/-! ### Registers (R17) -/

/-- `x[i]`. -/
def State.x (s : State) (i : Fin 8) : Word := s.regs[i.val]

/-- `x[i] <- v`. -/
def State.setX (s : State) (i : Fin 8) (v : Word) : State := { s with regs := s.regs.set i.val v i.isLt }

/-- `x[i] <- n` for a natural number. -/
def State.setXNat (s : State) (i : Fin 8) (n : Nat) : State := s.setX i (BitVec.ofNat 32 n)

/-! ### Completions of a command -/

/-- Success: `STATUS.ERR <- OK`, `STICKY` unchanged (R76). -/
def State.succeed (s : State) : State := { s with status := statusOk s.status }

/-- `FSM <- v` (R29). -/
def State.setFsm (s : State) (v : Word) : State := { s with fsm := v }

/-- The free values a command has used are drawn. -/
def State.draw (s : State) : State := { s with draws := s.draws + 1 }

/-- Rejection: only `STATUS` changes (R57, R224). -/
def State.reject (s : State) (e : ErrCode) : State := { s with status := statusErr s.status e }

/-- The results of a failed command: `x[4]` to `x[7]` hold free words (R19, U3). -/
def State.loseResults (s : State) : State :=
  (((s.setX 4 (Config.freeWord s.draws 4)).setX 5 (Config.freeWord s.draws 5)).setX 6
    (Config.freeWord s.draws 6)).setX 7 (Config.freeWord s.draws 7)

/-- The destination of a failed command: every byte is free, and `BLEN` is a free value within the capacity (R57,
R224); `BORD` stays. -/
def State.loseBuffer (s : State) (b : BufId) : State :=
  s.setBuf b
    { mem := Memory.unspecified (s.draws + 1)
      len := BitVec.ofNat 32 ((Config.freeWord s.draws 0).toNat % (s.capBits + 1))
      ord := s.bord b }

/-- Failure in flight of a command with destination `db` (R57, R224): `STATUS` as for a rejection, results and
destination unspecified, everything else unchanged. `FSM` is written by the frame commands. -/
def State.failInFlight (s : State) (e : ErrCode) (db : Option BufId) : State :=
  match db with
  | none => (s.reject e).loseResults.draw
  | some b => ((s.reject e).loseResults.loseBuffer b).draw

/-- The code of the first check that fails, in the order listed (R76, R223). -/
def firstFailure : List (Bool × ErrCode) → Option ErrCode
  | [] => none
  | (holds, e) :: rest => if holds then firstFailure rest else some e

/-- A command that runs its checks in order and is rejected with the code of the first that fails (R76); otherwise it
ends as `body` says. -/
def State.checked (s : State) (checks : List (Bool × ErrCode)) (body : State) : State :=
  match firstFailure checks with
  | some e => s.reject e
  | none => body

/-- The completion of a word that encodes no command (R71). -/
def State.illegalWord (s : State) : State := s.reject .illegal

end Sys2Proof.Machine
end

