-- ==== Sys2Proof/Machine/Operands.lean ====
section
/-! DEFINITION. The operand forms of the commands (spec 30_encoding.md R69, 20_memory.md R47 to R50): register
operands, bit ranges and byte ranges of a buffer, and the tagged bit accesses. -/

namespace Sys2Proof.Machine

/-- The first argument `x[0]` as an unsigned number (R69). -/
def State.a0 (s : State) : Nat := (s.x 0).toNat

/-- The second argument `x[1]` as an unsigned number (R69). -/
def State.a1 (s : State) : Nat := (s.x 1).toNat

/-- The bit range `[0, n)` is inside buffer `b` (R47). -/
def State.bitsInside (s : State) (b : BufId) (n : Nat) : Bool := decide (n ≤ s.blen b)

/-- The byte range `[0, n)` is inside buffer `b` (R47). -/
def State.bytesInside (s : State) (b : BufId) (n : Nat) : Bool := decide (8 * n ≤ s.blen b)

/-- An output of `n` bits fits a buffer (R47). -/
def State.fits (s : State) (n : Nat) : Bool := decide (n ≤ s.capBits)

/-- The bytes 0 to `n - 1` of buffer `b`. -/
def State.bytes (s : State) (b : BufId) (n : Nat) : List Byte := (List.range n).map (s.byteAt b)

/-- The first `n` bits of buffer `b` read in stream order from its bytes, whatever its tag (R9, R52). -/
def State.streamOf (s : State) (b : BufId) (n : Nat) : List Bool := unpack (s.bytes b (ceil8 n)) n

/-- `rd_bit(b, i)` (R48). -/
def State.rdBit (s : State) (b : BufId) (i : Nat) : Bool := (s.byteAt b (i / 8)).getLsbD (bitPos (s.bord b) i)

/-- `rd_bits(b, i, n)` (R50). -/
def State.rdBits (s : State) (b : BufId) (i n : Nat) : List Bool := (List.range n).map (fun k => s.rdBit b (i + k))

/-- A byte with the bit at position `k` set to `v` (R49). -/
def putBit (byte : Byte) (k : Nat) (v : Bool) : Byte :=
  byte &&& ~~~(1#8 <<< k) ||| (if v then 1#8 <<< k else 0#8)

/-- `wr_bit(b, i, v)` (R49). -/
def State.wrBit (s : State) (b : BufId) (i : Nat) (v : Bool) : State :=
  s.writeBytes b (i / 8) [putBit (s.byteAt b (i / 8)) (bitPos (s.bord b) i) v]

/-- The reversal width a command names, `8 << W`; `W = 3` names none (R69, R89). -/
def revBits : RevWidth → Nat
  | .w8 => 8
  | .w16 => 16
  | .w32 => 32
  | .reserved => 0

end Sys2Proof.Machine
end

