-- ==== Sys2Proof/Machine/BitBuffer.lean ====
section
/-! DEFINITION. RDBIT, WRBIT and REV (spec 40_bit_buffer.md). -/

namespace Sys2Proof.Machine

/-- RDBIT (R86). -/
def execRdbit (sb : BufId) (s : State) : Host.Outcome State Fault Refusal :=
  .next (s.checked [(decide (s.a0 < s.blen sb), .capacity)]
    (s.setXNat 4 (s.rdBit sb s.a0).toNat).succeed)

/-- WRBIT (R87). -/
def execWrbit (sb : BufId) (s : State) : Host.Outcome State Fault Refusal :=
  .next (s.checked [(decide (s.a1 ≤ 1), .illegal), (decide (s.a0 < s.blen sb), .capacity)]
    (s.wrBit sb s.a0 (decide (s.a1 = 1))).succeed)

/-- REV (R89). -/
def execRev (w : RevWidth) (s : State) : Host.Outcome State Fault Refusal :=
  .next (s.checked [(decide (w ≠ .reserved), .illegal)]
    (s.setX 4 (reverseBits (revBits w) (s.x 0))).succeed)

end Sys2Proof.Machine
end

