-- ==== Sys2Proof/Machine/Fcs.lean ====
section
/-! DEFINITION. The frame check sequence: FCS32, FCSCHK, FCSAPP (spec 45_fcs32.md). -/

namespace Sys2Proof.Machine

/-- One bit step of the table's construction (R155). -/
def crcBitStep (c : Word) : Word := if c.getLsbD 0 then c >>> 1 ^^^ 0xEDB88320#32 else c >>> 1

/-- `n` bit steps. -/
def crcBitSteps : Nat → Word → Word
  | 0, c => c
  | n + 1, c => crcBitSteps n (crcBitStep c)

/-- `CRC_TABLE[n]` (R155). -/
def crcTable (n : Byte) : Word := crcBitSteps 8 (n.setWidth 32)

/-- The CRC register after one byte (R157). -/
def crcStep (c : Word) (x : Byte) : Word := crcTable ((c ^^^ x.setWidth 32).setWidth 8) ^^^ c >>> 8

/-- The complement that `fcs32` applies on entry and on exit (R156, R157). -/
def crcFinal : Word := 0xFFFFFFFF#32

/-- `fcs32(seed, bytes)` (R157). -/
def fcs32 (seed : Word) (bytes : List Byte) : Word := bytes.foldl crcStep (seed ^^^ crcFinal) ^^^ crcFinal

/-- The bytes the trailer covers: the data, padded with zeros to four octets (R159). -/
def fcsCover (data : List Byte) : List Byte := data ++ List.replicate (4 - data.length) 0#8

/-- The FCS of data (R159). -/
def fcsOf (data : List Byte) : Word := fcs32 0#32 (fcsCover data)

/-- `fcs32_trailer(data)`, little-endian (R159). -/
def fcs32Trailer (data : List Byte) : List Byte := wordBytes (fcsOf data)

/-- The good-frame constant (R156, R160). -/
def fcsGoodConst : Word := 0x2144DF1C#32

/-- `fcs32_is_good(bytes)` (R160). -/
def fcs32IsGood (bytes : List Byte) : Bool :=
  let n := bytes.length
  if n ≤ 4 then false
  else if n < 8 then
    fcs32 0#32 (bytes.take (n - 4) ++ List.replicate (8 - n) 0#8 ++ bytes.drop (n - 4)) == fcsGoodConst
  else fcs32 0#32 bytes == fcsGoodConst

/-- FCS32 (R161). -/
def execFcs32 (sb : BufId) (s : State) : Host.Outcome State Fault Refusal :=
  .next (s.checked [(s.bytesInside sb s.a0, .capacity)]
    (s.setX 4 (fcs32 (s.x 1) (s.bytes sb s.a0))).succeed)

/-- FCSCHK (R162). -/
def execFcschk (sb : BufId) (s : State) : Host.Outcome State Fault Refusal :=
  .next (s.checked [(s.bytesInside sb s.a0, .capacity)]
    (s.setXNat 4 (fcs32IsGood (s.bytes sb s.a0)).toNat).succeed)

/-- FCSAPP (R163). -/
def execFcsapp (sb : BufId) (s : State) : Host.Outcome State Fault Refusal :=
  .next (s.checked [(s.bytesInside sb s.a0, .capacity), (s.fits (8 * (s.a0 + 4)), .capacity)]
    (((s.writeBytes sb s.a0 (fcs32Trailer (s.bytes sb s.a0))).setLen sb (8 * (s.a0 + 4))).setX 4
      (fcsOf (s.bytes sb s.a0))).succeed)

end Sys2Proof.Machine
end

