-- ==== Sys2Proof/Machine/FecEncode.lean ====
section
/-! DEFINITION. The convolutional encoders, the tail and the pad, RSCENC and NRNSCENC (spec 42_fec_encoders.md). -/

namespace Sys2Proof.Machine

/-- The number of states of a trellis: 8 for RSC, 16 for NRNSC (R110). -/
def numStates : Family → Nat
  | .rsc => 8
  | .nrnsc => 16

/-- A symbol from its two output bits: `sym = 2*u1 + u0` (R110). -/
def symbolOf (u1 u0 : Bool) : BitVec 2 := wordOfBits 2 [u0, u1]

/-- The RSC step (R113): symbol and next state. -/
def rscStep (s : BitVec 3) (b : Bool) : BitVec 2 × BitVec 3 :=
  let a := b ^^ s.getLsbD 0 ^^ s.getLsbD 1 ^^ s.getLsbD 2
  let u0 := b
  let u1 := a ^^ s.getLsbD 1 ^^ s.getLsbD 2
  (symbolOf u1 u0, s <<< 1 ||| (if a then 1#3 else 0#3))

/-- The NRNSC step (R115): symbol and next state. -/
def nrnscStep (s : BitVec 4) (b : Bool) : BitVec 2 × BitVec 4 :=
  let s' := s <<< 1 ||| (if b then 1#4 else 0#4)
  let u0 := true ^^ s'.getLsbD 0 ^^ s'.getLsbD 1 ^^ s'.getLsbD 2 ^^ s'.getLsbD 3
  let u1 := true ^^ s'.getLsbD 0 ^^ s'.getLsbD 2 ^^ s'.getLsbD 3
  (symbolOf u1 u0, s')

/-- The transition table of a family, `RSC_TT` (R114) or `NRNSC_TT` (R116): symbol and next state of state `m` and
input bit `b`. -/
def trellis (f : Family) (m : Nat) (b : Bool) : BitVec 2 × Nat :=
  match f with
  | .rsc => let p := rscStep (BitVec.ofNat 3 m) b; (p.1, p.2.toNat)
  | .nrnsc => let p := nrnscStep (BitVec.ofNat 4 m) b; (p.1, p.2.toNat)

/-- `SYMSWAP` (R110): the two bits of a symbol exchanged. -/
def symSwap (sym : BitVec 2) : BitVec 2 := sym.reverse

/-- The encoded bits of an input sequence from state `m`, in stream order (R111, R112). -/
def fecBits (f : Family) : Nat → List Bool → List Bool
  | _, [] => []
  | m, b :: bs =>
    let v := symSwap (trellis f m b).1
    v.getLsbD 0 :: v.getLsbD 1 :: fecBits f (trellis f m b).2 bs

/-- The state after an input sequence from state `m` (R112). -/
def fecState (f : Family) : Nat → List Bool → Nat
  | m, [] => m
  | m, b :: bs => fecState f (trellis f m b).2 bs

/-- `RSC_TAIL[m]` (R120). -/
def rscTail (m : BitVec 3) : BitVec 3 :=
  wordOfBits 3 [m.getLsbD 0 ^^ m.getLsbD 1 ^^ m.getLsbD 2, m.getLsbD 0 ^^ m.getLsbD 1, m.getLsbD 0]

/-- The tail bits of a family in state `m`: `RSC_TAIL[m]`, or 0 for NRNSC (R120). -/
def tailBits (f : Family) (m : Nat) : Byte :=
  match f with
  | .rsc => (rscTail (BitVec.ofNat 3 m)).setWidth 8
  | .nrnsc => 0#8

/-- The pad length in octets of a coded frame with `L` payload octets: `1 + is_even(2 + L)` (R119). -/
def padOctets (L : Nat) : Nat := if (2 + L) % 2 = 0 then 2 else 1

/-- `PAD_BYTE` (R6, R121). -/
def padByte : Byte := 0xD0#8

/-- `tailpad` (R121): the first pad octet holds the tail bits, the others are `PAD_BYTE`. -/
def tailpad (f : Family) (m pad : Nat) : List Byte :=
  (padByte ||| tailBits f m) :: List.replicate (pad - 1) padByte

/-- The checks of the encoders in order (R117, R118). -/
def encChecks (f : Family) (sb db : BufId) (s : State) : List (Bool × ErrCode) :=
  [(decide (sb ≠ db), .illegal), (decide (s.a1 < numStates f), .illegal), (s.bitsInside sb s.a0, .capacity),
    (s.fits (2 * s.a0), .capacity)]

/-- An encoder command: `x[0]` bits of `BUF[SB]` from state `x[1]` into `BUF[DB]` (R117, R118). -/
def encodeBuffer (f : Family) (sb db : BufId) (s : State) : State :=
  let input := s.streamOf sb s.a0
  s.checked (encChecks f sb db s)
    (((s.produce db (pack (fecBits f s.a1 input)) (2 * s.a0)).setXNat 4 (2 * s.a0)).setXNat 5
      (fecState f s.a1 input)).succeed

/-- RSCENC (R117). -/
def execRscenc (sb db : BufId) (s : State) : Host.Outcome State Fault Refusal :=
  .next (encodeBuffer .rsc sb db s)

/-- NRNSCENC (R118). -/
def execNrnscenc (sb db : BufId) (s : State) : Host.Outcome State Fault Refusal :=
  .next (encodeBuffer .nrnsc sb db s)

end Sys2Proof.Machine
end

