-- ==== Sys2Proof/Machine/Header.lean ====
section
/-! DEFINITION. The synchronisation header and the PHY header: SHRDET, PHRENC, PHRDEC (spec 46_shr_phr.md). -/

namespace Sys2Proof.Machine

/-- `PRE`, the preamble pattern (R170). -/
def pre : List Bool := [false, true, false, true, false, true, false, true]

/-- `SFD_PATTERN[k]` as a word whose bit `i` is `b_i` (R172). -/
def sfdWord (P : Params) : SfdType → BitVec 16
  | .coded0 => P.sfdCoded0
  | .uncoded0 => P.sfdUncoded0
  | .coded1 => P.sfdCoded1
  | .uncoded1 => P.sfdUncoded1

/-- `SFD_PATTERN[k]` as 16 bits, `b_0` first (R172). -/
def sfdBits (P : Params) (k : SfdType) : List Bool := bitsOfWord (sfdWord P k)

/-- The coded SfdTypes (R171). -/
def sfdCoded : SfdType → Bool
  | .coded0 => true
  | .uncoded0 => false
  | .coded1 => true
  | .uncoded1 => false

/-- The SfdType whose pattern 16 bits are, if any; it is unique because the patterns are distinct (R172, R173). -/
def sfdMatch (P : Params) (bits : List Bool) : Option SfdType :=
  [SfdType.coded0, .uncoded0, .coded1, .uncoded1].find? (fun k => bits == sfdBits P k)

/-- The number of whole patterns `PRE` at the start of a bit sequence, at most `fuel` (R173). -/
def preRun : Nat → List Bool → Nat
  | 0, _ => 0
  | fuel + 1, bits => if bits.take 8 = pre then preRun fuel (bits.drop 8) + 1 else 0

/-- A synchronisation header that was found: index of its first bit, preamble bit length, SfdType, index of the first
bit after it (R173). -/
structure Shr where
  start : Nat
  plen : Nat
  kind : SfdType
  after : Nat
  deriving DecidableEq, Repr

/-- The candidate at one scan position, given the position and the bits from it on (R173): the maximal run of `PRE`,
then an SFD. -/
def shrAt (P : Params) (p : Nat) (bits : List Bool) : Option Shr :=
  let r := preRun bits.length bits
  if r = 0 then none
  else
    match sfdMatch P ((bits.drop (8 * r)).take 16) with
    | some k => some { start := p, plen := 8 * r, kind := k, after := p + 8 * r + 16 }
    | none => none

/-- The scan from position `p` on, over the bits from it on (R173): the first candidate that succeeds. -/
def shrScan (P : Params) : Nat → List Bool → Option Shr
  | _, [] => none
  | p, b :: bits =>
    match shrAt P p (b :: bits) with
    | some h => some h
    | none => shrScan P (p + 1) bits

/-- `shr_detect(S, start)` (R173). -/
def shrDetect (P : Params) (S : List Bool) (start : Nat) : Option Shr := shrScan P start (S.drop start)

/-- `BLEN[b]` bits of buffer `b` under its tag, the stream of SHRDET and FRMDEC (R174, R194). -/
def State.stream (s : State) (b : BufId) : List Bool := s.rdBits b 0 (s.blen b)

/-- SHRDET (R174). A failed scan leaves `x[4..7]` unspecified; SHRDET has no destination buffer (assumption log 7). -/
def execShrdet (sb : BufId) (s : State) : Host.Outcome State Fault Refusal :=
  .next (s.checked [(s.bitsInside sb s.a0, .capacity)]
    (match shrDetect s.params (s.stream sb) s.a0 with
    | some h =>
      (((((s.setXNat 4 h.plen).setX 5 h.kind.code).setXNat 6 h.after).setXNat 7 h.start).setFsm
        (fsmAt .sfdMatched)).succeed
    | none => (s.setFsm (fsmFailed .searching)).failInFlight .notFound none))

/-- `reverse_bits(v, 16)` (R88) on a 16-bit header word. -/
def reverse16 (v : BitVec 16) : BitVec 16 := v.reverse

/-- `phr_encode(L, ms, fcs, dw)` (R177). -/
def phrEncode (L : Nat) (ms fcs dw : Bool) : BitVec 16 :=
  wordOfBits 16 [ms, false, false, fcs, dw] ||| reverse16 (BitVec.ofNat 16 L)

/-- The fields of a PHR (R175, R178). -/
structure Phr where
  /-- Frame length `L`. -/
  L : Nat
  /-- Mode-switch flag. -/
  ms : Bool
  /-- FCS type: `true` is FCS-16. -/
  fcs : Bool
  /-- Whitening flag. -/
  dw : Bool
  deriving DecidableEq, Repr

/-- `phr_decode(H)` (R178). -/
def phrDecode (H : BitVec 16) : Phr where
  L := (reverse16 H &&& 0x07FF#16).toNat
  ms := H.getLsbD 0
  fcs := H.getLsbD 3
  dw := H.getLsbD 4

/-- PHRENC (R179). -/
def execPhrenc (s : State) : Host.Outcome State Fault Refusal :=
  .next (s.checked [(decide (s.a0 ≤ 2047), .illegal), (decide (s.x 1 &&& ~~~0x19#32 = 0#32), .illegal),
      (!(s.x 1).getLsbD 3, .unsupported)]
    (s.setX 4 (s.x 1 ||| reverseBits 16 (s.x 0))).succeed)

/-- PHRDEC (R180). -/
def execPhrdec (s : State) : Host.Outcome State Fault Refusal :=
  .next (s.checked [(decide (s.a0 ≤ 0xFFFF), .illegal)]
    ((s.setX 4 (reverseBits 16 (s.x 0) &&& 0x07FF#32)).setX 5 (s.x 0 &&& 0x1F#32)).succeed)

end Sys2Proof.Machine
end

