-- ==== Sys2Proof/Machine/Interleaver.lean ====
section
/-! DEFINITION. The block interleaver and ILV (spec 44_interleaver.md). -/

namespace Sys2Proof.Machine

/-- `ILV_TARGET[k]` (R147). -/
def ilvTarget (v : IlvVariant) (k : Nat) : Nat :=
  match v with
  | .formula => 15 - 4 * (k % 4) - k / 4
  | .reversed => 4 * (k % 4) + k / 4

/-- The four symbols of a byte, MSB-first: shifts 6, 4, 2, 0 (R146). -/
def byteSymbols (x : Byte) : List (BitVec 2) :=
  [x.extractLsb' 6 2, x.extractLsb' 4 2, x.extractLsb' 2 2, x.extractLsb' 0 2]

/-- The byte of four symbols, the first at the top (R146). -/
def symbolsByte (a b c d : BitVec 2) : Byte := a ++ b ++ c ++ d

/-- The bytes of a symbol sequence, four symbols a byte. -/
def symbolsBytes : List (BitVec 2) → List Byte
  | a :: b :: c :: d :: rest => symbolsByte a b c d :: symbolsBytes rest
  | _ => []

/-- The symbols of a block with each source symbol at its target position (R148). -/
def permuteSymbols (v : IlvVariant) (src : List (BitVec 2)) : List (BitVec 2) :=
  (List.range 16).foldl (fun dst i => dst.set (ilvTarget v i) (src.getD i 0#2)) (List.replicate 16 0#2)

/-- One block of four bytes, interleaved (R145, R148). -/
def ilvBlock (v : IlvVariant) (block : List Byte) : List Byte :=
  symbolsBytes (permuteSymbols v (block.flatMap byteSymbols))

/-- `ilv` (R148): every block of four bytes interleaved. -/
def ilv (v : IlvVariant) : List Byte → List Byte
  | x0 :: x1 :: x2 :: x3 :: rest => ilvBlock v [x0, x1, x2, x3] ++ ilv v rest
  | short => short

/-- ILV (R149); DEILV is the same command (R75, R150). -/
def execIlv (sb : BufId) (s : State) : Host.Outcome State Fault Refusal :=
  .next (s.checked [(decide (s.a0 % 32 = 0), .malformed), (s.bitsInside sb s.a0, .capacity)]
    (s.writeBytes sb 0 (ilv s.params.ilvVariant (s.bytes sb (s.a0 / 8)))).succeed)

end Sys2Proof.Machine
end

