-- ==== Sys2Proof/Machine/Viterbi.lean ====
section
/-! DEFINITION. The decoder: minimum-distance decoding by the Viterbi recursion with an arbitrary choice among ties,
RSCDEC and NRNSCDEC (spec 43_viterbi_decoder.md). The recursion carries each survivor's bits along instead of tracing
back; R134 says the two agree, and R130 is the contract either way. -/

namespace Sys2Proof.Machine

/-- The received symbols of an encoded bit sequence (R131): `v_t = R[2t] | R[2t+1] << 1`, swapped. -/
def recvSymbols : List Bool → List (BitVec 2)
  | b0 :: b1 :: rest => symSwap (wordOfBits 2 [b0, b1]) :: recvSymbols rest
  | _ => []

/-- The branch distance (R132): the number of bits in which two symbols differ. -/
def branchDist (sym r : BitVec 2) : Nat :=
  ((sym ^^^ r).getLsbD 0).toNat + ((sym ^^^ r).getLsbD 1).toNat

/-- A path that survives at a trellis state: its distance, and its input bits, newest first (R133). -/
abbrev Survivor := Nat × List Bool

/-- The survivor of each state at one time, by state number; `none` is no path, the distance `INF` (R133). -/
abbrev Column := List (Option Survivor)

/-- The column before the first symbol: only the start state has a path (R133). -/
def startColumn (f : Family) (m : Nat) : Column :=
  (List.range (numStates f)).map (fun s => if s = m then some (0, []) else none)

/-- The survivor after a candidate is considered: the nearer path, and on a tie the one the choice names (R133,
R135). -/
def better (takeNew : Bool) (kept : Option Survivor) (cand : Survivor) : Option Survivor :=
  match kept with
  | none => some cand
  | some old =>
    if cand.1 < old.1 then some cand
    else if cand.1 = old.1 ∧ takeNew then some cand
    else some old

/-- The candidate that branch `(s, b)` offers to state `s'` for the received symbol `r` (R133), if the branch leads
there and state `s` has a path. -/
def candidate (f : Family) (col : Column) (r : BitVec 2) (s' s : Nat) (b : Bool) : Option Survivor :=
  if (trellis f s b).2 = s' then
    match col.getD s none with
    | some (d, path) => some (d + branchDist (trellis f s b).1 r, b :: path)
    | none => none
  else none

/-- The candidates of a state, in the order of R133: states rising, input 0 before input 1. -/
def candidates (f : Family) (col : Column) (r : BitVec 2) (s' : Nat) : List Survivor :=
  (List.range (numStates f)).flatMap (fun s =>
    (candidate f col r s' s false).toList ++ (candidate f col r s' s true).toList)

/-- The next column (R133); `pick s'` is the choice on a tie at state `s'`. -/
def nextColumn (f : Family) (pick : Nat → Bool) (col : Column) (r : BitVec 2) : Column :=
  (List.range (numStates f)).map (fun s' => (candidates f col r s').foldl (better (pick s')) none)

/-- The column after all received symbols, the first of them at time `t` (R133). -/
def runColumns (f : Family) (pick : Nat → Nat → Bool) : Nat → Column → List (BitVec 2) → Column
  | _, col, [] => col
  | t, col, r :: rs => runColumns f pick (t + 1) (nextColumn f (pick t) col r) rs

/-- The end selection (R134): a state of least distance, with its survivor; on a tie `pick s` says whether state `s`
replaces the one kept. -/
def endSelection (pick : Nat → Bool) : Nat → Option (Nat × Survivor) → Column → Option (Nat × Survivor)
  | _, best, [] => best
  | s, best, none :: col => endSelection pick (s + 1) best col
  | s, none, some v :: col => endSelection pick (s + 1) (some (s, v)) col
  | s, some (s0, v0), some v :: col =>
    if v.1 < v0.1 ∨ (v.1 = v0.1 ∧ pick s) then endSelection pick (s + 1) (some (s, v)) col
    else endSelection pick (s + 1) (some (s0, v0)) col

/-- What a decode answers (R130): the decoded bits, the final state, the distance. -/
structure Decoded where
  bits : List Bool
  final : Nat
  dist : Nat
  deriving DecidableEq, Repr

/-- `fec_decode` before the acceptance test (R130, R133, R134), for start state `m` and encoded bits `enc`. `pick t s`
is the choice on a tie at time `t` and state `s` (R135). A start state of the trellis always has a path. -/
def fecDecode (f : Family) (pick : Nat → Nat → Bool) (m : Nat) (enc : List Bool) : Decoded :=
  let rs := recvSymbols enc
  match endSelection (pick rs.length) 0 none (runColumns f pick 0 (startColumn f m) rs) with
  | some (s, d, path) => { bits := path.reverse, final := s, dist := d }
  | none => { bits := [], final := m, dist := 0 }

/-- The distance is acceptable under `VITERBI_MAX_DIST` (R136). -/
def acceptable (limit : Option Nat) (d : Nat) : Bool :=
  match limit with
  | none => true
  | some k => decide (d ≤ k)

/-- The checks of the decoders in order (R138, R139). -/
def decChecks (f : Family) (sb db : BufId) (s : State) : List (Bool × ErrCode) :=
  [(decide (sb ≠ db), .illegal), (decide (s.a1 < numStates f), .illegal), (decide (s.a0 % 2 = 0), .malformed),
    (s.bitsInside sb s.a0, .capacity)]

/-- The decode a decoder command runs in a state, with the decoder's choices among ties (U2). -/
def decodeOf (f : Family) (sb : BufId) (s : State) : Decoded :=
  fecDecode f (Config.tiePick 0 f s.a1 (s.streamOf sb s.a0)) s.a1 (s.streamOf sb s.a0)

/-- A decoder command: `x[0]` encoded bits of `BUF[SB]` from state `x[1]` into `BUF[DB]` (R138, R139). -/
def decodeBuffer (f : Family) (sb db : BufId) (s : State) : State :=
  let res := decodeOf f sb s
  s.checked (decChecks f sb db s)
    (if acceptable s.params.viterbiMaxDist res.dist then
      ((((s.produce db (pack res.bits) (s.a0 / 2)).setXNat 4 (s.a0 / 2)).setXNat 5 res.final).setXNat 6
        res.dist).succeed
    else s.failInFlight .decode (some db))

/-- RSCDEC (R138). -/
def execRscdec (sb db : BufId) (s : State) : Host.Outcome State Fault Refusal :=
  .next (decodeBuffer .rsc sb db s)

/-- NRNSCDEC (R139). -/
def execNrnscdec (sb db : BufId) (s : State) : Host.Outcome State Fault Refusal :=
  .next (decodeBuffer .nrnsc sb db s)

end Sys2Proof.Machine
end

