-- ==== Sys2Proof/Machine/Whitening.lean ====
section
/-! DEFINITION. PN9 whitening and WHITEN (spec 41_pn9_whitening.md). -/

namespace Sys2Proof.Machine

/-- The feedback bit of the shift register: taps at bit 0 and bit 5 (R100). -/
def pn9Feedback (r : BitVec 9) : Bool := r.getLsbD 0 ^^ r.getLsbD 5

/-- One shift (R100): right by one, the feedback bit into bit 8. -/
def pn9Shift (r : BitVec 9) : BitVec 9 := r >>> 1 ||| (if pn9Feedback r then 0x100#9 else 0#9)

/-- The bit output at a shift, as `PN9_OUT` selects it (R100). -/
def pn9Output (out : Pn9Out) (r : BitVec 9) : Bool :=
  match out with
  | .feedback => pn9Feedback r
  | .bit0 => r.getLsbD 0

/-- The register after `n` shifts. -/
def pn9Shifts : Nat → BitVec 9 → BitVec 9
  | 0, r => r
  | n + 1, r => pn9Shifts n (pn9Shift r)

/-- `n` consecutive output bits from a register value. -/
def pn9Bits (out : Pn9Out) : Nat → BitVec 9 → List Bool
  | 0, _ => []
  | n + 1, r => pn9Output out r :: pn9Bits out n (pn9Shift r)

/-- `n` consecutive output bytes, each of 8 output bits, first bit lowest (R101). -/
def pn9Bytes (out : Pn9Out) : Nat → BitVec 9 → List Byte
  | 0, _ => []
  | n + 1, r => wordOfBits 8 (pn9Bits out 8 r) :: pn9Bytes out n (pn9Shifts 8 r)

/-- The seed of the generator (R100). -/
def pn9Seed : BitVec 9 := 0x1FF#9

/-- `PN9_TABLE`, 511 bytes (R101). -/
def pn9Table (out : Pn9Out) : List Byte := pn9Bytes out 511 pn9Seed

/-- `whiten` (R103): byte `i` is XORed with `PN9_TABLE[i % 511]`. -/
def whiten (out : Pn9Out) (bytes : List Byte) : List Byte :=
  bytes.mapIdx (fun i x => x ^^^ (pn9Table out).getD (i % 511) 0#8)

/-- WHITEN (R104); DEWHITEN is the same command (R75, R105). -/
def execWhiten (sb : BufId) (s : State) : Host.Outcome State Fault Refusal :=
  .next (s.checked [(s.bytesInside sb s.a0, .capacity)]
    (s.writeBytes sb 0 (whiten s.params.pn9Out (s.bytes sb s.a0))).succeed)

end Sys2Proof.Machine
end

