-- ==== Sys2Proof/Machine/Frame.lean ====
section
/-! DEFINITION. The frame codec and its state machine: FRMDEC and FRMENC (spec 47_frame_codec.md). -/

namespace Sys2Proof.Machine

/-! ### Decoding a frame -/

/-- A failure of the frame machine: the code, and the state it failed in (R192, R206). -/
structure FrameError where
  code : ErrCode
  src : FsmState
  deriving DecidableEq, Repr

/-- The family a coded SFD implies at decode, `SFD_FAMILY[k]` (R6, R196). The uncoded types imply none; the function
is not used on them. -/
def sfdFamily (P : Params) : SfdType → Family
  | .coded0 => P.famCoded0
  | .uncoded0 => P.famCoded0
  | .coded1 => P.famCoded1
  | .uncoded1 => P.famCoded1

/-- Step 1 (R194): the first synchronisation header of the stream. -/
def findShr (P : Params) (S : List Bool) : Except FrameError Shr :=
  match shrDetect P S 0 with
  | some h => .ok h
  | none => .error ⟨.notFound, .searching⟩

/-- A header that was recovered: the word `H`, the trellis state it ended in (coded frames), the bits after it. -/
structure Recovered where
  H : BitVec 16
  m1 : Nat
  rest : List Bool
  deriving DecidableEq, Repr

/-- De-interleaving and decoding a region of a coded frame (R196, R201). -/
def decodeRegion (P : Params) (f : Family) (pick : TieChoice) (m : Nat) (region : List Bool) : Decoded :=
  let enc := unpack (ilv P.ilvVariant (pack region)) region.length
  fecDecode f (pick f m enc) m enc

/-- Step 2 (R195, R196): the header, from the bits after the SFD. -/
def recoverHeader (P : Params) (pick : TieChoice) (k : SfdType) (bits : List Bool) :
    Except FrameError Recovered :=
  if sfdCoded k then
    if bits.length < 32 then .error ⟨.malformed, .sfdMatched⟩
    else
      let res := decodeRegion P (sfdFamily P k) pick 0 (bits.take 32)
      if acceptable P.viterbiMaxDist res.dist then
        .ok { H := wordOfBits 16 res.bits, m1 := res.final, rest := bits.drop 32 }
      else .error ⟨.decode, .sfdMatched⟩
  else
    if bits.length < 16 then .error ⟨.malformed, .sfdMatched⟩
    else .ok { H := wordOfBits 16 (bits.take 16), m1 := 0, rest := bits.drop 16 }

/-- Steps 5 and 6 (R198 to R201, R203): the `L` octets of the payload region, before de-whitening. -/
def recoverPayload (P : Params) (pick : TieChoice) (k : SfdType) (h : Recovered) :
    Except FrameError (List Byte) :=
  let L := (phrDecode h.H).L
  if (phrDecode h.H).fcs then .error ⟨.unsupported, .headerRecovered⟩
  else if sfdCoded k then
    let nb := 16 * (L + padOctets L)
    if h.rest.length < nb then .error ⟨.malformed, .headerRecovered⟩
    else
      let res := decodeRegion P (sfdFamily P k) pick h.m1 (h.rest.take nb)
      if acceptable P.viterbiMaxDist res.dist then .ok ((pack res.bits).take L)
      else .error ⟨.decode, .headerRecovered⟩
  else
    if h.rest.length < 8 * L then .error ⟨.malformed, .headerRecovered⟩
    else .ok (pack (h.rest.take (8 * L)))

/-- A frame that was decoded (R205): the synchronisation header, the header word, the payload, the state the machine
ended in. -/
structure FrameResult where
  shr : Shr
  H : BitVec 16
  payload : List Byte
  final : FsmState
  deriving DecidableEq, Repr

/-- The whitening of a payload, when the flag says so (R202, R210). -/
def whitenIf (P : Params) (dw : Bool) (bytes : List Byte) : List Byte :=
  if dw then whiten P.pn9Out bytes else bytes

/-- Step 9 (R204): the state the machine ends in. -/
def verifyPayload (skipv : Bool) (payload : List Byte) : Except FrameError FsmState :=
  if skipv then .ok .payloadRecovered
  else if fcs32IsGood payload then .ok .verified
  else .error ⟨.verify, .payloadRecovered⟩

/-- `decode_frame` (R193 to R204); `pick 1` and `pick 2` are the choices among ties of the header's and the payload's
decode (R135). -/
def decodeFrame (P : Params) (pick : Nat → TieChoice) (skipv : Bool) (S : List Bool) :
    Except FrameError FrameResult :=
  match findShr P S with
  | .error e => .error e
  | .ok shr =>
    match recoverHeader P (pick 1) shr.kind (S.drop shr.after) with
    | .error e => .error e
    | .ok h =>
      match recoverPayload P (pick 2) shr.kind h with
      | .error e => .error e
      | .ok raw =>
        let payload := whitenIf P (phrDecode h.H).dw raw
        match verifyPayload skipv payload with
        | .error e => .error e
        | .ok final => .ok { shr := shr, H := h.H, payload := payload, final := final }

/-- The frame FRMDEC decodes in a state. -/
def frameOf (sb : BufId) (skipv : Bool) (s : State) : Except FrameError FrameResult :=
  decodeFrame s.params Config.tiePick skipv (s.stream sb)

/-- The writes of a successful FRMDEC (R205). -/
def State.deliverFrame (s : State) (db : BufId) (r : FrameResult) : State :=
  let L := (phrDecode r.H).L
  ((((((s.produce db r.payload (8 * L)).setXNat 4 r.shr.plen).setX 5 r.shr.kind.code).setX 6
    (r.H.setWidth 32)).setXNat 7 L).setFsm (fsmAt r.final)).succeed

/-- FRMDEC (R193). -/
def execFrmdec (sb db : BufId) (skipv : Bool) (s : State) : Host.Outcome State Fault Refusal :=
  .next (s.checked [(decide (sb ≠ db), .illegal)]
    (match frameOf sb skipv s with
    | .ok r => s.deliverFrame db r
    | .error e => (s.setFsm (fsmFailed e.src)).failInFlight e.code (some db)))

/-! ### Building a frame -/

/-- The two bytes of a header word, low byte first (R183). -/
def headerBytes (H : BitVec 16) : List Byte := [H.extractLsb' 0 8, H.extractLsb' 8 8]

/-- The number of body bytes of a frame with `L` payload octets (R211). -/
def bodyLength (k : SfdType) (L : Nat) : Nat :=
  if sfdCoded k then 2 * (2 + L + padOctets L) else 2 + L

/-- The number of bits of a frame (R211). -/
def frameBits (k : SfdType) (plen L : Nat) : Nat := plen + 16 + 8 * bodyLength k L

/-- Steps 1 and 2 of FRMENC (R209, R210): the payload, whitened if asked. -/
def framePayload (P : Params) (dw : Bool) (data : List Byte) : List Byte :=
  whitenIf P dw (data ++ fcs32Trailer data)

/-- Header and payload as the encoder's input (R210, R212). -/
def frameCore (P : Params) (dw : Bool) (data : List Byte) : List Byte :=
  headerBytes (phrEncode (data.length + 4) false false dw) ++ framePayload P dw data

/-- Step 3 (R212): the body. -/
def frameBody (P : Params) (k : SfdType) (fam : Family) (dw : Bool) (data : List Byte) : List Byte :=
  let core := frameCore P dw data
  if sfdCoded k then
    let m := fecState fam 0 (streamBits core)
    let input := core ++ tailpad fam m (padOctets (data.length + 4))
    ilv P.ilvVariant (pack (fecBits fam 0 (streamBits input)))
  else core

/-- Step 4 (R213): the stream. -/
def encodeFrame (P : Params) (k : SfdType) (fam : Family) (dw : Bool) (plen : Nat) (data : List Byte) : List Bool :=
  (List.replicate (plen / 8) pre).flatten ++ sfdBits P k ++ streamBits (frameBody P k fam dw data)

/-- The checks of FRMENC in order (R207). -/
def frmencChecks (sb db : BufId) (sfd : SfdType) (fcst : Bool) (s : State) : List (Bool × ErrCode) :=
  [(decide (sb ≠ db), .illegal), (!fcst, .unsupported), (decide (s.a0 ≤ 2043), .illegal),
    (decide (s.a1 % 8 = 0 ∧ 8 ≤ s.a1), .malformed), (s.bytesInside sb s.a0, .capacity),
    (s.fits (frameBits sfd s.a1 (s.a0 + 4)), .capacity)]

/-- FRMENC (R207, R214). -/
def execFrmenc (sb db : BufId) (fam : Family) (dw : Bool) (sfd : SfdType) (fcst : Bool) (s : State) :
    Host.Outcome State Fault Refusal :=
  let total := frameBits sfd s.a1 (s.a0 + 4)
  .next (s.checked (frmencChecks sb db sfd fcst s)
    ((s.produce db (packOrd (s.bord db) (encodeFrame s.params sfd fam dw s.a1 (s.bytes sb s.a0))) total).setXNat 4
      total).succeed)

end Sys2Proof.Machine
end

