-- ==== Sys2Proof/Machine/Dispatch.lean ====
section
/-! DEFINITION. One arm per command (spec 30_encoding.md R70): each calls its meaning. -/

namespace Sys2Proof.Machine

def exec (i : Instr) (s : State) : Host.Outcome State Fault Refusal :=
  match i with
  | .rdbit sb => Sys2Proof.Machine.execRdbit sb s
  | .wrbit sb => Sys2Proof.Machine.execWrbit sb s
  | .rev w => Sys2Proof.Machine.execRev w s
  | .whiten sb => Sys2Proof.Machine.execWhiten sb s
  | .rscenc sb db => Sys2Proof.Machine.execRscenc sb db s
  | .nrnscenc sb db => Sys2Proof.Machine.execNrnscenc sb db s
  | .rscdec sb db => Sys2Proof.Machine.execRscdec sb db s
  | .nrnscdec sb db => Sys2Proof.Machine.execNrnscdec sb db s
  | .ilv sb => Sys2Proof.Machine.execIlv sb s
  | .fcs32 sb => Sys2Proof.Machine.execFcs32 sb s
  | .fcschk sb => Sys2Proof.Machine.execFcschk sb s
  | .fcsapp sb => Sys2Proof.Machine.execFcsapp sb s
  | .shrdet sb => Sys2Proof.Machine.execShrdet sb s
  | .phrenc => Sys2Proof.Machine.execPhrenc s
  | .phrdec => Sys2Proof.Machine.execPhrdec s
  | .frmdec sb db skipv => Sys2Proof.Machine.execFrmdec sb db skipv s
  | .frmenc sb db fam dw sfd fcst => Sys2Proof.Machine.execFrmenc sb db fam dw sfd fcst s

end Sys2Proof.Machine
end

