-- ==== Sys2Proof/Machine/HostBus.lean ====
section
/-! DEFINITION. The host's accesses to the address map (spec 20_memory.md R58, R59; 10_state.md R21, R23 to R30;
93_implementation_defined.md H1 to H3). -/

namespace Sys2Proof.Machine

/-- An item of the address map (R58). -/
inductive BusItem where
  | cmd
  | status
  | fsm
  | cap
  | x (i : Fin 8)
  | blen (b : BufId)
  | bord (b : BufId)
  | bbytes (b : BufId)
  | byte (b : BufId) (j : Nat)
  deriving DecidableEq, Repr

/-- The offset of the first byte of a buffer (R58). -/
def bufBase : BufId → Nat
  | .b0 => 0x10000000
  | .b1 => 0x20000000

/-- The 32-bit register at an offset (R58). -/
def regItem (off : Nat) : Option BusItem :=
  if off = 0x0000 then some .cmd
  else if off = 0x0004 then some .status
  else if off = 0x0008 then some .fsm
  else if off = 0x000C then some .cap
  else if h : 0x0010 ≤ off ∧ off < 0x0030 ∧ off % 4 = 0 then some (.x ⟨(off - 0x0010) / 4, by omega⟩)
  else if off = 0x0030 then some (.blen .b0)
  else if off = 0x0034 then some (.bord .b0)
  else if off = 0x0038 then some (.bbytes .b0)
  else if off = 0x0040 then some (.blen .b1)
  else if off = 0x0044 then some (.bord .b1)
  else if off = 0x0048 then some (.bbytes .b1)
  else none

/-- The buffer byte at an offset (R58). -/
def byteItem (P : Params) (off : Nat) : Option BusItem :=
  if bufBase .b0 ≤ off ∧ off < bufBase .b0 + P.capBytes then some (.byte .b0 (off - bufBase .b0))
  else if bufBase .b1 ≤ off ∧ off < bufBase .b1 + P.capBytes then some (.byte .b1 (off - bufBase .b1))
  else none

/-- The item an access of `n` bytes at an offset reaches, or why it is refused (R58, H1): registers are 32-bit and
4-byte aligned, buffer accesses are single bytes. -/
def busItem (P : Params) (off n : Nat) : Except Refusal BusItem :=
  match regItem off with
  | some item => if n = 4 then .ok item else .error (.badWidth off n)
  | none =>
    match byteItem P off with
    | some item => if n = 1 then .ok item else .error (.badWidth off n)
    | none => if off < 0x004C ∧ off % 4 ≠ 0 then .error (.misaligned off) else .error (.noSuchOffset off)

/-- The value a host read returns, extended with zeros (R21, R24, R27, R29, R30, R58). -/
def busRead (s : State) : BusItem → Word
  | .cmd => 0#32
  | .status => s.status
  | .fsm => s.fsm
  | .cap => BitVec.ofNat 32 s.params.capBytes
  | .x i => s.x i
  | .blen b => (s.buf b).len
  | .bord b => if s.bord b then 1#32 else 0#32
  | .bbytes b => BitVec.ofNat 32 (s.bbytes b)
  | .byte b j => (s.byteAt b j).setWidth 32

/-- A host write to an item other than `CMD` (R58): the read-only items ignore it (H2), a length above the capacity
completes with `ERR_CAPACITY` (R23, H3), only bit 0 of `BORD` is written. A write of `CMD` is no write of state: it
executes a command (R21). -/
def busWrite (s : State) (v : Word) : BusItem → State
  | .cmd => s
  | .status => s
  | .fsm => s
  | .cap => s
  | .x i => s.setX i v
  | .blen b => if v.toNat ≤ s.capBits then s.setLen b v.toNat else s.reject .capacity
  | .bord b => s.setOrd b (v.getLsbD 0)
  | .bbytes _ => s
  | .byte b j => s.writeBytes b j [v.setWidth 8]

/-- What a host access comes to. -/
inductive BusResult where
  /-- The access is complete. -/
  | done (s : State)
  /-- A word was written to `CMD`: a command runs (R21, R76). -/
  | command (w : Word) (s : State)
  /-- The access has no meaning in the spec (R58). -/
  | refuse (r : Refusal)

/-- A host access (R59). -/
def busAccess (a : HostAccess) (s : State) : BusResult :=
  match a with
  | .read off n =>
    match busItem s.params off n with
    | .ok item => .done { s with rdata := busRead s item }
    | .error r => .refuse r
  | .write off n v =>
    match busItem s.params off n with
    | .ok .cmd => .command v s
    | .ok item => .done (busWrite s v item)
    | .error r => .refuse r

/-- The host access that writes a word to `CMD` (R58). -/
def cmdWrite (w : Word) : HostAccess := .write 0x0000 4 w

end Sys2Proof.Machine
end

