-- ==== Sys2Proof/Machine/Step.lean ====
section
/-! DEFINITION. One step of the machine: the next host access, and the command it starts if it writes `CMD` (spec
00_scope.md R14, 30_encoding.md R76, 20_memory.md R59). -/

namespace Sys2Proof.Machine

/-- A word written to `CMD` (R76): the command it encodes runs to completion, or the word is rejected (R71). -/
def runCommand (w : Word) (s : State) : Host.Outcome State Fault Refusal :=
  match decode w with
  | .ok i => exec i s
  | .error _ => .next s.illegalWord

/-- One step: the first pending host access is performed; with none pending the host does nothing and the state stays
as it is (assumption log 2). -/
def step (s : State) : Host.Outcome State Fault Refusal :=
  match s.pending with
  | [] => .next s
  | a :: rest =>
    match busAccess a { s with pending := rest } with
    | .done t => .next t
    | .command w t => runCommand w t
    | .refuse r => .refused r

/-- The state whose next step runs the command word of an opcode-table row: the host's next access writes it to
`CMD`. -/
def State.withFetchWord (s : State) (nbits w : Nat) : State :=
  { s with pending := cmdWrite (tableWord nbits w) :: s.pending }

end Sys2Proof.Machine
end

