-- ==== Sys2Proof/Safety.lean ====
section
/-! DEFINITION. What the claims speak of: legal states of the machine, safe runs, and the ways one state can follow
another. Nothing here depends on how a command is carried out. -/

namespace Sys2Proof.Machine

/-- Every bit of `STATUS` outside `mask` is as before. -/
def SameBitsOutside (mask a b : Word) : Prop := b &&& ~~~mask = a &&& ~~~mask

/-- `STATUS` after a success (R27, R76): `ERR` is 0 and every other bit is as before. -/
structure StatusOk (s t : State) : Prop where
  err : errField t.status = 0#32
  others : SameBitsOutside 0xF#32 s.status t.status

/-- `STATUS` after an error (R27, R224, R226): `ERR` is the code, `STICKY` is 1, every other bit is as before. -/
structure StatusError (e : ErrCode) (s t : State) : Prop where
  err : errField t.status = e.code
  sticky : stickyBit t.status = true
  others : SameBitsOutside 0x10F#32 s.status t.status

/-- Buffer `b` reads as before: every byte, its length and its tag. -/
structure SameBuffer (b : BufId) (s t : State) : Prop where
  bytes : ∀ j, t.byteAt b j = s.byteAt b j
  len : t.blen b = s.blen b
  ord : t.bord b = s.bord b

/-- Every register outside the list is as before. -/
def SameRegsBut (written : List (Fin 8)) (s t : State) : Prop := ∀ i, i ∉ written → t.x i = s.x i

/-- What no command touches: the parameters, the host's accesses to come, the data of its last read. -/
structure SameHostSide (s t : State) : Prop where
  params : t.params = s.params
  pending : t.pending = s.pending
  rdata : t.rdata = s.rdata

/-- A rejection with code `e` (R57, R71, R224): only `STATUS` changes. -/
structure Rejected (e : ErrCode) (s t : State) : Prop where
  err : errField t.status = e.code
  sticky : stickyBit t.status = true
  others : SameBitsOutside 0x10F#32 s.status t.status
  regs : ∀ i, t.x i = s.x i
  fsm : t.fsm = s.fsm
  bufs : ∀ b, t.buf b = s.buf b
  params : t.params = s.params
  pending : t.pending = s.pending
  rdata : t.rdata = s.rdata
  draws : t.draws = s.draws

/-- A failure in flight with code `e` (R57, R224) of a command with destination `db`: the arguments, the other buffers
and every tag are as before; the destination's length is within the capacity; nothing is said of `x[4..7]`, of the
destination's bytes, or of `FSM`. -/
structure FailedInFlight (e : ErrCode) (db : Option BufId) (s t : State) : Prop where
  status : StatusError e s t
  args : ∀ i : Fin 8, i.val < 4 → t.x i = s.x i
  others : ∀ b, db ≠ some b → SameBuffer b s t
  ord : ∀ b, t.bord b = s.bord b
  len : ∀ b, db = some b → t.blen b ≤ s.capBits
  host : SameHostSide s t

/-- The words `FSM` may hold (R29): `STATE` 0 to 6; `FROM` 0 to 4 when `STATE` is `Failed`, else 0; the rest 0. -/
def LegalFsm (fsm : Word) : Prop :=
  fsm &&& ~~~0x3F#32 = 0#32 ∧ fsmStateField fsm ≤ 6#32 ∧
    (fsmStateField fsm = 6#32 → fsmFromField fsm ≤ 4#32) ∧
    (fsmStateField fsm ≠ 6#32 → fsmFromField fsm = 0#32)

/-- The states the machine can be in: memories in canonical form and within the capacity, bit lengths within the
capacity (R23, R47), reserved bits of `STATUS` and codes 8 to 15 never present and `STICKY` set while `ERR` is not 0
(R27, R221), a legal `FSM` (R29), and no filling newer than the draws. -/
structure State.Inv (s : State) : Prop where
  memWf : ∀ b, (s.buf b).mem.wf
  memInside : ∀ b, ∀ p ∈ (s.buf b).mem.cells, p.1 < s.params.capBytes
  lenInside : ∀ b, s.blen b ≤ s.capBits
  status : s.status &&& ~~~0x107#32 = 0#32
  sticky : errField s.status ≠ 0#32 → stickyBit s.status = true
  fsm : LegalFsm s.fsm
  fills : ∀ b, (s.buf b).mem.fill ≤ s.draws

/-- A success that writes no registers but those listed (R18, R76): `FSM` and what no command touches are as before. -/
structure OkFrame (written : List (Fin 8)) (s t : State) : Prop where
  status : StatusOk s t
  regs : SameRegsBut written s t
  fsm : t.fsm = s.fsm
  host : SameHostSide s t

/-- Buffer `db` was produced with the given bits, read by `view` (R26, R56): its length, its bits, zeros in the unused
bits of the last byte, every byte above and the tag as before. -/
structure Produced (view : State → BufId → Nat → Bool) (db : BufId) (bits : List Bool) (s t : State) : Prop where
  len : t.blen db = bits.length
  reads : ∀ i, i < bits.length → view t db i = bits.getD i false
  unused : ∀ i, bits.length ≤ i → i < 8 * ceil8 bits.length → view t db i = false
  above : ∀ j, ceil8 bits.length ≤ j → t.byteAt db j = s.byteAt db j
  ord : t.bord db = s.bord db

/-- Command `i` is rejected with code `e` in state `s` (R57, R224). -/
def Rejects (i : Instr) (s : State) (e : ErrCode) : Prop := ∃ t, exec i s = .next t ∧ Rejected e s t

/-- A run in which no command failed ends in such a state (R27, R226). -/
def State.noCommandFailed (s : State) : Prop := stickyBit s.status = false

/-- The bit of buffer `b` at index `i` under its tag, in the words of R48. -/
def State.taggedBit (s : State) (b : BufId) (i : Nat) : Bool :=
  if s.bord b then (s.byteAt b (i / 8)).getLsbD (7 - i % 8) else (s.byteAt b (i / 8)).getLsbD (i % 8)

/-- Bit `i` of buffer `b`'s bytes in stream order, in the words of R9, whatever the tag. -/
def State.streamBit (s : State) (b : BufId) (i : Nat) : Bool := (s.byteAt b (i / 8)).getLsbD (i % 8)

/-- Symbol position `i` of block `B` of buffer `b`, in the words of R146. -/
def State.blockSymbol (s : State) (b : BufId) (B i : Nat) : BitVec 2 :=
  ((s.byteAt b (4 * B + i / 4)) >>> (6 - 2 * (i % 4))).setWidth 2

/-! ### Frames in an arbitrary stream, in the words of R190 to R206 -/

/-- A coded SfdType (R171). -/
abbrev IsCoded (k : SfdType) : Prop := k = .coded0 ∨ k = .coded1

/-- `SFD_FAMILY[k]` of a coded SfdType (R196). -/
def codedFamily (P : Params) (k : SfdType) : Family := if k = .coded0 then P.famCoded0 else P.famCoded1

/-- The bits `[a, a + n)` of a stream, de-interleaved (R196, R201). -/
def deinterleaved (P : Params) (S : List Bool) (a n : Nat) : List Bool :=
  unpack (ilv P.ilvVariant (pack ((S.drop a).take n))) n

/-- `c` is a sequence of least distance from the received bits, and that distance is accepted (R130, R136). -/
structure LeastDistance (P : Params) (f : Family) (m : Nat) (enc c : List Bool) : Prop where
  length : 2 * c.length = enc.length
  least : ∀ c', c'.length = c.length → hamming (fecBits f m c) enc ≤ hamming (fecBits f m c') enc
  accepted : ∀ k, P.viterbiMaxDist = some k → hamming (fecBits f m c) enc ≤ k

/-- Every sequence is farther from the received bits than the limit (R136). -/
def TooFar (P : Params) (f : Family) (m : Nat) (enc : List Bool) : Prop :=
  ∃ k, P.viterbiMaxDist = some k ∧ ∀ c : List Bool, 2 * c.length = enc.length → k < hamming (fecBits f m c) enc

/-- The index of the first bit after the header (R195, R196). -/
def headerEnd (h : Shr) : Nat := h.after + if IsCoded h.kind then 32 else 16

/-- The bits of the payload region: tail and pad octets count for a coded type (R119, R198). -/
def payloadBits (k : SfdType) (L : Nat) : Nat :=
  if IsCoded k then 16 * (L + (1 + if (2 + L) % 2 = 0 then 1 else 0)) else 8 * L

/-- `H` is the header after the synchronisation header `h`, and `m1` the state its decode ends in: the next 16 bits, or a
least-distance decode from state 0 of the next 32 bits de-interleaved (R195, R196). -/
def HeaderIs (P : Params) (S : List Bool) (h : Shr) (H : BitVec 16) (m1 : Nat) : Prop :=
  headerEnd h ≤ S.length ∧
    if IsCoded h.kind then
      ∃ c, LeastDistance P (codedFamily P h.kind) 0 (deinterleaved P S h.after 32) c ∧
        (∀ i, i < 16 → H.getLsbD i = c.getD i false) ∧ m1 = fecState (codedFamily P h.kind) 0 c
    else (∀ i, i < 16 → S[h.after + i]? = some (H.getLsbD i)) ∧ m1 = 0

/-- The payload after a header: its `L` octets are the next `8 * L` bits, or begin a least-distance decode of the next blocks
de-interleaved, from the header's end state; and they are de-whitened when bit 4 of the header is set (R200 to R203). -/
def PayloadIs (P : Params) (S : List Bool) (h : Shr) (H : BitVec 16) (m1 : Nat) (payload : List Byte) : Prop :=
  let L := (phrDecode H).L
  let n := payloadBits h.kind L
  headerEnd h + n ≤ S.length ∧
    ∃ (bits : List Bool) (octets : List Byte), octets.length = L ∧
      (∀ j i, j < L → i < 8 → (octets.getD j 0#8).getLsbD i = bits.getD (8 * j + i) false) ∧
      (if IsCoded h.kind then
        LeastDistance P (codedFamily P h.kind) m1 (deinterleaved P S (headerEnd h) n) bits
      else bits = (S.drop (headerEnd h)).take n) ∧
      payload = if H.getLsbD 4 then whiten P.pn9Out octets else octets

/-- The failures of the frame machine on a stream, each with its condition (R194 to R206). -/
inductive FrameFails (P : Params) (skipv : Bool) (S : List Bool) : FrameError → Prop where
  /-- No synchronisation header in the stream (R194). -/
  | noHeader (none : shrDetect P S 0 = none) : FrameFails P skipv S ⟨.notFound, .searching⟩
  /-- The stream ends inside the header (R195, R196). -/
  | headerShort (h : Shr) (found : shrDetect P S 0 = some h) (short : S.length < headerEnd h) :
    FrameFails P skipv S ⟨.malformed, .sfdMatched⟩
  /-- The header's decode is not acceptable (R196). -/
  | headerFar (h : Shr) (found : shrDetect P S 0 = some h) (coded : IsCoded h.kind) (room : headerEnd h ≤ S.length)
    (far : TooFar P (codedFamily P h.kind) 0 (deinterleaved P S h.after 32)) : FrameFails P skipv S ⟨.decode, .sfdMatched⟩
  /-- FCS type 1 (R199). -/
  | fcsType (h : Shr) (H : BitVec 16) (m1 : Nat) (found : shrDetect P S 0 = some h) (header : HeaderIs P S h H m1)
    (fcs : H.getLsbD 3 = true) : FrameFails P skipv S ⟨.unsupported, .headerRecovered⟩
  /-- The stream ends inside the payload (R200, R201). -/
  | payloadShort (h : Shr) (H : BitVec 16) (m1 : Nat) (found : shrDetect P S 0 = some h) (header : HeaderIs P S h H m1)
    (fcs : H.getLsbD 3 = false) (short : S.length < headerEnd h + payloadBits h.kind (phrDecode H).L) :
    FrameFails P skipv S ⟨.malformed, .headerRecovered⟩
  /-- The payload's decode is not acceptable (R201). -/
  | payloadFar (h : Shr) (H : BitVec 16) (m1 : Nat) (found : shrDetect P S 0 = some h) (header : HeaderIs P S h H m1)
    (fcs : H.getLsbD 3 = false) (coded : IsCoded h.kind)
    (room : headerEnd h + payloadBits h.kind (phrDecode H).L ≤ S.length)
    (far : TooFar P (codedFamily P h.kind) m1
      (deinterleaved P S (headerEnd h) (payloadBits h.kind (phrDecode H).L))) :
    FrameFails P skipv S ⟨.decode, .headerRecovered⟩
  /-- Verification is asked for and the payload is not good (R204). -/
  | notGood (h : Shr) (H : BitVec 16) (m1 : Nat) (payload : List Byte) (found : shrDetect P S 0 = some h)
    (header : HeaderIs P S h H m1) (fcs : H.getLsbD 3 = false) (payloadIs : PayloadIs P S h H m1 payload)
    (verify : skipv = false) (bad : fcs32IsGood payload = false) : FrameFails P skipv S ⟨.verify, .payloadRecovered⟩

/-- A frame the frame machine can deliver from a stream (R194 to R205). -/
structure FrameDelivered (P : Params) (skipv : Bool) (S : List Bool) (r : FrameResult) : Prop where
  found : shrDetect P S 0 = some r.shr
  contents : ∃ m1, HeaderIs P S r.shr r.H m1 ∧ PayloadIs P S r.shr r.H m1 r.payload
  fcs : r.H.getLsbD 3 = false
  final : r.final = if skipv then .payloadRecovered else .verified
  good : skipv = false → fcs32IsGood r.payload = true

end Sys2Proof.Machine
end

