-- ==== Sys2Proof/Certificates/Slice0/Obligations.lean ====
section
/-! DEFINITION. The statements about this machine, for the provers. Rule numbers are those of spec/. The premise
`s.Inv` rules out states no run reaches; that every step keeps it is `StepKeepsInvariant`, and that reset meets it is
`ResetMeetsInvariant`. -/

open Sys2Proof Sys2Proof.Machine

/-! ### Encoding -/

/-- R70, R71: decoding inverts encoding on every command, and a word that decodes to a command is that command's
word. -/
def Obligations.DecodeInvertsEncode : Prop :=
  (∀ i : Instr, i.wellFormed = true → decode (encode i) = .ok i) ∧
    (∀ (w : Word) (i : Instr), decode w = .ok i → encode i = w)

/-- R74, R70: words the spec prints decode to the commands it prints beside them. -/
def Obligations.PrintedWordsDecode : Prop :=
  decode 0x0000C261#32 = .ok (.frmenc .b0 .b1 .nrnsc true .uncoded0 false) ∧
    decode 0x00000403#32 = .ok (.rev .w16) ∧ decode 0x00000101#32 = .ok (.rdbit .b1) ∧
    decode 0x00000222#32 = .ok (.rscdec .b0 .b1) ∧ decode 0x00002160#32 = .ok (.frmdec .b1 .b0 true) ∧
    decode 0x00014261#32 = .ok (.frmenc .b0 .b1 .nrnsc true .coded1 false) ∧
    decode 0x00005261#32 = .ok (.frmenc .b0 .b1 .rsc true .coded0 false) ∧
    decode 0x00000042#32 = .ok (.fcsapp .b0) ∧ decode 0x00000130#32 = .ok (.ilv .b1)

/-- R71: a word that matches no row of R70, and the word of REV with `W = 3`, is rejected with `ERR_ILLEGAL`, and
nothing but `STATUS` changes. The rows stand here as the (mask, match) pairs of R70. -/
def Obligations.IllegalWordsAreRejected : Prop :=
  ∀ (s : State) (w : Word) (rest : List HostAccess), s.pending = .write 0x0000 4 w :: rest →
    (w = 0x00000C03#32 ∨
      ∀ p ∈ [(0xFFFFFEFF#32, 0x01#32), (0xFFFFFEFF#32, 0x02#32), (0xFFFFF3FF#32, 0x03#32),
          (0xFFFFFEFF#32, 0x10#32), (0xFFFFFCFF#32, 0x20#32), (0xFFFFFCFF#32, 0x21#32), (0xFFFFFCFF#32, 0x22#32),
          (0xFFFFFCFF#32, 0x23#32), (0xFFFFFEFF#32, 0x30#32), (0xFFFFFEFF#32, 0x40#32), (0xFFFFFEFF#32, 0x41#32),
          (0xFFFFFEFF#32, 0x42#32), (0xFFFFFEFF#32, 0x50#32), (0xFFFFFFFF#32, 0x51#32), (0xFFFFFFFF#32, 0x52#32),
          (0xFFFFDCFF#32, 0x60#32), (0xFFFC2CFF#32, 0x61#32)], w &&& p.1 ≠ p.2) →
    ∃ t, step s = .next t ∧ Rejected .illegal { s with pending := rest } t

/-! ### The step, the host, reset -/

/-- R21, R76: when the next host access writes a word to `CMD`, the step is the command the word decodes to, run in the
state in which that access is done. The list of accesses to come is the model's own (assumption log 2). -/
def Obligations.StepRunsTheDecodedCommand : Prop :=
  ∀ (s : State) (w : Word) (i : Instr) (rest : List HostAccess), s.pending = .write 0x0000 4 w :: rest →
    decode w = .ok i → step s = exec i { s with pending := rest }

/-- R76: every command completes in every state. -/
def Obligations.EveryCommandCompletes : Prop :=
  ∀ (i : Instr) (s : State), ∃ t, exec i s = .next t

/-- R58: a host access is refused exactly when its offset, width and alignment name no item of the address map. The refusal
is the model's (assumption log 9). -/
def Obligations.OnlyUnmappedAccessesAreRefused : Prop :=
  ∀ (s : State) (a : HostAccess) (rest : List HostAccess) (off n : Nat), s.pending = a :: rest →
    (a = .read off n ∨ ∃ v, a = .write off n v) →
    ((∃ r, step s = .refused r) ↔
      ¬(n = 4 ∧ off ∈ [0x00, 0x04, 0x08, 0x0C, 0x10, 0x14, 0x18, 0x1C, 0x20, 0x24, 0x28, 0x2C, 0x30, 0x34, 0x38,
          0x40, 0x44, 0x48]) ∧
        ¬(n = 1 ∧ (0x10000000 ≤ off ∧ off < 0x10000000 + s.params.capBytes ∨
          0x20000000 ≤ off ∧ off < 0x20000000 + s.params.capBytes)))

/-- R58, R60, R25: a register the host writes reads back, and nothing else of the machine changes. Of a word written to
`BORD[b]` only bit 0 counts, and the read returns 0 or 1. -/
def Obligations.HostRegisterWriteReadsBack : Prop :=
  (∀ (s : State) (i : Fin 8) (v : Word) (rest : List HostAccess),
    s.pending = .write (0x10 + 4 * i.val) 4 v :: .read (0x10 + 4 * i.val) 4 :: rest →
    ∃ t u, step s = .next t ∧ step t = .next u ∧ u.rdata = v ∧ u.x i = v ∧ (∀ j, j ≠ i → u.x j = s.x j) ∧
      (∀ b, u.buf b = s.buf b) ∧ u.status = s.status ∧ u.fsm = s.fsm ∧ u.params = s.params ∧ u.pending = rest ∧
      u.draws = s.draws) ∧
  (∀ (s : State) (b : BufId) (v : Word) (rest : List HostAccess),
    s.pending = .write (0x34 + 0x10 * bufIndex b) 4 v :: .read (0x34 + 0x10 * bufIndex b) 4 :: rest →
    ∃ t u, step s = .next t ∧ step t = .next u ∧ u.rdata = (if v.getLsbD 0 then 1#32 else 0#32) ∧
      u.bord b = v.getLsbD 0 ∧ u.blen b = s.blen b ∧ (∀ j, u.byteAt b j = s.byteAt b j) ∧
      (∀ c, c ≠ b → u.buf c = s.buf c) ∧ (∀ j, u.x j = s.x j) ∧ u.status = s.status ∧ u.fsm = s.fsm ∧
      u.params = s.params ∧ u.pending = rest ∧ u.draws = s.draws)

/-- R58, R60: a buffer byte the host writes reads back, and every other byte is as before. -/
def Obligations.HostByteWriteReadsBack : Prop :=
  ∀ (s : State) (b : BufId) (j : Nat) (v : Word) (rest : List HostAccess), s.Inv → j < s.params.capBytes →
    s.pending = .write (0x10000000 * (bufIndex b + 1) + j) 1 v ::
      .read (0x10000000 * (bufIndex b + 1) + j) 1 :: rest →
    ∃ t u, step s = .next t ∧ step t = .next u ∧ u.rdata = (v.setWidth 8).setWidth 32 ∧
      u.byteAt b j = v.setWidth 8 ∧ (∀ c k, (c, k) ≠ (b, j) → u.byteAt c k = s.byteAt c k) ∧
      (∀ c, u.blen c = s.blen c ∧ u.bord c = s.bord c) ∧ (∀ k, u.x k = s.x k) ∧ u.status = s.status ∧
      u.fsm = s.fsm ∧ u.params = s.params ∧ u.pending = rest ∧ u.draws = s.draws

/-- R23: a length within the capacity is taken, no data byte and no status bit changes; a larger one leaves `BLEN[b]` and
everything else but `STATUS` as it was, with `ERR_CAPACITY`. That the accepted write leaves `STATUS` unchanged is the model's
reading (assumption log 11). -/
def Obligations.HostLengthWriteIsChecked : Prop :=
  ∀ (s : State) (b : BufId) (v : Word) (rest : List HostAccess),
    s.pending = .write (0x30 + 0x10 * bufIndex b) 4 v :: rest →
    (v.toNat ≤ 8 * s.params.capBytes → ∃ t, step s = .next t ∧ t.blen b = v.toNat ∧
      (∀ c, c ≠ b → t.blen c = s.blen c) ∧ (∀ c j, t.byteAt c j = s.byteAt c j) ∧ (∀ c, t.bord c = s.bord c) ∧
      (∀ i, t.x i = s.x i) ∧ t.status = s.status ∧ t.fsm = s.fsm ∧ t.params = s.params ∧ t.pending = rest ∧
      t.rdata = s.rdata ∧ t.draws = s.draws) ∧
    (8 * s.params.capBytes < v.toNat → ∃ t, step s = .next t ∧ Rejected .capacity { s with pending := rest } t)

/-- R27, R29, R30, R24: host writes to `STATUS`, `FSM`, `CAP` and `BBYTES[b]` are ignored. -/
def Obligations.ReadOnlyRegistersIgnoreWrites : Prop :=
  ∀ (s : State) (off : Nat) (v : Word) (rest : List HostAccess), off ∈ [0x04, 0x08, 0x0C, 0x38, 0x48] →
    s.pending = .write off 4 v :: rest → step s = .next { s with pending := rest }

/-- R54, R58: a host read changes nothing but the data it returns (the field for it is the model's own, assumption log 3), and
returns what the register or byte holds: `CMD` reads 0, `CAP` the capacity, `BBYTES[b]` `ceil8(BLEN[b])`, `BORD[b]` 0 or 1. -/
def Obligations.HostReadsHaveNoSideEffect : Prop :=
  ∀ (s : State) (off n : Nat) (rest : List HostAccess), s.pending = .read off n :: rest →
    (∀ t, step s = .next t → t = { s with pending := rest, rdata := t.rdata }) ∧
    (off = 0x00 → n = 4 → ∃ t, step s = .next t ∧ t.rdata = 0#32) ∧
    (off = 0x04 → n = 4 → ∃ t, step s = .next t ∧ t.rdata = s.status) ∧
    (off = 0x08 → n = 4 → ∃ t, step s = .next t ∧ t.rdata = s.fsm) ∧
    (off = 0x0C → n = 4 → ∃ t, step s = .next t ∧ t.rdata.toNat = s.params.capBytes) ∧
    (∀ i : Fin 8, off = 0x10 + 4 * i.val → n = 4 → ∃ t, step s = .next t ∧ t.rdata = s.x i) ∧
    (∀ b, off = 0x30 + 0x10 * bufIndex b → n = 4 → ∃ t, step s = .next t ∧ t.rdata.toNat = s.blen b) ∧
    (∀ b, off = 0x34 + 0x10 * bufIndex b → n = 4 →
      ∃ t, step s = .next t ∧ t.rdata = if s.bord b then 1#32 else 0#32) ∧
    (∀ b, off = 0x38 + 0x10 * bufIndex b → n = 4 → ∃ t, step s = .next t ∧ t.rdata.toNat = (s.blen b + 7) / 8) ∧
    (∀ b j, j < s.params.capBytes → off = 0x10000000 * (bufIndex b + 1) + j → n = 1 →
      ∃ t, step s = .next t ∧ t.rdata = (s.byteAt b j).setWidth 32)

/-- R35: the reset values the spec gives: registers, `STATUS`, `FSM`, lengths and tags are 0. The model's own fields are not
spoken of. -/
def Obligations.ResetValuesAreZero : Prop :=
  (∀ i, State.reset.x i = 0#32) ∧ State.reset.status = 0#32 ∧ State.reset.fsm = 0#32 ∧
    (∀ b, State.reset.blen b = 0) ∧ (∀ b, State.reset.bord b = false)

/-- R23, R27, R29 and the canonical form of memory hold at reset. -/
def Obligations.ResetMeetsInvariant : Prop := State.reset.Inv

/-- R23 (bit length within the capacity), R27 (reserved bits 0, `STICKY` while `ERR` is not 0), R221 (codes 8 to 15 never
produced), R29 (legal `FSM`), and the memories' canonical form: every step keeps them. The canonical form and the numbers
of fillings and draws are the model's own (assumption logs 4 and 5). -/
def Obligations.StepKeepsInvariant : Prop :=
  ∀ s t : State, s.Inv → step s = .next t → t.Inv

/-- R27, R226: no step clears `STICKY`, and a step that ends with another `ERR` than it began with, not `OK`, sets it. -/
def Obligations.StickyIsNeverCleared : Prop :=
  ∀ s t : State, step s = .next t →
    (stickyBit s.status = true → stickyBit t.status = true) ∧
    (errField t.status ≠ 0#32 → errField t.status ≠ errField s.status → stickyBit t.status = true)

/-! ### Whole-machine rules about commands -/

/-- R17, R25, R55, R56: a command, however it ends, changes no argument register `x[0..3]`, no order tag, and no buffer but
the one its rule lets it write. That a failed SHRDET changes no buffer is the model's reading (assumption log 7). -/
def Obligations.CommandsWriteOnlyTheirDestination : Prop :=
  ∀ (i : Instr) (s t : State), exec i s = .next t →
    (∀ j : Fin 8, j.val < 4 → t.x j = s.x j) ∧ (∀ b, t.bord b = s.bord b) ∧ SameHostSide s t ∧
    (match i with
      | .rdbit _ | .rev _ | .fcs32 _ | .fcschk _ | .shrdet _ | .phrenc | .phrdec => ∀ b, t.buf b = s.buf b
      | .wrbit sb | .whiten sb | .ilv sb | .fcsapp sb => ∀ b, b ≠ sb → t.buf b = s.buf b
      | .rscenc _ db | .nrnscenc _ db | .rscdec _ db | .nrnscdec _ db | .frmdec _ db _ | .frmenc _ db _ _ _ _ =>
        ∀ b, b ≠ db → t.buf b = s.buf b)

/-- R29: only SHRDET and FRMDEC write `FSM`; SHRDET leaves `SfdMatched` or `Failed` from `Searching`, FRMDEC leaves
`Verified`, `PayloadRecovered` or `Failed`, unless the command was rejected. -/
def Obligations.OnlyFrameCommandsWriteFsm : Prop :=
  ∀ (i : Instr) (s t : State), exec i s = .next t →
    (match i with
      | .shrdet sb => (s.blen sb < (s.x 0).toNat → t.fsm = s.fsm) ∧
        ((s.x 0).toNat ≤ s.blen sb → t.fsm = 0x02#32 ∨ t.fsm = 0x06#32)
      | .frmdec sb db skipv => (sb = db → t.fsm = s.fsm) ∧
        (sb ≠ db → (t.fsm = 0x05#32 ∧ skipv = false) ∨ (t.fsm = 0x04#32 ∧ skipv = true) ∨
          (t.fsm ∈ [0x06#32, 0x16#32, 0x1E#32]) ∨ (t.fsm = 0x26#32 ∧ skipv = false))
      | _ => t.fsm = s.fsm)

/-- R17, R28, R225: how a command ends is a function of `x[0]`, `x[1]`, the buffers and the parameters: it reads neither
`STATUS` nor `FSM` nor `x[2..7]`, so that its error code, its write of `FSM` and, when it succeeds, its results are the same
whatever came before. The results of a failure are unspecified, and those of two failures are not compared.
That two equal decodes break ties alike is the model's reading (assumption log 6). -/
def Obligations.CommandsReadOnlyOperandsAndBuffers : Prop :=
  ∀ (i : Instr) (s s' : State), s'.x 0 = s.x 0 → s'.x 1 = s.x 1 → (∀ b, s'.buf b = s.buf b) →
    s'.params = s.params →
    ∃ t t', exec i s = .next t ∧ exec i s' = .next t' ∧ errField t'.status = errField t.status ∧
      (errField t.status = 0#32 → (∀ b, t'.buf b = t.buf b) ∧
        (∀ j, t'.x j = t.x j ∨ (t.x j = s.x j ∧ t'.x j = s'.x j))) ∧
      (t'.fsm = t.fsm ∨ (t.fsm = s.fsm ∧ t'.fsm = s'.fsm)) ∧
      stickyBit t.status = (stickyBit s.status || decide (errField t.status ≠ 0#32)) ∧
      stickyBit t'.status = (stickyBit s'.status || decide (errField t.status ≠ 0#32))

/-- R222: the error codes each command can end with. -/
def Obligations.CommandsEndWithTheirErrorsOnly : Prop :=
  ∀ (i : Instr) (s t : State), exec i s = .next t →
    errField t.status ∈
      (match i with
        | .rdbit _ | .whiten _ | .fcs32 _ | .fcschk _ | .fcsapp _ => [0#32, 3#32]
        | .wrbit _ => [0#32, 3#32, 7#32]
        | .rev _ | .phrdec => [0#32, 7#32]
        | .rscenc _ _ | .nrnscenc _ _ => [0#32, 3#32, 7#32]
        | .rscdec _ _ | .nrnscdec _ _ => [0#32, 1#32, 3#32, 6#32, 7#32]
        | .ilv _ => [0#32, 1#32, 3#32]
        | .shrdet _ => [0#32, 2#32, 3#32]
        | .phrenc => [0#32, 5#32, 7#32]
        | .frmdec _ _ _ => [0#32, 1#32, 2#32, 4#32, 5#32, 6#32, 7#32]
        | .frmenc _ _ _ _ _ _ => [0#32, 1#32, 3#32, 5#32, 7#32])

/-! ### Bit buffer and bit reversal -/

/-- R86 with R48: RDBIT. -/
def Obligations.RdbitReadsTheTaggedBit : Prop :=
  ∀ (sb : BufId) (s : State),
    decode (BitVec.ofNat 32 (0x01 + 0x100 * bufIndex sb)) = .ok (.rdbit sb) ∧
    (s.blen sb ≤ (s.x 0).toNat → Rejects (.rdbit sb) s .capacity) ∧
    ((s.x 0).toNat < s.blen sb → ∃ t, exec (.rdbit sb) s = .next t ∧
      t.x 4 = (if s.taggedBit sb (s.x 0).toNat then 1#32 else 0#32) ∧ OkFrame [4] s t ∧ ∀ b, SameBuffer b s t)

/-- R87 with R49: WRBIT sets the one bit that `rd_bit` reads and changes no other bit. -/
def Obligations.WrbitWritesOneBit : Prop :=
  ∀ (sb : BufId) (s : State), s.Inv →
    decode (BitVec.ofNat 32 (0x02 + 0x100 * bufIndex sb)) = .ok (.wrbit sb) ∧
    (1 < (s.x 1).toNat → Rejects (.wrbit sb) s .illegal) ∧
    ((s.x 1).toNat ≤ 1 → s.blen sb ≤ (s.x 0).toNat → Rejects (.wrbit sb) s .capacity) ∧
    ((s.x 1).toNat ≤ 1 → (s.x 0).toNat < s.blen sb → ∃ t, exec (.wrbit sb) s = .next t ∧
      t.taggedBit sb (s.x 0).toNat = decide ((s.x 1).toNat = 1) ∧
      (∀ i, i ≠ (s.x 0).toNat → t.taggedBit sb i = s.taggedBit sb i) ∧
      (∀ j, j ≠ (s.x 0).toNat / 8 → t.byteAt sb j = s.byteAt sb j) ∧ t.blen sb = s.blen sb ∧
      t.bord sb = s.bord sb ∧ (∀ b, b ≠ sb → SameBuffer b s t) ∧ OkFrame [] s t)

/-- R89 with R88: REV reverses the low 8, 16 or 32 bits; `W = 3` is rejected. -/
def Obligations.RevReversesTheLowBits : Prop :=
  ∀ s : State,
    (∀ p ∈ [(RevWidth.w8, 0), (.w16, 1), (.w32, 2), (.reserved, 3)],
      decode (BitVec.ofNat 32 (0x03 + 0x400 * p.2)) = .ok (.rev p.1)) ∧
    Rejects (.rev .reserved) s .illegal ∧
    (∀ p ∈ [(RevWidth.w8, 8), (.w16, 16), (.w32, 32)], ∃ t, exec (.rev p.1) s = .next t ∧
      (∀ k, (t.x 4).getLsbD k = (decide (k < p.2) && (s.x 0).getLsbD (p.2 - 1 - k))) ∧ OkFrame [4] s t ∧
      ∀ b, SameBuffer b s t)

/-- R88: `reverse_bits` maps bit `width - 1 - i` to bit `i`, and is an involution. -/
def Obligations.ReverseBitsIsAnInvolution : Prop :=
  ∀ (n : Nat) (w : Word), n ∈ [8, 16, 32] → w.toNat < 2 ^ n →
    (∀ i, i < n → (reverseBits n w).getLsbD i = w.getLsbD (n - 1 - i)) ∧ reverseBits n (reverseBits n w) = w

/-! ### Whitening -/

/-- R104 with R101, R103: WHITEN flips bit `k` of byte `j` by the output of the generator at shift
`8 * (j % 511) + k`. -/
def Obligations.WhitenXorsTheKeystream : Prop :=
  ∀ (sb : BufId) (s : State), s.Inv →
    decode (BitVec.ofNat 32 (0x10 + 0x100 * bufIndex sb)) = .ok (.whiten sb) ∧
    (s.blen sb < 8 * (s.x 0).toNat → Rejects (.whiten sb) s .capacity) ∧
    (8 * (s.x 0).toNat ≤ s.blen sb → ∃ t, exec (.whiten sb) s = .next t ∧
      (∀ j k, j < (s.x 0).toNat → k < 8 → (t.byteAt sb j).getLsbD k =
        ((s.byteAt sb j).getLsbD k ^^ pn9Output s.params.pn9Out (pn9Shifts (8 * (j % 511) + k) 0x1FF#9))) ∧
      (∀ j, (s.x 0).toNat ≤ j → t.byteAt sb j = s.byteAt sb j) ∧ t.blen sb = s.blen sb ∧ t.bord sb = s.bord sb ∧
      (∀ b, b ≠ sb → SameBuffer b s t) ∧ OkFrame [] s t)

/-- R105: whitening twice gives the bytes back. -/
def Obligations.WhiteningIsAnInvolution : Prop :=
  ∀ (out : Pn9Out) (bytes : List Byte), whiten out (whiten out bytes) = bytes

/-- R102 (b), (c): the table read at `i % 511` is the endless output of the generator cut into bytes. -/
def Obligations.KeystreamTableIsTheEndlessGenerator : Prop :=
  ∀ (out : Pn9Out) (i k : Nat), k < 8 →
    ((pn9Table out).getD (i % 511) 0#8).getLsbD k = pn9Output out (pn9Shifts (8 * i + k) 0x1FF#9)

/-- R102 (e): the `BIT0` output at shift `n + 9` is the `FEEDBACK` output at shift `n`. -/
def Obligations.KeystreamVariantsAreNineShiftsApart : Prop :=
  ∀ (n : Nat) (r : BitVec 9), pn9Output .bit0 (pn9Shifts (n + 9) r) = pn9Output .feedback (pn9Shifts n r)

/-! ### Encoders -/

/-- R114, R116: the transition tables, as the spec prints them (symbol, next state) for input 0 and input 1. -/
def Obligations.TransitionTablesAreTheSpecs : Prop :=
  ((List.range 8).map fun s => (trellis .rsc s false, trellis .rsc s true)) =
      [((0, 0), (3, 1)), ((2, 3), (1, 2)), ((0, 5), (3, 4)), ((2, 6), (1, 7)), ((0, 1), (3, 0)), ((2, 2), (1, 3)),
        ((0, 4), (3, 5)), ((2, 7), (1, 6))] ∧
    ((List.range 16).map fun s => (trellis .nrnsc s false, trellis .nrnsc s true)) =
      [((3, 0), (0, 1)), ((2, 2), (1, 3)), ((0, 4), (3, 5)), ((1, 6), (2, 7)), ((0, 8), (3, 9)), ((1, 10), (2, 11)),
        ((3, 12), (0, 13)), ((2, 14), (1, 15)), ((3, 0), (0, 1)), ((2, 2), (1, 3)), ((0, 4), (3, 5)),
        ((1, 6), (2, 7)), ((0, 8), (3, 9)), ((1, 10), (2, 11)), ((3, 12), (0, 13)), ((2, 14), (1, 15))]

/-- R112 with R110, R111: encoding is continuous: a sequence in two parts encodes as the first part followed by the second
from the state the first ended in; there are two output bits for each input bit, `u1` of the symbol `2*u1 + u0` first and
then `u0`. -/
def Obligations.EncodingIsContinuous : Prop :=
  ∀ (f : Family) (m : Nat) (u v : List Bool),
    fecBits f m (u ++ v) = fecBits f m u ++ fecBits f (fecState f m u) v ∧
    fecState f m (u ++ v) = fecState f (fecState f m u) v ∧ (fecBits f m u).length = 2 * u.length ∧
    (∀ b : Bool, fecBits f m [b] = [(trellis f m b).1.getLsbD 1, (trellis f m b).1.getLsbD 0] ∧
      fecState f m [b] = (trellis f m b).2) ∧
    fecBits f m [] = [] ∧ fecState f m [] = m

/-- R122: two inputs of one length that first differ at symbol `u.length` have outputs that agree before that symbol and
differ there, in both bits. -/
def Obligations.EncodersAreInjective : Prop :=
  ∀ (f : Family) (m : Nat) (u v v' : List Bool) (b : Bool),
    (fecBits f m (u ++ b :: v)).take (2 * u.length) = (fecBits f m (u ++ (!b) :: v')).take (2 * u.length) ∧
    (fecBits f m (u ++ b :: v)).getD (2 * u.length) false ≠
      (fecBits f m (u ++ (!b) :: v')).getD (2 * u.length) false ∧
    (fecBits f m (u ++ b :: v)).getD (2 * u.length + 1) false ≠
      (fecBits f m (u ++ (!b) :: v')).getD (2 * u.length + 1) false

/-- R120, R115: the tail bits, fed bit 0 first, bring the RSC encoder from state `m` to state 0 and no other three bits do;
three zero bits clear the low three state bits of the NRNSC encoder. -/
def Obligations.TailBitsFlushTheEncoders : Prop :=
  (∀ m, m < 8 → ∀ t : BitVec 3, fecState .rsc m [t.getLsbD 0, t.getLsbD 1, t.getLsbD 2] = 0 ↔
      t.setWidth 8 = tailBits .rsc m) ∧
    (∀ m, m < 16 → tailBits .nrnsc m = 0#8 ∧ fecState .nrnsc m [false, false, false] % 8 = 0)

/-- R115, R118: the oldest bit of the NRNSC state affects no output and, after one input bit, no state. -/
def Obligations.NrnscIgnoresItsOldestBit : Prop :=
  ∀ (m : Nat) (b : Bool) (u : List Bool), m < 8 →
    fecBits .nrnsc (m + 8) (b :: u) = fecBits .nrnsc m (b :: u) ∧
    fecState .nrnsc (m + 8) (b :: u) = fecState .nrnsc m (b :: u)

/-- R117 and R118 in one form: family `f`, opcode `op`, start states below `bound`. -/
def Sys2Proof.Machine.EncoderCommandMeaning (f : Family) (op bound : Nat) (cmd : BufId → BufId → Instr) : Prop :=
  ∀ (sb db : BufId) (s : State), s.Inv →
    let n := (s.x 0).toNat
    let m := (s.x 1).toNat
    let input := (List.range n).map (s.streamBit sb)
    decode (BitVec.ofNat 32 (op + 0x100 * bufIndex sb + 0x200 * bufIndex db)) = .ok (cmd sb db) ∧
    (sb = db → Rejects (cmd sb db) s .illegal) ∧
    (sb ≠ db → bound ≤ m → Rejects (cmd sb db) s .illegal) ∧
    (sb ≠ db → m < bound → s.blen sb < n → Rejects (cmd sb db) s .capacity) ∧
    (sb ≠ db → m < bound → n ≤ s.blen sb → 8 * s.params.capBytes < 2 * n → Rejects (cmd sb db) s .capacity) ∧
    (sb ≠ db → m < bound → n ≤ s.blen sb → 2 * n ≤ 8 * s.params.capBytes → ∃ t, exec (cmd sb db) s = .next t ∧
      Produced State.streamBit db (fecBits f m input) s t ∧ t.blen db = 2 * n ∧ (t.x 4).toNat = 2 * n ∧
      (t.x 5).toNat = fecState f m input ∧ SameBuffer sb s t ∧ OkFrame [4, 5] s t)

/-- R117: RSCENC. On an MSB-tagged buffer the bits of a partial last byte are read and written in stream order, by the model's
reading (assumption log 10). -/
def Obligations.RscencEncodesTheBits : Prop := EncoderCommandMeaning .rsc 0x20 8 Instr.rscenc

/-- R118: NRNSCENC. On an MSB-tagged buffer the bits of a partial last byte are read and written in stream order, by the model's
reading (assumption log 10). -/
def Obligations.NrnscencEncodesTheBits : Prop := EncoderCommandMeaning .nrnsc 0x21 16 Instr.nrnscenc

/-! ### Decoders -/

/-- R130, R134: whatever the choices among ties, the decoder answers an input sequence of least distance, the state its
encoding ends in, and that distance. -/
def Obligations.DecoderReturnsAMinimumDistancePath : Prop :=
  ∀ (f : Family) (pick : Nat → Nat → Bool) (m T : Nat) (enc : List Bool), m < numStates f → enc.length = 2 * T →
    (fecDecode f pick m enc).bits.length = T ∧
    (fecDecode f pick m enc).final = fecState f m (fecDecode f pick m enc).bits ∧
    (fecDecode f pick m enc).dist = hamming (fecBits f m (fecDecode f pick m enc).bits) enc ∧
    ∀ c : List Bool, c.length = T → (fecDecode f pick m enc).dist ≤ hamming (fecBits f m c) enc

/-- R135: any minimiser can be the answer: for every input sequence of least distance some choices among ties return
it. -/
def Obligations.EveryMinimiserCanBeReturned : Prop :=
  ∀ (f : Family) (m : Nat) (enc c : List Bool), m < numStates f → enc.length = 2 * c.length →
    (∀ c' : List Bool, c'.length = c.length → hamming (fecBits f m c) enc ≤ hamming (fecBits f m c') enc) →
    ∃ pick : Nat → Nat → Bool, (fecDecode f pick m enc).bits = c

/-- R140, R141: the encoding of a sequence decodes to it, with its final state and distance 0, from the encoder's start
state, whatever the choices among ties and the acceptance limit; and it is the only sequence at distance 0. -/
def Obligations.CleanInputDecodesToItself : Prop :=
  ∀ (f : Family) (pick : Nat → Nat → Bool) (m : Nat) (c : List Bool), m < numStates f →
    fecDecode f pick m (fecBits f m c) = { bits := c, final := fecState f m c, dist := 0 } ∧
    (∀ limit, acceptable limit (fecDecode f pick m (fecBits f m c)).dist = true) ∧
    (∀ c' : List Bool, c'.length = c.length → hamming (fecBits f m c') (fecBits f m c) = 0 → c' = c)

/-- R138 and R139 in one form: family `f`, opcode `op`, start states below `bound`. When some sequence is within the
acceptance limit the command completes with a sequence of least distance; when none is, it fails in flight. -/
def Sys2Proof.Machine.DecoderCommandMeaning (f : Family) (op bound : Nat) (cmd : BufId → BufId → Instr) : Prop :=
  ∀ (sb db : BufId) (s : State), s.Inv →
    let e := (s.x 0).toNat
    let m := (s.x 1).toNat
    let dist : List Bool → Nat := fun c => hamming (fecBits f m c) ((List.range e).map (s.streamBit sb))
    decode (BitVec.ofNat 32 (op + 0x100 * bufIndex sb + 0x200 * bufIndex db)) = .ok (cmd sb db) ∧
    (sb = db → Rejects (cmd sb db) s .illegal) ∧
    (sb ≠ db → bound ≤ m → Rejects (cmd sb db) s .illegal) ∧
    (sb ≠ db → m < bound → e % 2 ≠ 0 → Rejects (cmd sb db) s .malformed) ∧
    (sb ≠ db → m < bound → e % 2 = 0 → s.blen sb < e → Rejects (cmd sb db) s .capacity) ∧
    (sb ≠ db → m < bound → e % 2 = 0 → e ≤ s.blen sb →
      (∃ c, c.length = e / 2 ∧ ∀ k, s.params.viterbiMaxDist = some k → dist c ≤ k) →
      ∃ t c, exec (cmd sb db) s = .next t ∧ c.length = e / 2 ∧ (∀ c', c'.length = e / 2 → dist c ≤ dist c') ∧
        Produced State.streamBit db c s t ∧ t.blen db = e / 2 ∧ (t.x 4).toNat = e / 2 ∧
        (t.x 5).toNat = fecState f m c ∧ (t.x 6).toNat = dist c ∧ SameBuffer sb s t ∧ OkFrame [4, 5, 6] s t) ∧
    (sb ≠ db → m < bound → e % 2 = 0 → e ≤ s.blen sb →
      (∃ k, s.params.viterbiMaxDist = some k ∧ ∀ c, c.length = e / 2 → k < dist c) →
      ∃ t, exec (cmd sb db) s = .next t ∧ FailedInFlight .decode (some db) s t ∧ t.fsm = s.fsm)

/-- R138 with R130, R136: RSCDEC. On an MSB-tagged buffer the bits of a partial last byte are read and written in stream order, by the model's
reading (assumption log 10). -/
def Obligations.RscdecDecodesTheBits : Prop := DecoderCommandMeaning .rsc 0x22 8 Instr.rscdec

/-- R139 with R130, R136: NRNSCDEC. On an MSB-tagged buffer the bits of a partial last byte are read and written in stream order, by the model's
reading (assumption log 10). -/
def Obligations.NrnscdecDecodesTheBits : Prop := DecoderCommandMeaning .nrnsc 0x23 16 Instr.nrnscdec

/-! ### Interleaver -/

/-- R149 with R146 to R148: ILV moves the symbol at position `i` of each block to position `ILV_TARGET[i]`. -/
def Obligations.IlvPermutesTheSymbols : Prop :=
  ∀ (sb : BufId) (s : State), s.Inv →
    let n := (s.x 0).toNat
    let target : Nat → Nat := fun i =>
      if s.params.ilvVariant = .formula then 15 - 4 * (i % 4) - i / 4 else 4 * (i % 4) + i / 4
    decode (BitVec.ofNat 32 (0x30 + 0x100 * bufIndex sb)) = .ok (.ilv sb) ∧
    (n % 32 ≠ 0 → Rejects (.ilv sb) s .malformed) ∧
    (n % 32 = 0 → s.blen sb < n → Rejects (.ilv sb) s .capacity) ∧
    (n % 32 = 0 → n ≤ s.blen sb → ∃ t, exec (.ilv sb) s = .next t ∧
      (∀ B i, B < n / 32 → i < 16 → t.blockSymbol sb B (target i) = s.blockSymbol sb B i) ∧
      (∀ j, n / 8 ≤ j → t.byteAt sb j = s.byteAt sb j) ∧ t.blen sb = s.blen sb ∧ t.bord sb = s.bord sb ∧
      (∀ b, b ≠ sb → SameBuffer b s t) ∧ OkFrame [] s t)

/-- R150: under either variant, interleaving whole blocks twice gives the bytes back. -/
def Obligations.InterleavingIsAnInvolution : Prop :=
  ∀ (v : IlvVariant) (bytes : List Byte), bytes.length % 4 = 0 → ilv v (ilv v bytes) = bytes

/-! ### Frame check sequence -/

/-- R161 with R157: FCS32. -/
def Obligations.Fcs32ComputesTheCrc : Prop :=
  ∀ (sb : BufId) (s : State),
    decode (BitVec.ofNat 32 (0x40 + 0x100 * bufIndex sb)) = .ok (.fcs32 sb) ∧
    (s.blen sb < 8 * (s.x 0).toNat → Rejects (.fcs32 sb) s .capacity) ∧
    (8 * (s.x 0).toNat ≤ s.blen sb → ∃ t, exec (.fcs32 sb) s = .next t ∧
      t.x 4 = fcs32 (s.x 1) ((List.range (s.x 0).toNat).map (s.byteAt sb)) ∧ OkFrame [4] s t ∧
      ∀ b, SameBuffer b s t)

/-- R162 with R160: FCSCHK reports a verdict; a payload that is not good is no error. -/
def Obligations.FcschkReportsTheVerdict : Prop :=
  ∀ (sb : BufId) (s : State),
    decode (BitVec.ofNat 32 (0x41 + 0x100 * bufIndex sb)) = .ok (.fcschk sb) ∧
    (s.blen sb < 8 * (s.x 0).toNat → Rejects (.fcschk sb) s .capacity) ∧
    (8 * (s.x 0).toNat ≤ s.blen sb → ∃ t, exec (.fcschk sb) s = .next t ∧
      t.x 4 = (if fcs32IsGood ((List.range (s.x 0).toNat).map (s.byteAt sb)) then 1#32 else 0#32) ∧
      OkFrame [4] s t ∧ ∀ b, SameBuffer b s t)

/-- R163 with R159: FCSAPP writes the four bytes of the FCS, little-endian, after the data and sets the length. -/
def Obligations.FcsappAppendsTheTrailer : Prop :=
  ∀ (sb : BufId) (s : State), s.Inv →
    let n := (s.x 0).toNat
    let data := (List.range n).map (s.byteAt sb)
    decode (BitVec.ofNat 32 (0x42 + 0x100 * bufIndex sb)) = .ok (.fcsapp sb) ∧
    (s.blen sb < 8 * n → Rejects (.fcsapp sb) s .capacity) ∧
    (8 * n ≤ s.blen sb → 8 * s.params.capBytes < 8 * (n + 4) → Rejects (.fcsapp sb) s .capacity) ∧
    (8 * n ≤ s.blen sb → 8 * (n + 4) ≤ 8 * s.params.capBytes → ∃ t, exec (.fcsapp sb) s = .next t ∧
      t.x 4 = fcs32 0#32 (data ++ List.replicate (4 - n) 0#8) ∧
      (∀ i, i < 4 → t.byteAt sb (n + i) = ((t.x 4) >>> (8 * i)).setWidth 8) ∧
      (∀ j, j < n ∨ n + 4 ≤ j → t.byteAt sb j = s.byteAt sb j) ∧ t.blen sb = 8 * (n + 4) ∧
      t.bord sb = s.bord sb ∧ (∀ b, b ≠ sb → SameBuffer b s t) ∧ OkFrame [4] s t)

/-- R158: the CRC of a sequence in two parts is the CRC of the second seeded with that of the first, and the CRC of the
empty sequence is its seed. -/
def Obligations.Fcs32ChainsThroughItsSeed : Prop :=
  ∀ (seed : Word) (a b : List Byte), fcs32 (fcs32 seed a) b = fcs32 seed (a ++ b) ∧ fcs32 seed [] = seed

/-- R164: data with its trailer is a good payload, and the trailer is the only four bytes that make it one. -/
def Obligations.TheTrailerIsTheOnlyGoodOne : Prop :=
  ∀ data trailer : List Byte, data ≠ [] → trailer.length = 4 →
    (fcs32IsGood (data ++ trailer) = true ↔ trailer = fcs32Trailer data)

/-- R164: flipping one bit of a good payload makes it not good. -/
def Obligations.OneFlippedBitIsDetected : Prop :=
  ∀ (u v : List Byte) (x : Byte) (k : Nat), k < 8 → fcs32IsGood (u ++ x :: v) = true →
    fcs32IsGood (u ++ (x ^^^ 1#8 <<< k) :: v) = false

/-! ### Synchronisation header and PHY header -/

/-- At position `p` of `S` stand exactly `r` preamble patterns, `r` at least 1, and then the SFD of type `k` (R170,
R173). -/
def Sys2Proof.Machine.ShrStandsAt (P : Params) (S : List Bool) (p r : Nat) (k : SfdType) : Prop :=
  1 ≤ r ∧ (∀ j, j < 8 * r → S[p + j]? = some (decide (j % 2 = 1))) ∧
    ¬(∀ j, j < 8 → S[p + 8 * r + j]? = some (decide (j % 2 = 1))) ∧
    (∀ j, j < 16 → S[p + 8 * r + j]? = some ((sfdWord P k).getLsbD j))

/-- R173: the scan answers the first position at or after the start where a header stands, with its maximal repeat count
and the index after its SFD; it answers nothing exactly when there is none. -/
def Obligations.ShrScanFindsTheFirstHeader : Prop :=
  ∀ (P : Params) (S : List Bool) (start : Nat), start ≤ S.length →
    (∀ h : Shr, shrDetect P S start = some h ↔
      start ≤ h.start ∧ (∃ r, ShrStandsAt P S h.start r h.kind ∧ h.plen = 8 * r ∧
        h.after = h.start + 8 * r + 16) ∧
      ∀ p, start ≤ p → p < h.start → ∀ r k, ¬ShrStandsAt P S p r k) ∧
    (shrDetect P S start = none ↔ ∀ p, start ≤ p → ∀ r k, ¬ShrStandsAt P S p r k)

/-- R174 with R50, R173: SHRDET. That a failed one changes neither buffer is the model's reading (assumption log 7). -/
def Obligations.ShrdetReportsTheHeader : Prop :=
  ∀ (sb : BufId) (s : State),
    let S := (List.range (s.blen sb)).map (s.taggedBit sb)
    decode (BitVec.ofNat 32 (0x50 + 0x100 * bufIndex sb)) = .ok (.shrdet sb) ∧
    (s.blen sb < (s.x 0).toNat → Rejects (.shrdet sb) s .capacity) ∧
    (∀ h, (s.x 0).toNat ≤ s.blen sb → shrDetect s.params S (s.x 0).toNat = some h →
      ∃ t, exec (.shrdet sb) s = .next t ∧ (t.x 4).toNat = h.plen ∧ t.x 5 = h.kind.code ∧
        (t.x 6).toNat = h.after ∧ (t.x 7).toNat = h.start ∧ t.fsm = 0x02#32 ∧ StatusOk s t ∧
        SameRegsBut [4, 5, 6, 7] s t ∧ SameHostSide s t ∧ ∀ b, SameBuffer b s t) ∧
    ((s.x 0).toNat ≤ s.blen sb → shrDetect s.params S (s.x 0).toNat = none →
      ∃ t, exec (.shrdet sb) s = .next t ∧ FailedInFlight .notFound none s t ∧ t.fsm = 0x06#32)

/-- R178 with R176, R177: the fields of any header word; decoding a header gives the fields it was built from, and bits 2:1
are built 0. -/
def Obligations.HeaderFieldsRoundTrip : Prop :=
  (∀ H : BitVec 16, (∀ j, (phrDecode H).L.testBit j = (decide (j ≤ 10) && H.getLsbD (15 - j))) ∧
    (phrDecode H).ms = H.getLsbD 0 ∧ (phrDecode H).fcs = H.getLsbD 3 ∧ (phrDecode H).dw = H.getLsbD 4) ∧
  ∀ (L : Nat) (ms fcs dw : Bool), L ≤ 2047 →
    phrDecode (phrEncode L ms fcs dw) = { L := L, ms := ms, fcs := fcs, dw := dw } ∧
    (phrEncode L ms fcs dw).getLsbD 1 = false ∧ (phrEncode L ms fcs dw).getLsbD 2 = false ∧
    (∀ j, j ≤ 10 → (phrEncode L ms fcs dw).getLsbD (5 + j) = L.testBit (10 - j))

/-- R179 with R175, R176: PHRENC. -/
def Obligations.PhrencBuildsTheHeader : Prop :=
  ∀ s : State,
    decode 0x00000051#32 = .ok .phrenc ∧
    (2047 < (s.x 0).toNat → Rejects .phrenc s .illegal) ∧
    ((s.x 0).toNat ≤ 2047 → s.x 1 &&& ~~~0x19#32 ≠ 0#32 → Rejects .phrenc s .illegal) ∧
    ((s.x 0).toNat ≤ 2047 → s.x 1 &&& ~~~0x19#32 = 0#32 → (s.x 1).getLsbD 3 = true →
      Rejects .phrenc s .unsupported) ∧
    ((s.x 0).toNat ≤ 2047 → s.x 1 &&& ~~~0x19#32 = 0#32 → (s.x 1).getLsbD 3 = false →
      ∃ t, exec .phrenc s = .next t ∧
        (∀ k, k < 5 → (t.x 4).getLsbD k = (s.x 1).getLsbD k) ∧
        (∀ j, j ≤ 10 → (t.x 4).getLsbD (5 + j) = (s.x 0).getLsbD (10 - j)) ∧
        (∀ k, 16 ≤ k → (t.x 4).getLsbD k = false) ∧ OkFrame [4] s t ∧ ∀ b, SameBuffer b s t)

/-- R180 with R175, R176: PHRDEC. -/
def Obligations.PhrdecSplitsTheHeader : Prop :=
  ∀ s : State,
    decode 0x00000052#32 = .ok .phrdec ∧
    (0xFFFF < (s.x 0).toNat → Rejects .phrdec s .illegal) ∧
    ((s.x 0).toNat ≤ 0xFFFF → ∃ t, exec .phrdec s = .next t ∧
      (∀ j, j ≤ 10 → (t.x 4).getLsbD j = (s.x 0).getLsbD (15 - j)) ∧
      (∀ j, 11 ≤ j → (t.x 4).getLsbD j = false) ∧ t.x 5 = s.x 0 &&& 0x1F#32 ∧ OkFrame [4, 5] s t ∧
      ∀ b, SameBuffer b s t)

/-! ### Frames -/

/-- R211, R213: the number of bits of a frame's stream, and the bits it begins with. -/
def Obligations.FrameStreamHasItsLength : Prop :=
  ∀ (P : Params) (k : SfdType) (fam : Family) (dw : Bool) (plen : Nat) (data : List Byte), plen % 8 = 0 →
    (encodeFrame P k fam dw plen data).length =
      plen + 16 + 8 * (if k = .coded0 ∨ k = .coded1 then
        2 * (2 + (data.length + 4) + (1 + if (2 + (data.length + 4)) % 2 = 0 then 1 else 0))
        else 2 + (data.length + 4)) ∧
    (∀ i, i < plen → (encodeFrame P k fam dw plen data)[i]? = some (decide (i % 2 = 1))) ∧
    (∀ i, i < 16 → (encodeFrame P k fam dw plen data)[plen + i]? = some ((sfdWord P k).getLsbD i))

/-- R190, R210: the body of an uncoded frame: the header word, low bit first, then the payload octets, which are the data
and its FCS, whitened when `DW` is set. -/
def Obligations.UncodedBodyIsHeaderAndPayload : Prop :=
  ∀ (P : Params) (k : SfdType) (fam : Family) (dw : Bool) (plen : Nat) (data : List Byte), plen % 8 = 0 →
    k = .uncoded0 ∨ k = .uncoded1 →
    (∀ i, i < 16 → (encodeFrame P k fam dw plen data)[plen + 16 + i]? =
      some ((phrEncode (data.length + 4) false false dw).getLsbD i)) ∧
    (∀ j i, j < data.length + 4 → i < 8 → (encodeFrame P k fam dw plen data)[plen + 32 + 8 * j + i]? =
      some (((if dw then whiten P.pn9Out (data ++ fcs32Trailer data) else data ++ fcs32Trailer data).getD j 0#8).getLsbD
        i))

/-- R212, R119, R121: the body of a coded frame: header, payload, and one or two pad octets, the first with the tail bits,
encoded from state 0 and interleaved. -/
def Obligations.CodedBodyIsTheInterleavedCode : Prop :=
  ∀ (P : Params) (k : SfdType) (fam : Family) (dw : Bool) (plen : Nat) (data : List Byte), plen % 8 = 0 →
    k = .coded0 ∨ k = .coded1 →
    let payload := if dw then whiten P.pn9Out (data ++ fcs32Trailer data) else data ++ fcs32Trailer data
    let core := bitsOfWord (phrEncode (data.length + 4) false false dw) ++ payload.flatMap bitsOfWord
    let first := 0xD0#8 ||| tailBits fam (fecState fam 0 core)
    let tail := if (2 + (data.length + 4)) % 2 = 0 then [first, 0xD0#8] else [first]
    (encodeFrame P k fam dw plen data).drop (plen + 16) =
      (ilv P.ilvVariant (pack (fecBits fam 0 (core ++ tail.flatMap bitsOfWord)))).flatMap bitsOfWord

/-- R207 with R211 to R214: FRMENC. -/
def Obligations.FrmencBuildsTheFrame : Prop :=
  ∀ (sb db : BufId) (fam : Family) (dw : Bool) (k : SfdType) (fcst : Bool) (s : State), s.Inv →
    let nd := (s.x 0).toNat
    let plen := (s.x 1).toNat
    let frame := encodeFrame s.params k fam dw plen ((List.range nd).map (s.byteAt sb))
    let cmd := Instr.frmenc sb db fam dw k fcst
    decode (BitVec.ofNat 32 (0x61 + 0x100 * bufIndex sb + 0x200 * bufIndex db + 0x1000 * fam.code.toNat +
      0x4000 * dw.toNat + 0x8000 * k.code.toNat + 0x20000 * fcst.toNat)) = .ok cmd ∧
    (sb = db → Rejects cmd s .illegal) ∧
    (sb ≠ db → fcst = true → Rejects cmd s .unsupported) ∧
    (sb ≠ db → fcst = false → 2043 < nd → Rejects cmd s .illegal) ∧
    (sb ≠ db → fcst = false → nd ≤ 2043 → ¬(plen % 8 = 0 ∧ 8 ≤ plen) → Rejects cmd s .malformed) ∧
    (sb ≠ db → fcst = false → nd ≤ 2043 → plen % 8 = 0 → 8 ≤ plen → s.blen sb < 8 * nd →
      Rejects cmd s .capacity) ∧
    (sb ≠ db → fcst = false → nd ≤ 2043 → plen % 8 = 0 → 8 ≤ plen → 8 * nd ≤ s.blen sb →
      8 * s.params.capBytes < frame.length → Rejects cmd s .capacity) ∧
    (sb ≠ db → fcst = false → nd ≤ 2043 → plen % 8 = 0 → 8 ≤ plen → 8 * nd ≤ s.blen sb →
      frame.length ≤ 8 * s.params.capBytes → ∃ t, exec cmd s = .next t ∧
        Produced State.taggedBit db frame s t ∧ (t.x 4).toNat = frame.length ∧ SameBuffer sb s t ∧
        OkFrame [4] s t)

/-- R205, R206: FRMDEC delivers the frame its stream decodes to, or fails in flight as the frame machine failed. The choice
among ties is a function of each decode's own arguments, by the model's reading (assumption log 6). -/
def Obligations.FrmdecDeliversTheFrame : Prop :=
  ∀ (sb db : BufId) (skipv : Bool) (s : State), s.Inv →
    let S := (List.range (s.blen sb)).map (s.taggedBit sb)
    let res := decodeFrame s.params Config.tiePick skipv S
    decode (BitVec.ofNat 32 (0x60 + 0x100 * bufIndex sb + 0x200 * bufIndex db + 0x2000 * skipv.toNat)) =
      .ok (.frmdec sb db skipv) ∧
    (sb = db → Rejects (.frmdec sb db skipv) s .illegal) ∧
    (∀ r, sb ≠ db → res = .ok r → ∃ t, exec (.frmdec sb db skipv) s = .next t ∧
      (t.x 4).toNat = r.shr.plen ∧ t.x 5 = r.shr.kind.code ∧ t.x 6 = r.H.setWidth 32 ∧
      (t.x 7).toNat = r.payload.length ∧ (t.x 7).toNat = (phrDecode r.H).L ∧
      Produced State.streamBit db (r.payload.flatMap bitsOfWord) s t ∧ t.blen db = 8 * r.payload.length ∧
      t.fsm = (if skipv then 0x04#32 else 0x05#32) ∧ StatusOk s t ∧ SameRegsBut [4, 5, 6, 7] s t ∧
      SameBuffer sb s t ∧ SameHostSide s t) ∧
    (∀ e, sb ≠ db → res = .error e → ∃ t, exec (.frmdec sb db skipv) s = .next t ∧
      FailedInFlight e.code (some db) s t ∧ t.fsm = 6#32 ||| e.src.code <<< 3)

/-- R206 with R194 to R204: a frame decode fails exactly as listed, on any stream: every failure has its condition, every
condition makes the decode fail so under some choice among ties, and under every choice when the type is uncoded. It fails
to verify only when verification is not skipped, and to decode only when there is a limit. -/
def Obligations.FrameDecodeErrorsAreThoseListed : Prop :=
  ∀ (P : Params) (skipv : Bool) (S : List Bool),
    (∀ (pick : Nat → TieChoice) (e : FrameError), decodeFrame P pick skipv S = .error e →
      FrameFails P skipv S e ∧
        (e.code, e.src) ∈ [(ErrCode.notFound, FsmState.searching), (.malformed, .sfdMatched), (.decode, .sfdMatched),
          (.unsupported, .headerRecovered), (.malformed, .headerRecovered), (.decode, .headerRecovered),
          (.verify, .payloadRecovered)] ∧
        (e.code = .notFound ↔ shrDetect P S 0 = none) ∧ (e.code = .verify → skipv = false) ∧
        (e.code = .decode → P.viterbiMaxDist ≠ none)) ∧
    (∀ e : FrameError, FrameFails P skipv S e → ∃ pick : Nat → TieChoice, decodeFrame P pick skipv S = .error e) ∧
    ((∀ h, shrDetect P S 0 = some h → ¬IsCoded h.kind) →
      ∀ (pick : Nat → TieChoice) (e : FrameError), FrameFails P skipv S e → decodeFrame P pick skipv S = .error e)

/-- R204, R199 with R194 to R203: what a frame delivered from any stream is: the first synchronisation header; the header word
after it, FCS type 0; the payload after that, of the length the header declares; verified only when it is good, recovered only
when verification is skipped. Every such frame is delivered under some choice among ties, and under every choice when the type
is uncoded. -/
def Obligations.DeliveredFramesAreChecked : Prop :=
  ∀ (P : Params) (skipv : Bool) (S : List Bool) (r : FrameResult),
    (∀ pick : Nat → TieChoice, decodeFrame P pick skipv S = .ok r → FrameDelivered P skipv S r ∧
      r.payload.length = (phrDecode r.H).L ∧ (phrDecode r.H).fcs = false ∧ shrDetect P S 0 = some r.shr ∧
      (skipv = true → r.final = .payloadRecovered) ∧
      (skipv = false → r.final = .verified ∧ fcs32IsGood r.payload = true ∧ 5 ≤ r.payload.length)) ∧
    (FrameDelivered P skipv S r → ∃ pick : Nat → TieChoice, decodeFrame P pick skipv S = .ok r) ∧
    (¬IsCoded r.shr.kind → FrameDelivered P skipv S r → ∀ pick : Nat → TieChoice, decodeFrame P pick skipv S = .ok r)

/-- R215: the round trip. A frame that FRMENC built from at least one octet, read by FRMDEC under the same tag, is
verified, and gives back the preamble length, the type, the header and the data with its FCS; for a coded type when the
family is the one the type implies at decode; for an SFD that does not begin with the preamble pattern. It holds for every
parameter value and every choice of the decoder. -/
def Obligations.FramesRoundTrip : Prop :=
  ∀ (sb db : BufId) (fam : Family) (dw : Bool) (k : SfdType) (s t : State), s.Inv → 1 ≤ (s.x 0).toNat →
    exec (.frmenc sb db fam dw k false) s = .next t → errField t.status = 0#32 →
    (k = .coded0 → s.params.famCoded0 = fam) → (k = .coded1 → s.params.famCoded1 = fam) →
    (sfdBits s.params k).take 8 ≠ [false, true, false, true, false, true, false, true] →
    ∃ u, exec (.frmdec db sb false) t = .next u ∧ errField u.status = 0#32 ∧ u.fsm = 0x05#32 ∧
      u.x 4 = s.x 1 ∧ u.x 5 = k.code ∧
      u.x 6 = (phrEncode ((s.x 0).toNat + 4) false false dw).setWidth 32 ∧ (u.x 7).toNat = (s.x 0).toNat + 4 ∧
      u.blen sb = 8 * ((s.x 0).toNat + 4) ∧ (∀ j, j < (s.x 0).toNat → u.byteAt sb j = s.byteAt sb j) ∧
      (∀ j, j < 4 → u.byteAt sb ((s.x 0).toNat + j) =
        (fcs32Trailer ((List.range (s.x 0).toNat).map (s.byteAt sb))).getD j 0#8)
end

