-- ==== Sys2Proof/Laws/State.lean ====
section
/-! SUPPORT. What each update of the state changes and what it leaves: one lemma per field and update, so that no later
proof unfolds a record update. Normal form: the fields `status`, `fsm`, `params`, `pending`, `rdata`, `draws`, the registers as
`s.x i`, the buffers as `s.buf b`. -/

namespace Sys2Proof.Machine

variable (s : State)

/-! ### `setX` -/

@[simp] theorem State.setX_status (i : Fin 8) (v : Word) : (s.setX i v).status = s.status := rfl
@[simp] theorem State.setX_fsm (i : Fin 8) (v : Word) : (s.setX i v).fsm = s.fsm := rfl
@[simp] theorem State.setX_buf (i : Fin 8) (v : Word) (b : BufId) : (s.setX i v).buf b = s.buf b := by cases b <;> rfl
@[simp] theorem State.setX_params (i : Fin 8) (v : Word) : (s.setX i v).params = s.params := rfl
@[simp] theorem State.setX_pending (i : Fin 8) (v : Word) : (s.setX i v).pending = s.pending := rfl
@[simp] theorem State.setX_rdata (i : Fin 8) (v : Word) : (s.setX i v).rdata = s.rdata := rfl
@[simp] theorem State.setX_draws (i : Fin 8) (v : Word) : (s.setX i v).draws = s.draws := rfl

/-- A register write changes that register alone. -/
theorem State.setX_x (i j : Fin 8) (v : Word) : (s.setX i v).x j = if i = j then v else s.x j := by
  simp only [State.x, State.setX, Vector.getElem_set, Fin.ext_iff]

@[simp] theorem State.setX_x_same (i : Fin 8) (v : Word) : (s.setX i v).x i = v := by simp [State.setX_x]

@[simp] theorem State.setX_x_ne {i j : Fin 8} (v : Word) (h : i ≠ j) : (s.setX i v).x j = s.x j := by
  simp [State.setX_x, h]

@[simp] theorem State.setXNat_eq (i : Fin 8) (n : Nat) : s.setXNat i n = s.setX i (BitVec.ofNat 32 n) := rfl

/-! ### `setBuf` and the buffer updates built on it -/

@[simp] theorem State.setBuf_status (b : BufId) (B : Buffer) : (s.setBuf b B).status = s.status := by cases b <;> rfl
@[simp] theorem State.setBuf_fsm (b : BufId) (B : Buffer) : (s.setBuf b B).fsm = s.fsm := by cases b <;> rfl
@[simp] theorem State.setBuf_x (b : BufId) (B : Buffer) (i : Fin 8) : (s.setBuf b B).x i = s.x i := by cases b <;> rfl
@[simp] theorem State.setBuf_params (b : BufId) (B : Buffer) : (s.setBuf b B).params = s.params := by cases b <;> rfl
@[simp] theorem State.setBuf_pending (b : BufId) (B : Buffer) : (s.setBuf b B).pending = s.pending := by cases b <;> rfl
@[simp] theorem State.setBuf_rdata (b : BufId) (B : Buffer) : (s.setBuf b B).rdata = s.rdata := by cases b <;> rfl
@[simp] theorem State.setBuf_draws (b : BufId) (B : Buffer) : (s.setBuf b B).draws = s.draws := by cases b <;> rfl
@[simp] theorem State.setBuf_buf_same (b : BufId) (B : Buffer) : (s.setBuf b B).buf b = B := by cases b <;> rfl

@[simp] theorem State.setBuf_buf_ne {b c : BufId} (B : Buffer) (h : b ≠ c) : (s.setBuf b B).buf c = s.buf c := by
  cases b <;> cases c <;> first | rfl | exact absurd rfl h

/-- Replacing a buffer changes that buffer alone. -/
theorem State.setBuf_buf (b c : BufId) (B : Buffer) : (s.setBuf b B).buf c = if b = c then B else s.buf c := by
  by_cases h : b = c
  · subst h; simp
  · simp [h]

@[simp] theorem State.setLen_status (b : BufId) (n : Nat) : (s.setLen b n).status = s.status := by simp [State.setLen]
@[simp] theorem State.setLen_fsm (b : BufId) (n : Nat) : (s.setLen b n).fsm = s.fsm := by simp [State.setLen]
@[simp] theorem State.setLen_x (b : BufId) (n : Nat) (i : Fin 8) : (s.setLen b n).x i = s.x i := by simp [State.setLen]
@[simp] theorem State.setLen_params (b : BufId) (n : Nat) : (s.setLen b n).params = s.params := by simp [State.setLen]
@[simp] theorem State.setLen_pending (b : BufId) (n : Nat) : (s.setLen b n).pending = s.pending := by simp [State.setLen]
@[simp] theorem State.setLen_rdata (b : BufId) (n : Nat) : (s.setLen b n).rdata = s.rdata := by simp [State.setLen]
@[simp] theorem State.setLen_draws (b : BufId) (n : Nat) : (s.setLen b n).draws = s.draws := by simp [State.setLen]

@[simp] theorem State.setOrd_status (b : BufId) (v : Bool) : (s.setOrd b v).status = s.status := by simp [State.setOrd]
@[simp] theorem State.setOrd_fsm (b : BufId) (v : Bool) : (s.setOrd b v).fsm = s.fsm := by simp [State.setOrd]
@[simp] theorem State.setOrd_x (b : BufId) (v : Bool) (i : Fin 8) : (s.setOrd b v).x i = s.x i := by simp [State.setOrd]
@[simp] theorem State.setOrd_params (b : BufId) (v : Bool) : (s.setOrd b v).params = s.params := by simp [State.setOrd]
@[simp] theorem State.setOrd_pending (b : BufId) (v : Bool) : (s.setOrd b v).pending = s.pending := by simp [State.setOrd]
@[simp] theorem State.setOrd_rdata (b : BufId) (v : Bool) : (s.setOrd b v).rdata = s.rdata := by simp [State.setOrd]
@[simp] theorem State.setOrd_draws (b : BufId) (v : Bool) : (s.setOrd b v).draws = s.draws := by simp [State.setOrd]

@[simp] theorem State.writeBytes_status (b : BufId) (j : Nat) (l : List Byte) :
    (s.writeBytes b j l).status = s.status := by simp [State.writeBytes]
@[simp] theorem State.writeBytes_fsm (b : BufId) (j : Nat) (l : List Byte) : (s.writeBytes b j l).fsm = s.fsm := by
  simp [State.writeBytes]
@[simp] theorem State.writeBytes_x (b : BufId) (j : Nat) (l : List Byte) (i : Fin 8) :
    (s.writeBytes b j l).x i = s.x i := by simp [State.writeBytes]
@[simp] theorem State.writeBytes_params (b : BufId) (j : Nat) (l : List Byte) :
    (s.writeBytes b j l).params = s.params := by simp [State.writeBytes]
@[simp] theorem State.writeBytes_pending (b : BufId) (j : Nat) (l : List Byte) :
    (s.writeBytes b j l).pending = s.pending := by simp [State.writeBytes]
@[simp] theorem State.writeBytes_rdata (b : BufId) (j : Nat) (l : List Byte) :
    (s.writeBytes b j l).rdata = s.rdata := by simp [State.writeBytes]
@[simp] theorem State.writeBytes_draws (b : BufId) (j : Nat) (l : List Byte) :
    (s.writeBytes b j l).draws = s.draws := by simp [State.writeBytes]

@[simp] theorem State.produce_status (b : BufId) (l : List Byte) (n : Nat) : (s.produce b l n).status = s.status := by
  simp [State.produce]
@[simp] theorem State.produce_fsm (b : BufId) (l : List Byte) (n : Nat) : (s.produce b l n).fsm = s.fsm := by
  simp [State.produce]
@[simp] theorem State.produce_x (b : BufId) (l : List Byte) (n : Nat) (i : Fin 8) : (s.produce b l n).x i = s.x i := by
  simp [State.produce]
@[simp] theorem State.produce_params (b : BufId) (l : List Byte) (n : Nat) : (s.produce b l n).params = s.params := by
  simp [State.produce]
@[simp] theorem State.produce_pending (b : BufId) (l : List Byte) (n : Nat) :
    (s.produce b l n).pending = s.pending := by simp [State.produce]
@[simp] theorem State.produce_rdata (b : BufId) (l : List Byte) (n : Nat) : (s.produce b l n).rdata = s.rdata := by
  simp [State.produce]
@[simp] theorem State.produce_draws (b : BufId) (l : List Byte) (n : Nat) : (s.produce b l n).draws = s.draws := by
  simp [State.produce]

/-! ### Completions -/

@[simp] theorem State.succeed_status : s.succeed.status = statusOk s.status := rfl
@[simp] theorem State.succeed_fsm : s.succeed.fsm = s.fsm := rfl
@[simp] theorem State.succeed_x (i : Fin 8) : s.succeed.x i = s.x i := rfl
@[simp] theorem State.succeed_buf (b : BufId) : s.succeed.buf b = s.buf b := by cases b <;> rfl
@[simp] theorem State.succeed_params : s.succeed.params = s.params := rfl
@[simp] theorem State.succeed_pending : s.succeed.pending = s.pending := rfl
@[simp] theorem State.succeed_rdata : s.succeed.rdata = s.rdata := rfl
@[simp] theorem State.succeed_draws : s.succeed.draws = s.draws := rfl

@[simp] theorem State.setFsm_status (v : Word) : (s.setFsm v).status = s.status := rfl
@[simp] theorem State.setFsm_fsm (v : Word) : (s.setFsm v).fsm = v := rfl
@[simp] theorem State.setFsm_x (v : Word) (i : Fin 8) : (s.setFsm v).x i = s.x i := rfl
@[simp] theorem State.setFsm_buf (v : Word) (b : BufId) : (s.setFsm v).buf b = s.buf b := by cases b <;> rfl
@[simp] theorem State.setFsm_params (v : Word) : (s.setFsm v).params = s.params := rfl
@[simp] theorem State.setFsm_pending (v : Word) : (s.setFsm v).pending = s.pending := rfl
@[simp] theorem State.setFsm_rdata (v : Word) : (s.setFsm v).rdata = s.rdata := rfl
@[simp] theorem State.setFsm_draws (v : Word) : (s.setFsm v).draws = s.draws := rfl

@[simp] theorem State.draw_status : s.draw.status = s.status := rfl
@[simp] theorem State.draw_fsm : s.draw.fsm = s.fsm := rfl
@[simp] theorem State.draw_x (i : Fin 8) : s.draw.x i = s.x i := rfl
@[simp] theorem State.draw_buf (b : BufId) : s.draw.buf b = s.buf b := by cases b <;> rfl
@[simp] theorem State.draw_params : s.draw.params = s.params := rfl
@[simp] theorem State.draw_pending : s.draw.pending = s.pending := rfl
@[simp] theorem State.draw_rdata : s.draw.rdata = s.rdata := rfl
@[simp] theorem State.draw_draws : s.draw.draws = s.draws + 1 := rfl

@[simp] theorem State.reject_status (e : ErrCode) : (s.reject e).status = statusErr s.status e := rfl
@[simp] theorem State.reject_fsm (e : ErrCode) : (s.reject e).fsm = s.fsm := rfl
@[simp] theorem State.reject_x (e : ErrCode) (i : Fin 8) : (s.reject e).x i = s.x i := rfl
@[simp] theorem State.reject_buf (e : ErrCode) (b : BufId) : (s.reject e).buf b = s.buf b := by cases b <;> rfl
@[simp] theorem State.reject_params (e : ErrCode) : (s.reject e).params = s.params := rfl
@[simp] theorem State.reject_pending (e : ErrCode) : (s.reject e).pending = s.pending := rfl
@[simp] theorem State.reject_rdata (e : ErrCode) : (s.reject e).rdata = s.rdata := rfl
@[simp] theorem State.reject_draws (e : ErrCode) : (s.reject e).draws = s.draws := rfl

@[simp] theorem State.loseResults_status : s.loseResults.status = s.status := rfl
@[simp] theorem State.loseResults_fsm : s.loseResults.fsm = s.fsm := rfl
@[simp] theorem State.loseResults_buf (b : BufId) : s.loseResults.buf b = s.buf b := by cases b <;> rfl
@[simp] theorem State.loseResults_params : s.loseResults.params = s.params := rfl
@[simp] theorem State.loseResults_pending : s.loseResults.pending = s.pending := rfl
@[simp] theorem State.loseResults_rdata : s.loseResults.rdata = s.rdata := rfl
@[simp] theorem State.loseResults_draws : s.loseResults.draws = s.draws := rfl

/-- The arguments survive a failure; the results are free words (R19). -/
theorem State.loseResults_x (i : Fin 8) :
    s.loseResults.x i = if i.val < 4 then s.x i else Config.freeWord s.draws i.val := by
  simp only [State.loseResults, State.setX_x]
  fin_cases i <;> simp

@[simp] theorem State.loseBuffer_status (b : BufId) : (s.loseBuffer b).status = s.status := by simp [State.loseBuffer]
@[simp] theorem State.loseBuffer_fsm (b : BufId) : (s.loseBuffer b).fsm = s.fsm := by simp [State.loseBuffer]
@[simp] theorem State.loseBuffer_x (b : BufId) (i : Fin 8) : (s.loseBuffer b).x i = s.x i := by
  simp [State.loseBuffer]
@[simp] theorem State.loseBuffer_params (b : BufId) : (s.loseBuffer b).params = s.params := by
  simp [State.loseBuffer]
@[simp] theorem State.loseBuffer_pending (b : BufId) : (s.loseBuffer b).pending = s.pending := by
  simp [State.loseBuffer]
@[simp] theorem State.loseBuffer_rdata (b : BufId) : (s.loseBuffer b).rdata = s.rdata := by simp [State.loseBuffer]
@[simp] theorem State.loseBuffer_draws (b : BufId) : (s.loseBuffer b).draws = s.draws := by simp [State.loseBuffer]

@[simp] theorem State.loseBuffer_buf_ne {b c : BufId} (h : b ≠ c) : (s.loseBuffer b).buf c = s.buf c := by
  simp [State.loseBuffer, h]

/-! ### Reset -/

@[simp] theorem State.resetWith_status (P : Params) : (State.resetWith P).status = 0#32 := rfl
@[simp] theorem State.resetWith_fsm (P : Params) : (State.resetWith P).fsm = 0#32 := rfl
@[simp] theorem State.resetWith_buf (P : Params) (b : BufId) : (State.resetWith P).buf b = Buffer.reset := by
  cases b <;> rfl
@[simp] theorem State.resetWith_params (P : Params) : (State.resetWith P).params = P := rfl
@[simp] theorem State.resetWith_pending (P : Params) : (State.resetWith P).pending = [] := rfl
@[simp] theorem State.resetWith_rdata (P : Params) : (State.resetWith P).rdata = 0#32 := rfl
@[simp] theorem State.resetWith_draws (P : Params) : (State.resetWith P).draws = 0 := rfl
@[simp] theorem State.resetWith_x (P : Params) (i : Fin 8) : (State.resetWith P).x i = 0#32 := by
  simp [State.resetWith, State.x]

/-- Two states with the same fields are equal, the registers read one by one. -/
theorem State.ext_x {s t : State} (hx : ∀ i, t.x i = s.x i) (hst : t.status = s.status) (hf : t.fsm = s.fsm)
    (hb : ∀ b, t.buf b = s.buf b) (hP : t.params = s.params) (hp : t.pending = s.pending) (hr : t.rdata = s.rdata)
    (hd : t.draws = s.draws) : t = s := by
  have h0 : t.buf0 = s.buf0 := hb .b0
  have h1 : t.buf1 = s.buf1 := hb .b1
  have hregs : t.regs = s.regs := Vector.ext fun i hi => hx ⟨i, hi⟩
  cases s; cases t; simp_all

end Sys2Proof.Machine
end

