-- ==== Sys2Proof/Laws/Memory.lean ====
section
/-! SUPPORT. The laws of memory: a read after a write, the canonical form kept by every operation, and the same at the
level of the state's buffers. -/

namespace Sys2Proof.Machine

/-! ### Cells -/

/-- A write changes what is listed at its address alone. -/
theorem cellAt_setCell (l : List Host.Cell) (hl : l.Pairwise (fun p q => p.1 < q.1)) (a k : Nat) (v : Byte) :
    cellAt (setCell l a v) k = if k = a then some v else cellAt l k := by
  induction l with
  | nil => simp [setCell, cellAt, eq_comm]
  | cons p rest ih =>
    obtain ⟨pk, pw⟩ := p
    have ih := ih (List.pairwise_cons.1 hl).2
    simp only [setCell]
    split
    · simp only [cellAt, eq_comm]
    · split
      · next h =>
        subst h
        simp only [cellAt]
        by_cases hk : k = a
        · simp [hk]
        · simp [hk, Ne.symm hk]
      · next h =>
        simp only [cellAt, ih]
        by_cases hk : k = a
        · subst hk
          simp [Ne.symm h]
        · simp [hk]

/-- The addresses listed after a write: those listed before, and the one written. -/
theorem mem_setCell {l : List Host.Cell} {a : Nat} {v : Byte} {p : Host.Cell} (h : p ∈ setCell l a v) :
    p = (a, v) ∨ p ∈ l := by
  induction l with
  | nil => simpa [setCell] using h
  | cons q rest ih =>
    simp only [setCell] at h
    split at h
    · simpa using h
    · split at h
      · rcases List.mem_cons.1 h with h | h
        · exact .inl h
        · exact .inr (List.mem_cons_of_mem _ h)
      · rcases List.mem_cons.1 h with h | h
        · exact .inr (by simp [h])
        · rcases ih h with h | h
          · exact .inl h
          · exact .inr (List.mem_cons_of_mem _ h)

/-- A write keeps the addresses strictly rising. -/
theorem setCell_pairwise {l : List Host.Cell} (hl : l.Pairwise (fun p q => p.1 < q.1)) (a : Nat) (v : Byte) :
    (setCell l a v).Pairwise (fun p q => p.1 < q.1) := by
  induction l with
  | nil => simp [setCell]
  | cons p rest ih =>
    obtain ⟨h1, h2⟩ := List.pairwise_cons.1 hl
    simp only [setCell]
    split
    · next h =>
      refine List.pairwise_cons.2 ⟨fun q hq => ?_, hl⟩
      rcases List.mem_cons.1 hq with rfl | hq
      · exact h
      · exact Nat.lt_trans h (h1 q hq)
    · split
      · next h => subst h; exact List.pairwise_cons.2 ⟨h1, h2⟩
      · next h h' =>
        refine List.pairwise_cons.2 ⟨fun q hq => ?_, ih h2⟩
        rcases mem_setCell hq with rfl | hq
        · exact Nat.lt_of_le_of_ne (Nat.le_of_not_lt h) (Ne.symm h')
        · exact h1 q hq

/-! ### Memory -/

/-- Writing a byte keeps the canonical form. -/
theorem Memory.write_wf {m : Memory} (h : m.wf) (j : Nat) (v : Byte) : (m.write j v).wf := setCell_pairwise h j v

/-- Writing bytes keeps the canonical form. -/
theorem Memory.writeBytes_wf {m : Memory} (h : m.wf) (j : Nat) (l : List Byte) : (m.writeBytes j l).wf := by
  induction l generalizing m j with
  | nil => exact h
  | cons v vs ih => exact ih (Memory.write_wf h j v) (j + 1)

/-- A memory of unspecified bytes has the canonical form. -/
theorem Memory.unspecified_wf (fill : Nat) : (Memory.unspecified fill).wf := List.Pairwise.nil

/-- The memories after reset have the canonical form. -/
theorem State.reset_wf (b : BufId) : (State.reset.buf b).mem.wf := by
  simp [State.reset, Buffer.reset, Memory.wf]

@[simp] theorem Memory.write_fill (m : Memory) (j : Nat) (v : Byte) : (m.write j v).fill = m.fill := rfl

@[simp] theorem Memory.writeBytes_fill (m : Memory) (j : Nat) (l : List Byte) : (m.writeBytes j l).fill = m.fill := by
  induction l generalizing m j with
  | nil => rfl
  | cons v vs ih => simp [Memory.writeBytes, ih]

/-- A read after a write: the byte written, and every other byte as before. -/
theorem Memory.read_write (b : BufId) {m : Memory} (h : m.wf) (j k : Nat) (v : Byte) :
    (m.write j v).read b k = if k = j then v else m.read b k := by
  simp only [Memory.read, Memory.write, cellAt_setCell m.cells h]
  by_cases hk : k = j <;> simp [hk]

/-- A read after writing bytes: those written at their places, and every other byte as before. -/
theorem Memory.read_writeBytes (b : BufId) {m : Memory} (h : m.wf) (j k : Nat) (l : List Byte) :
    (m.writeBytes j l).read b k = if j ≤ k ∧ k < j + l.length then l.getD (k - j) 0#8 else m.read b k := by
  induction l generalizing m j with
  | nil =>
    have h0 : ¬(j ≤ k ∧ k < j + ([] : List Byte).length) := by simp
    rw [if_neg h0, Memory.writeBytes]
  | cons v vs ih =>
    rw [Memory.writeBytes, ih (Memory.write_wf h j v), Memory.read_write b h]
    by_cases h1 : k = j
    · subst h1; simp
    · by_cases h2 : j + 1 ≤ k ∧ k < j + 1 + vs.length
      · have h3 : j ≤ k ∧ k < j + (v :: vs).length := by simp; omega
        have h4 : k - j = (k - (j + 1)) + 1 := by omega
        rw [if_pos h2, if_pos h3, h4]
        simp
      · have h3 : ¬(j ≤ k ∧ k < j + (v :: vs).length) := by simp; omega
        rw [if_neg h2, if_neg h1, if_neg h3]

/-- The addresses listed after writing bytes. -/
theorem Memory.mem_writeBytes {m : Memory} {j : Nat} {l : List Byte} {p : Host.Cell}
    (h : p ∈ (m.writeBytes j l).cells) : p ∈ m.cells ∨ (j ≤ p.1 ∧ p.1 < j + l.length) := by
  induction l generalizing m j with
  | nil => exact .inl h
  | cons v vs ih =>
    rcases ih h with h | h
    · rcases mem_setCell h with rfl | h
      · exact .inr ⟨Nat.le_refl _, by simp⟩
      · exact .inl h
    · exact .inr ⟨by omega, by simp; omega⟩

/-! ### Buffers of the state -/

variable (s : State)

@[simp] theorem State.setX_byteAt (i : Fin 8) (v : Word) (b : BufId) (j : Nat) :
    (s.setX i v).byteAt b j = s.byteAt b j := by simp [State.byteAt]
@[simp] theorem State.setX_blen (i : Fin 8) (v : Word) (b : BufId) : (s.setX i v).blen b = s.blen b := by
  simp [State.blen]
@[simp] theorem State.setX_bord (i : Fin 8) (v : Word) (b : BufId) : (s.setX i v).bord b = s.bord b := by
  simp [State.bord]
@[simp] theorem State.succeed_byteAt (b : BufId) (j : Nat) : s.succeed.byteAt b j = s.byteAt b j := by
  simp [State.byteAt]
@[simp] theorem State.succeed_blen (b : BufId) : s.succeed.blen b = s.blen b := by simp [State.blen]
@[simp] theorem State.succeed_bord (b : BufId) : s.succeed.bord b = s.bord b := by simp [State.bord]
@[simp] theorem State.setFsm_byteAt (v : Word) (b : BufId) (j : Nat) : (s.setFsm v).byteAt b j = s.byteAt b j := by
  simp [State.byteAt]
@[simp] theorem State.setFsm_blen (v : Word) (b : BufId) : (s.setFsm v).blen b = s.blen b := by simp [State.blen]
@[simp] theorem State.setFsm_bord (v : Word) (b : BufId) : (s.setFsm v).bord b = s.bord b := by simp [State.bord]
@[simp] theorem State.draw_byteAt (b : BufId) (j : Nat) : s.draw.byteAt b j = s.byteAt b j := by simp [State.byteAt]
@[simp] theorem State.draw_blen (b : BufId) : s.draw.blen b = s.blen b := by simp [State.blen]
@[simp] theorem State.draw_bord (b : BufId) : s.draw.bord b = s.bord b := by simp [State.bord]
@[simp] theorem State.reject_byteAt (e : ErrCode) (b : BufId) (j : Nat) :
    (s.reject e).byteAt b j = s.byteAt b j := by simp [State.byteAt]
@[simp] theorem State.reject_blen (e : ErrCode) (b : BufId) : (s.reject e).blen b = s.blen b := by simp [State.blen]
@[simp] theorem State.reject_bord (e : ErrCode) (b : BufId) : (s.reject e).bord b = s.bord b := by simp [State.bord]
@[simp] theorem State.loseResults_byteAt (b : BufId) (j : Nat) : s.loseResults.byteAt b j = s.byteAt b j := by
  simp [State.byteAt]
@[simp] theorem State.loseResults_blen (b : BufId) : s.loseResults.blen b = s.blen b := by simp [State.blen]
@[simp] theorem State.loseResults_bord (b : BufId) : s.loseResults.bord b = s.bord b := by simp [State.bord]

@[simp] theorem State.setLen_byteAt (b c : BufId) (n j : Nat) : (s.setLen b n).byteAt c j = s.byteAt c j := by
  simp only [State.byteAt, State.setLen, State.setBuf_buf]
  split
  · next h => subst h; rfl
  · rfl

@[simp] theorem State.setLen_bord (b c : BufId) (n : Nat) : (s.setLen b n).bord c = s.bord c := by
  simp only [State.bord, State.setLen, State.setBuf_buf]
  split
  · next h => subst h; rfl
  · rfl

/-- A length write changes that length alone. -/
theorem State.setLen_blen (b c : BufId) (n : Nat) :
    (s.setLen b n).blen c = if b = c then n % 2 ^ 32 else s.blen c := by
  simp only [State.blen, State.setLen, State.setBuf_buf]
  split <;> simp

/-- A tag write changes that tag alone. -/
theorem State.setOrd_bord (b c : BufId) (v : Bool) : (s.setOrd b v).bord c = if b = c then v else s.bord c := by
  simp only [State.bord, State.setOrd, State.setBuf_buf]
  split <;> simp

@[simp] theorem State.setOrd_byteAt (b c : BufId) (v : Bool) (j : Nat) : (s.setOrd b v).byteAt c j = s.byteAt c j := by
  simp only [State.byteAt, State.setOrd, State.setBuf_buf]
  split
  · next h => subst h; rfl
  · rfl

@[simp] theorem State.setOrd_blen (b c : BufId) (v : Bool) : (s.setOrd b v).blen c = s.blen c := by
  simp only [State.blen, State.setOrd, State.setBuf_buf]
  split
  · next h => subst h; rfl
  · rfl

@[simp] theorem State.writeBytes_blen (b c : BufId) (j : Nat) (l : List Byte) :
    (s.writeBytes b j l).blen c = s.blen c := by
  simp only [State.blen, State.writeBytes, State.setBuf_buf]
  split
  · next h => subst h; rfl
  · rfl

@[simp] theorem State.writeBytes_bord (b c : BufId) (j : Nat) (l : List Byte) :
    (s.writeBytes b j l).bord c = s.bord c := by
  simp only [State.bord, State.writeBytes, State.setBuf_buf]
  split
  · next h => subst h; rfl
  · rfl

/-- What every byte of every buffer reads as after bytes are written to a buffer in canonical form. -/
theorem State.writeBytes_byteAt {s : State} {b : BufId} (h : (s.buf b).mem.wf) (c : BufId) (j k : Nat)
    (l : List Byte) :
    (s.writeBytes b j l).byteAt c k =
      if b = c ∧ j ≤ k ∧ k < j + l.length then l.getD (k - j) 0#8 else s.byteAt c k := by
  simp only [State.byteAt, State.writeBytes, State.setBuf_buf]
  by_cases hb : b = c
  · subst hb; simp [Memory.read_writeBytes b h]
  · simp [hb]

/-- A buffer that is not written to keeps every byte, whatever the form of the other. -/
@[simp] theorem State.writeBytes_byteAt_ne {b c : BufId} (h : b ≠ c) (j k : Nat) (l : List Byte) :
    (s.writeBytes b j l).byteAt c k = s.byteAt c k := by
  simp [State.byteAt, State.writeBytes, h]

@[simp] theorem State.produce_bord (b c : BufId) (l : List Byte) (n : Nat) :
    (s.produce b l n).bord c = s.bord c := by simp [State.produce]

/-- What every byte of every buffer reads as after a buffer is produced (R56). -/
theorem State.produce_byteAt {s : State} {b : BufId} (h : (s.buf b).mem.wf) (c : BufId) (k n : Nat) (l : List Byte) :
    (s.produce b l n).byteAt c k = if b = c ∧ k < l.length then l.getD k 0#8 else s.byteAt c k := by
  simp [State.produce, State.writeBytes_byteAt h]

/-- The lengths after a buffer is produced (R56). -/
theorem State.produce_blen (b c : BufId) (l : List Byte) (n : Nat) :
    (s.produce b l n).blen c = if b = c then n % 2 ^ 32 else s.blen c := by
  simp [State.produce, State.setLen_blen]

/-- A buffer other than the one produced is as before, whatever the form of that one. -/
@[simp] theorem State.produce_buf_ne {b c : BufId} (h : b ≠ c) (l : List Byte) (n : Nat) :
    (s.produce b l n).buf c = s.buf c := by
  simp [State.produce, State.setLen, State.writeBytes, h]

@[simp] theorem State.loseBuffer_bord (b c : BufId) : (s.loseBuffer b).bord c = s.bord c := by
  simp only [State.bord, State.loseBuffer, State.setBuf_buf]
  split
  · next h => subst h; rfl
  · rfl

/-- The length a failure leaves in the destination is within the capacity (R57). -/
theorem State.loseBuffer_blen_le (b : BufId) : (s.loseBuffer b).blen b ≤ s.capBits := by
  simp only [State.blen, State.loseBuffer, State.setBuf_buf_same, BitVec.toNat_ofNat]
  have h := Nat.mod_lt (Config.freeWord s.draws 0).toNat (Nat.succ_pos s.capBits)
  exact Nat.le_trans (Nat.mod_le _ _) (Nat.le_of_lt_succ h)

end Sys2Proof.Machine
end

