-- ==== Sys2Proof/Laws/Bits.lean ====
section
/-! SUPPORT. Bits and bytes: the bit at each place of `wordOfBits`, `bitsOfWord`, `pack`, `streamBits`, `unpack`, `packOrd`,
their lengths and inverses, and the views of a buffer. Normal form of a bit of a list: `l.getD i false`. -/

namespace Sys2Proof.Machine

/-! ### Words and bit lists -/

@[simp] theorem getLsbD_wordOfBits (w : Nat) (l : List Bool) (i : Nat) :
    (wordOfBits w l).getLsbD i = (decide (i < w) && l.getD i false) := by
  induction l generalizing i with
  | nil => simp [wordOfBits]
  | cons b bs ih =>
    have h1 : (if b = true then 1#w else 0#w).getLsbD i = (decide (i < w) && (decide (i = 0) && b)) := by
      cases b <;> by_cases h0 : i = 0 <;> simp [h0, BitVec.getLsbD_one]
    cases i with
    | zero => simp [wordOfBits, h1]
    | succ i =>
      simp only [wordOfBits, BitVec.getLsbD_or, BitVec.getLsbD_shiftLeft, ih, h1]
      by_cases h : i + 1 < w
      · have : i < w := by omega
        simp [h, this]
      · simp [h]

@[simp] theorem length_bitsOfWord {w : Nat} (v : BitVec w) : (bitsOfWord v).length = w := by simp [bitsOfWord]

@[simp] theorem getD_bitsOfWord {w : Nat} (v : BitVec w) (i : Nat) : (bitsOfWord v).getD i false = v.getLsbD i := by
  by_cases h : i < w
  · simp [bitsOfWord, h]
  · rw [BitVec.getLsbD_of_ge v i (by omega)]
    simp [bitsOfWord, h]

/-- Two bit lists of one length with the same bits are equal. -/
theorem bits_ext {a b : List Bool} (hl : a.length = b.length)
    (h : ∀ i, i < a.length → a.getD i false = b.getD i false) : a = b := by
  refine List.ext_getElem hl fun i h1 h2 => ?_
  have := h i h1
  rwa [List.getD_eq_getElem _ _ h1, List.getD_eq_getElem _ _ h2] at this

@[simp] theorem wordOfBits_bitsOfWord {w : Nat} (v : BitVec w) : wordOfBits w (bitsOfWord v) = v := by
  refine BitVec.eq_of_getLsbD_eq fun i hi => ?_
  rw [getLsbD_wordOfBits, getD_bitsOfWord]
  simp [hi]

theorem bitsOfWord_wordOfBits {w : Nat} {l : List Bool} (h : l.length = w) : bitsOfWord (wordOfBits w l) = l := by
  refine bits_ext (by simp [h]) fun i hi => ?_
  rw [getD_bitsOfWord, getLsbD_wordOfBits]
  simp only [length_bitsOfWord] at hi
  simp [hi]

/-! ### `pack` -/

@[simp] theorem length_packBytes (n : Nat) (l : List Bool) : (packBytes n l).length = n := by
  induction n generalizing l with
  | zero => rfl
  | succ n ih => simp [packBytes, ih]

@[simp] theorem length_pack (l : List Bool) : (pack l).length = ceil8 l.length := by simp [pack]

theorem getD_packBytes (n : Nat) (l : List Bool) (k : Nat) :
    (packBytes n l).getD k 0#8 = if k < n then wordOfBits 8 ((l.drop (8 * k)).take 8) else 0#8 := by
  induction n generalizing l k with
  | zero => simp [packBytes]
  | succ n ih =>
    cases k with
    | zero => simp [packBytes]
    | succ k =>
      simp only [packBytes, List.getD_cons_succ, ih, List.drop_drop, Nat.add_lt_add_iff_right]
      congr 4
      omega

/-- Bit `i` of byte `k` of `pack l` is bit `8 * k + i` of `l`, 0 past its end (R50). -/
theorem getLsbD_pack (l : List Bool) (k i : Nat) (hi : i < 8) :
    ((pack l).getD k 0#8).getLsbD i = l.getD (8 * k + i) false := by
  simp only [pack, getD_packBytes]
  split
  · simp only [getLsbD_wordOfBits, hi, decide_true, Bool.true_and, List.getD_eq_getElem?_getD, List.getElem?_take,
      List.getElem?_drop, if_true]
  · next h =>
    have : l.length ≤ 8 * k + i := by unfold ceil8 at h; omega
    simp [this]

/-! ### Stream order -/

@[simp] theorem streamBits_nil : streamBits [] = [] := rfl

@[simp] theorem streamBits_cons (x : Byte) (l : List Byte) : streamBits (x :: l) = bitsOfWord x ++ streamBits l := rfl

@[simp] theorem streamBits_append (a b : List Byte) : streamBits (a ++ b) = streamBits a ++ streamBits b := by
  simp [streamBits]

@[simp] theorem length_streamBits (l : List Byte) : (streamBits l).length = 8 * l.length := by
  induction l with
  | nil => rfl
  | cons x l ih => simp [ih]; omega

/-- Bit `i` of a byte sequence in stream order (R9). -/
theorem getD_streamBits (l : List Byte) (i : Nat) :
    (streamBits l).getD i false = (l.getD (i / 8) 0#8).getLsbD (i % 8) := by
  induction l generalizing i with
  | nil => simp
  | cons x l ih =>
    by_cases h : i < 8
    · have h8 : i / 8 = 0 := by omega
      have hm : i % 8 = i := by omega
      rw [streamBits_cons, List.getD_append _ _ _ _ (by simpa using h), getD_bitsOfWord, h8, hm]
      simp
    · have h8 : i / 8 = (i - 8) / 8 + 1 := by omega
      have hm : i % 8 = (i - 8) % 8 := by omega
      rw [streamBits_cons, List.getD_append_right _ _ _ _ (by simpa using h), h8, hm, length_bitsOfWord, ih]
      simp

/-- Packing the bits of bytes gives the bytes. -/
@[simp] theorem pack_streamBits (l : List Byte) : pack (streamBits l) = l := by
  refine List.ext_getElem (by simp [ceil8]; omega) fun k h1 h2 => ?_
  refine BitVec.eq_of_getLsbD_eq fun i hi => ?_
  have := getLsbD_pack (streamBits l) k i hi
  rw [List.getD_eq_getElem _ _ h1] at this
  rw [this, getD_streamBits]
  have h8 : (8 * k + i) / 8 = k := by omega
  have hm : (8 * k + i) % 8 = i := by omega
  rw [h8, hm, List.getD_eq_getElem _ _ h2]

/-- The bits of packed bits: the bits, then zeros to a whole byte. -/
theorem streamBits_pack (l : List Bool) :
    streamBits (pack l) = l ++ List.replicate (8 * ceil8 l.length - l.length) false := by
  have hc : l.length ≤ 8 * ceil8 l.length := by unfold ceil8; omega
  refine bits_ext (by simp; omega) fun i hi => ?_
  have h := getLsbD_pack l (i / 8) (i % 8) (by omega)
  rw [getD_streamBits, h, Nat.div_add_mod]
  by_cases hl : i < l.length
  · rw [List.getD_append _ _ _ _ hl]
  · simp [List.getElem?_append, hl, List.getElem?_replicate]
    split <;> simp

/-- Unpacking packed bits gives the bits (R50). -/
@[simp] theorem unpack_pack (l : List Bool) : unpack (pack l) l.length = l := by
  simp [unpack, streamBits_pack]

theorem length_unpack {l : List Byte} {n : Nat} (h : n ≤ 8 * l.length) : (unpack l n).length = n := by
  simp [unpack, h]

/-- Bit `i` of the first `n` bits of bytes in stream order. -/
theorem getD_unpack (l : List Byte) (n i : Nat) :
    (unpack l n).getD i false = (decide (i < n) && (l.getD (i / 8) 0#8).getLsbD (i % 8)) := by
  rw [← getD_streamBits]
  by_cases h : i < n
  · simp [unpack, h]
  · simp [unpack, h]

/-! ### Packing under a tag -/

@[simp] theorem length_packOrd (ord : Bool) (l : List Bool) : (packOrd ord l).length = ceil8 l.length := by
  cases ord <;> simp [packOrd]

/-- Bit index `i` of bytes packed under a tag, read under that tag, is bit `i` of the list (R48). -/
theorem getLsbD_packOrd (ord : Bool) (l : List Bool) (i : Nat) (h : i < 8 * ceil8 l.length) :
    ((packOrd ord l).getD (i / 8) 0#8).getLsbD (bitPos ord i) = l.getD i false := by
  have hk : i / 8 < (pack l).length := by rw [length_pack]; omega
  have key := getLsbD_pack l (i / 8) (i % 8) (by omega)
  rw [Nat.div_add_mod] at key
  rw [← key]
  cases ord
  · rfl
  · have hk' : i / 8 < ((pack l).map BitVec.reverse).length := by simpa using hk
    simp only [packOrd, bitPos, if_true]
    rw [List.getD_eq_getElem _ _ hk', List.getD_eq_getElem _ _ hk, List.getElem_map, BitVec.getLsbD_reverse,
      BitVec.getMsbD_eq_getLsbD]
    have h1 : 7 - i % 8 < 8 := by omega
    have h2 : 8 - 1 - (7 - i % 8) = i % 8 := by omega
    simp only [h1, decide_true, Bool.true_and, h2]

/-! ### The bits of a buffer -/

/-- A position inside a byte, under either tag. -/
theorem bitPos_lt (ord : Bool) (i : Nat) : bitPos ord i < 8 := by
  cases ord <;> simp [bitPos] <;> omega

@[simp] theorem State.length_bytes (s : State) (b : BufId) (n : Nat) : (s.bytes b n).length = n := by
  simp [State.bytes]

theorem State.getD_bytes (s : State) (b : BufId) (n j : Nat) :
    (s.bytes b n).getD j 0#8 = if j < n then s.byteAt b j else 0#8 := by
  by_cases h : j < n <;> simp [State.bytes, h]

/-- The stream-order bits of a buffer, one by one (R9). -/
theorem State.streamOf_eq (s : State) (b : BufId) (n : Nat) :
    s.streamOf b n = (List.range n).map (fun i => (s.byteAt b (i / 8)).getLsbD (i % 8)) := by
  have hn : n ≤ 8 * ceil8 n := by unfold ceil8; omega
  refine bits_ext ?_ fun i hi => ?_
  · simp [State.streamOf, length_unpack, hn]
  · have hi : i < n := by simpa [State.streamOf, length_unpack, hn] using hi
    have h8 : i / 8 < ceil8 n := by unfold ceil8; omega
    rw [State.streamOf, getD_unpack, State.getD_bytes]
    simp [hi, h8]

@[simp] theorem State.length_streamOf (s : State) (b : BufId) (n : Nat) : (s.streamOf b n).length = n := by
  simp [State.streamOf_eq]

@[simp] theorem State.length_rdBits (s : State) (b : BufId) (i n : Nat) : (s.rdBits b i n).length = n := by
  simp [State.rdBits]

end Sys2Proof.Machine
end

