-- ==== Sys2Proof/Laws/Ops.lean ====
section
/-! SUPPORT. What the shared completions of a command can do, said once for the proofs that cite them. -/

namespace Sys2Proof.Machine

/-! ### Checks -/

@[simp] theorem firstFailure_nil : firstFailure [] = none := rfl

/-- The first check that fails decides (R76). -/
@[simp] theorem firstFailure_cons (h : Bool) (e : ErrCode) (rest : List (Bool × ErrCode)) :
    firstFailure ((h, e) :: rest) = if h then firstFailure rest else some e := rfl

/-- All checks hold exactly when none fails. -/
theorem firstFailure_eq_none {cs : List (Bool × ErrCode)} : firstFailure cs = none ↔ ∀ c ∈ cs, c.1 = true := by
  induction cs with
  | nil => simp
  | cons c cs ih =>
    obtain ⟨h, e⟩ := c
    cases h <;> simp [ih]

/-- A command that runs its checks ends in a rejection by one of them, or as its body says (R76). -/
theorem State.checked_cases (s : State) (cs : List (Bool × ErrCode)) (body : State) :
    (∃ e, firstFailure cs = some e ∧ s.checked cs body = s.reject e) ∨
      (firstFailure cs = none ∧ s.checked cs body = body) := by
  unfold State.checked
  cases h : firstFailure cs with
  | some e => exact .inl ⟨e, rfl, rfl⟩
  | none => exact .inr ⟨rfl, rfl⟩

/-- Every check holds: the command ends as its body says. -/
theorem State.checked_pass {s : State} {cs : List (Bool × ErrCode)} {body : State} (h : firstFailure cs = none) :
    s.checked cs body = body := by simp [State.checked, h]

/-- A check fails: the command is rejected with its code. -/
theorem State.checked_fail {s : State} {cs : List (Bool × ErrCode)} {body : State} {e : ErrCode}
    (h : firstFailure cs = some e) : s.checked cs body = s.reject e := by simp [State.checked, h]

/-! ### The status word -/

@[simp] theorem errField_statusErr (st : Word) (e : ErrCode) : errField (statusErr st e) = e.code := by
  cases e <;> simp only [errField, statusErr, withErr, ErrCode.code] <;> ext i hi <;>
    simp <;> interval_cases i <;> simp

@[simp] theorem errField_statusOk (st : Word) : errField (statusOk st) = 0#32 := by
  simp only [errField, statusOk, withErr, ErrCode.code]
  ext i hi
  simp
  interval_cases i <;> simp

@[simp] theorem stickyBit_statusErr (st : Word) (e : ErrCode) : stickyBit (statusErr st e) = true := by
  cases e <;> simp [stickyBit, statusErr, withErr, ErrCode.code]

@[simp] theorem stickyBit_statusOk (st : Word) : stickyBit (statusOk st) = stickyBit st := by
  simp [stickyBit, statusOk, withErr, ErrCode.code]

/-- A rejection is what `Rejected` says of it (R57, R224). -/
theorem State.reject_rejected (s : State) (e : ErrCode) : Rejected e s (s.reject e) := by
  refine ⟨by simp, by simp, ?_, by simp, by simp, by simp, by simp, by simp, by simp, by simp⟩
  cases e <;> simp only [State.reject_status, statusErr, withErr, ErrCode.code] <;> ext i hi <;> simp <;>
    interval_cases i <;> simp

/-- A success writes the status as `StatusOk` says (R76). -/
theorem StatusOk.succeed {s t : State} (h : t.status = s.status) : StatusOk s t.succeed := by
  refine ⟨by simp, ?_⟩
  simp only [State.succeed_status, statusOk, withErr, ErrCode.code, h]
  ext i hi
  simp

/-! ### Failure in flight -/

/-- All that a failure in flight does (R57, R224): the status, free results, a free destination, one draw; nothing else. -/
theorem State.failInFlight_spec (s : State) (e : ErrCode) (db : Option BufId) :
    (s.failInFlight e db).status = statusErr s.status e ∧ (s.failInFlight e db).fsm = s.fsm ∧
      (s.failInFlight e db).params = s.params ∧ (s.failInFlight e db).pending = s.pending ∧
      (s.failInFlight e db).rdata = s.rdata ∧ (s.failInFlight e db).draws = s.draws + 1 ∧
      (∀ i, (s.failInFlight e db).x i = if i.val < 4 then s.x i else Config.freeWord s.draws i.val) ∧
      (∀ b, (s.failInFlight e db).bord b = s.bord b) ∧
      (∀ b, db ≠ some b → (s.failInFlight e db).buf b = s.buf b) ∧
      (∀ b, db = some b → (s.failInFlight e db).blen b ≤ s.capBits ∧
        ((s.failInFlight e db).buf b).mem = Memory.unspecified (s.draws + 1)) := by
  cases db with
  | none => simp [State.failInFlight, State.loseResults_x]
  | some b =>
    simp only [State.failInFlight]
    refine ⟨by simp, by simp, by simp, by simp, by simp, by simp, fun i => by simp [State.loseResults_x],
      by simp, fun c h => ?_, fun c h => ?_⟩
    · have hbc : b ≠ c := fun h' => h (by rw [h'])
      simp [hbc]
    · obtain rfl : b = c := Option.some.inj h
      refine ⟨?_, by simp [State.loseBuffer]⟩
      simpa [State.capBits] using State.loseBuffer_blen_le (s.reject e).loseResults b

end Sys2Proof.Machine
end

