-- ==== Sys2Proof/Laws/PerInstr.lean ====
section
/-! SUPPORT. Statements about every command as syntax, one lemma per constructor. `ReservedZero`: the reserved bits 31:18 of
every command word are 0 (spec 30_encoding.md R67). -/

namespace Sys2Proof.Laws

/-- Bits 31:18 of the command's word are 0 (R67). -/
def ReservedZero.Statement (i : Instr) : Prop := encode i &&& 0xFFFC0000#32 = 0#32

theorem ReservedZero.rdbit (sb : BufId) : ReservedZero.Statement (.rdbit sb) := by
  cases sb <;> rfl

theorem ReservedZero.wrbit (sb : BufId) : ReservedZero.Statement (.wrbit sb) := by
  cases sb <;> rfl

theorem ReservedZero.rev (w : RevWidth) : ReservedZero.Statement (.rev w) := by
  cases w <;> rfl

theorem ReservedZero.whiten (sb : BufId) : ReservedZero.Statement (.whiten sb) := by
  cases sb <;> rfl

theorem ReservedZero.rscenc (sb : BufId) (db : BufId) : ReservedZero.Statement (.rscenc sb db) := by
  cases sb <;> cases db <;> rfl

theorem ReservedZero.nrnscenc (sb : BufId) (db : BufId) : ReservedZero.Statement (.nrnscenc sb db) := by
  cases sb <;> cases db <;> rfl

theorem ReservedZero.rscdec (sb : BufId) (db : BufId) : ReservedZero.Statement (.rscdec sb db) := by
  cases sb <;> cases db <;> rfl

theorem ReservedZero.nrnscdec (sb : BufId) (db : BufId) : ReservedZero.Statement (.nrnscdec sb db) := by
  cases sb <;> cases db <;> rfl

theorem ReservedZero.ilv (sb : BufId) : ReservedZero.Statement (.ilv sb) := by
  cases sb <;> rfl

theorem ReservedZero.fcs32 (sb : BufId) : ReservedZero.Statement (.fcs32 sb) := by
  cases sb <;> rfl

theorem ReservedZero.fcschk (sb : BufId) : ReservedZero.Statement (.fcschk sb) := by
  cases sb <;> rfl

theorem ReservedZero.fcsapp (sb : BufId) : ReservedZero.Statement (.fcsapp sb) := by
  cases sb <;> rfl

theorem ReservedZero.shrdet (sb : BufId) : ReservedZero.Statement (.shrdet sb) := by
  cases sb <;> rfl

theorem ReservedZero.phrenc : ReservedZero.Statement .phrenc := by
  rfl

theorem ReservedZero.phrdec : ReservedZero.Statement .phrdec := by
  rfl

theorem ReservedZero.frmdec (sb : BufId) (db : BufId) (skipv : Bool) : ReservedZero.Statement (.frmdec sb db skipv) := by
  cases sb <;> cases db <;> cases skipv <;> rfl

theorem ReservedZero.frmenc (sb : BufId) (db : BufId) (fam : Family) (dw : Bool) (sfd : SfdType) (fcst : Bool) :
    ReservedZero.Statement (.frmenc sb db fam dw sfd fcst) := by
  cases sb <;> cases db <;> cases fam <;> cases dw <;> cases sfd <;> cases fcst <;> rfl

end Sys2Proof.Laws
end

