-- ==== Sys2Proof/Laws/Step.lean ====
section
/-! SUPPORT. What a host access and a step can do, said once for the proofs that cite them, and the lengths of the codec's byte
sequences. -/

namespace Sys2Proof.Machine

/-- All that a completed host access can do: a read changes the data returned, a write does what `busWrite` says. -/
theorem busAccess_done {a : HostAccess} {s t : State} (h : busAccess a s = .done t) :
    (∃ off n item, a = .read off n ∧ busItem s.params off n = .ok item ∧ t = { s with rdata := busRead s item }) ∨
    ∃ off n v item, a = .write off n v ∧ busItem s.params off n = .ok item ∧ item ≠ .cmd ∧ t = busWrite s v item := by
  cases a with
  | read off n =>
    simp only [busAccess] at h
    split at h
    · next item hi => exact .inl ⟨off, n, item, rfl, hi, by simpa using h.symm⟩
    · simp at h
  | write off n v =>
    simp only [busAccess] at h
    split at h
    · simp at h
    · next item hne hi => exact .inr ⟨off, n, v, item, rfl, hi, hne, by simpa using h.symm⟩
    · simp at h

/-- The only access that starts a command is a write to `CMD`, and it changes no state itself. -/
theorem busAccess_command {a : HostAccess} {s t : State} {w : Word} (h : busAccess a s = .command w t) :
    ∃ off n, a = .write off n w ∧ busItem s.params off n = .ok .cmd ∧ t = s := by
  cases a with
  | read off n =>
    simp only [busAccess] at h
    split at h <;> simp at h
  | write off n v =>
    simp only [busAccess] at h
    split at h
    · next hi =>
      obtain ⟨rfl, rfl⟩ : v = w ∧ s = t := by simpa using h
      exact ⟨off, n, rfl, hi, rfl⟩
    · simp at h
    · simp at h

/-- All that a step can do: nothing, a host access, or the command that a write to `CMD` starts. -/
theorem step_cases {s t : State} (h : step s = .next t) :
    (s.pending = [] ∧ t = s) ∨
    ∃ a rest, s.pending = a :: rest ∧
      (busAccess a { s with pending := rest } = .done t ∨
        ∃ w, busAccess a { s with pending := rest } = .command w { s with pending := rest } ∧
          runCommand w { s with pending := rest } = .next t) := by
  unfold step at h
  split at h
  · next hp => exact .inl ⟨hp, by simpa using h.symm⟩
  · next a rest hp =>
    refine .inr ⟨a, rest, hp, ?_⟩
    split at h
    · next u hu => exact .inl (by rw [hu]; simpa using h)
    · next w u hu =>
      obtain ⟨-, -, -, -, rfl⟩ := busAccess_command hu
      exact .inr ⟨w, hu, h⟩
    · simp at h

/-- What a command word does: the command it encodes, or the rejection of an illegal word. -/
theorem runCommand_cases (w : Word) (s : State) :
    (∃ i, decode w = .ok i ∧ runCommand w s = exec i s) ∨
    ((∃ e, decode w = .error e) ∧ runCommand w s = .next (s.reject .illegal)) := by
  unfold runCommand
  split
  · next i hi => exact .inl ⟨i, hi, rfl⟩
  · next e he => exact .inr ⟨⟨e, he⟩, rfl⟩

/-! ### Lengths -/

@[simp] theorem length_whiten (out : Pn9Out) (l : List Byte) : (whiten out l).length = l.length := by simp [whiten]

@[simp] theorem length_wordBytes (v : Word) : (wordBytes v).length = 4 := rfl

@[simp] theorem length_fcs32Trailer (l : List Byte) : (fcs32Trailer l).length = 4 := rfl

@[simp] theorem length_ilvBlock (v : IlvVariant) (x0 x1 x2 x3 : Byte) : (ilvBlock v [x0, x1, x2, x3]).length = 4 := by
  have h : ∀ l : List (BitVec 2), l.length = 16 → (symbolsBytes l).length = 4 := by
    intro l hl
    match l, hl with
    | [_, _, _, _, _, _, _, _, _, _, _, _, _, _, _, _], _ => rfl
  refine h _ ?_
  have hf : ∀ (is : List Nat) (src dst : List (BitVec 2)),
      (is.foldl (fun d i => d.set (ilvTarget v i) (src.getD i 0#2)) dst).length = dst.length := by
    intro is
    induction is with
    | nil => intro src dst; rfl
    | cons i is ih => intro src dst; rw [List.foldl_cons, ih, List.length_set]
  rw [permuteSymbols, hf, List.length_replicate]

@[simp] theorem length_ilv (v : IlvVariant) (l : List Byte) : (ilv v l).length = l.length := by
  induction l using ilv.induct with
  | case1 x0 x1 x2 x3 rest ih => simp [ilv, ih]; omega
  | case2 short h => rw [ilv]; exact h

end Sys2Proof.Machine
end

