-- ==== Sys2Proof/Tests/Slice0.lean ====
section
/-! SUPPORT. Tests on small states, their expected values from the vector sets T1 to T11 of spec 95_test_vectors.md and the
tables it cites, and for each statement with hypotheses a state that meets them. Parameters are the defaults of R6. -/

open Sys2Proof Sys2Proof.Machine

namespace Sys2Proof.Tests

-- One theorem at a time: theorems that wait for one another each hold a thread.
set_option Elab.async false

/-! ### Helpers -/

/-- Bytes from their numbers. -/
def by8 (l : List Nat) : List Byte := l.map (BitVec.ofNat 8)

/-- Cells at consecutive addresses. -/
def cellsFrom : Nat → List Byte → List Host.Cell
  | _, [] => []
  | j, v :: vs => (j, v) :: cellsFrom (j + 1) vs

/-- A buffer holding bytes from index 0 on. -/
def buffer (bytes : List Byte) (len : Nat) (ord : Bool) : Buffer :=
  { mem := { cells := cellsFrom 0 bytes, fill := 0 }, len := BitVec.ofNat 32 len, ord := ord }

/-- The reset state with arguments and buffers given. -/
def started (x0 x1 : Nat) (b0 : List Byte := []) (l0 : Nat := 0) (b1 : List Byte := []) (l1 : Nat := 0)
    (o0 o1 : Bool := false) (P : Params := {}) : State :=
  { State.resetWith P with
    regs := #v[BitVec.ofNat 32 x0, BitVec.ofNat 32 x1, 0#32, 0#32, 0#32, 0#32, 0#32, 0#32]
    buf0 := buffer b0 l0 o0
    buf1 := buffer b1 l1 o1 }

/-- The state a command leaves. -/
def ran (i : Instr) (s : State) : Option State :=
  match exec i s with
  | .next t => some t
  | .fault _ => none
  | .refused _ => none

/-- The state a step leaves. -/
def stepped (s : State) : Option State :=
  match step s with
  | .next t => some t
  | .fault _ => none
  | .refused _ => none

/-- A state whose host makes the given accesses. -/
def hosted (l : List HostAccess) (s : State := started 0 0) : State := { s with pending := l }

theorem mem_cellsFrom {j : Nat} {l : List Byte} {p : Host.Cell} (h : p ∈ cellsFrom j l) :
    j ≤ p.1 ∧ p.1 < j + l.length := by
  induction l generalizing j with
  | nil => simp [cellsFrom] at h
  | cons v vs ih =>
    rcases List.mem_cons.1 h with rfl | h
    · simp
    · have := ih h
      simp only [List.length_cons]
      omega

theorem cellsFrom_pairwise (j : Nat) (l : List Byte) : (cellsFrom j l).Pairwise (fun p q => p.1 < q.1) := by
  induction l generalizing j with
  | nil => exact List.Pairwise.nil
  | cons v vs ih => exact List.Pairwise.cons (fun p hp => by have := mem_cellsFrom hp; simp; omega) (ih _)

/-- The states of the tests are states the machine can be in. -/
theorem started_inv {x0 x1 : Nat} {b0 b1 : List Byte} {l0 l1 : Nat} {o0 o1 : Bool} {P : Params}
    (h0 : b0.length ≤ P.capBytes) (h1 : b1.length ≤ P.capBytes) (k0 : l0 ≤ 8 * P.capBytes)
    (k1 : l1 ≤ 8 * P.capBytes) : (started x0 x1 b0 l0 b1 l1 o0 o1 P).Inv where
  memWf b := by cases b <;> exact cellsFrom_pairwise _ _
  memInside b p hp := by
    cases b
    · exact Nat.lt_of_lt_of_le (mem_cellsFrom (j := 0) hp).2 (by simpa [started, State.resetWith] using h0)
    · exact Nat.lt_of_lt_of_le (mem_cellsFrom (j := 0) hp).2 (by simpa [started, State.resetWith] using h1)
  lenInside b := by
    cases b
    · exact Nat.le_trans (Nat.mod_le _ _) k0
    · exact Nat.le_trans (Nat.mod_le _ _) k1
  status := (by decide : 0#32 &&& ~~~0x107#32 = 0#32)
  sticky h := absurd (by decide : errField 0#32 = 0#32) h
  fsm := (by unfold LegalFsm; decide : LegalFsm 0#32)
  fills b := by cases b <;> exact Nat.le_refl _

theorem hosted_inv {l : List HostAccess} {s : State} (h : s.Inv) : (hosted l s).Inv where
  memWf := h.memWf
  memInside := h.memInside
  lenInside := h.lenInside
  status := h.status
  sticky := h.sticky
  fsm := h.fsm
  fills := h.fills

/-- A list of one element. -/
theorem eq_singleton {c : List Bool} (h : c.length = 1) : c = [true] ∨ c = [false] := by
  match c, h with
  | [true], _ => exact .inl rfl
  | [false], _ => exact .inr rfl

/-! ### Well-formedness and decoding -/

/-- The one ill-formed term for the one check: the reserved reversal width (R67, R71). -/
theorem test_wellFormed_refuses_reserved_width : Instr.wellFormed (.rev .reserved) = false := by decide

theorem test_wellFormed_takes_the_others :
    [Instr.rev .w8, .rev .w16, .rev .w32, .frmdec .b0 .b0 true, .frmenc .b1 .b1 .rsc true .coded1 true].all
      Instr.wellFormed = true := by decide

/-- No word matches two rows of R70. -/
theorem test_rows_do_not_overlap :
    opRows.Pairwise (fun a b => (a.pattern ^^^ b.pattern) &&& (a.mask &&& b.mask) ≠ 0#32) := by decide +kernel

/-- One word for each command, its fields written out by R67, R68 and R70: 14 reserved bits, `FCST`, `SFD` (2), `DW`,
`SKIPV`, `FAM`, `W` (2), `DB`, `SB`, `OP` (8). -/
theorem test_decode_words :
    decode 0b00000000000000000000000100000001#32 = .ok (.rdbit .b1) ∧
    decode 0b00000000000000000000000100000010#32 = .ok (.wrbit .b1) ∧
    decode 0b00000000000000000000100000000011#32 = .ok (.rev .w32) ∧
    decode 0b00000000000000000000000100010000#32 = .ok (.whiten .b1) ∧
    decode 0b00000000000000000000001000100000#32 = .ok (.rscenc .b0 .b1) ∧
    decode 0b00000000000000000000000100100001#32 = .ok (.nrnscenc .b1 .b0) ∧
    decode 0b00000000000000000000001000100010#32 = .ok (.rscdec .b0 .b1) ∧
    decode 0b00000000000000000000000100100011#32 = .ok (.nrnscdec .b1 .b0) ∧
    decode 0b00000000000000000000000100110000#32 = .ok (.ilv .b1) := by decide +kernel

theorem test_decode_words_upper :
    decode 0b00000000000000000000000101000000#32 = .ok (.fcs32 .b1) ∧
    decode 0b00000000000000000000000101000001#32 = .ok (.fcschk .b1) ∧
    decode 0b00000000000000000000000001000010#32 = .ok (.fcsapp .b0) ∧
    decode 0b00000000000000000000000101010000#32 = .ok (.shrdet .b1) ∧
    decode 0b00000000000000000000000001010001#32 = .ok .phrenc ∧
    decode 0b00000000000000000000000001010010#32 = .ok .phrdec ∧
    decode 0b00000000000000000010001001100000#32 = .ok (.frmdec .b0 .b1 true) ∧
    decode 0b00000000000000010100001001100001#32 = .ok (.frmenc .b0 .b1 .nrnsc true .coded1 false) ∧
    decode 0b00000000000000101001000101100001#32 = .ok (.frmenc .b1 .b0 .rsc false .uncoded0 true) := by
  decide +kernel

/-- R71: why words encode no command. -/
theorem test_decode_rejections :
    decode 0x00000000#32 = .error (.unknownOp 0x00#8) ∧ decode 0x00040003#32 = .error .reservedBits ∧
    decode 0x00000151#32 = .error .strayField ∧ decode 0x00001003#32 = .error .strayField := by decide +kernel

/-! ### Bit buffer (T2) -/

theorem test_rdbit_values :
    [0, 1, 5, 7].map (fun i => (ran (.rdbit .b0) (started i 0 (by8 [0xA1]) 8)).map (·.x 4)) =
      [some 1#32, some 0#32, some 1#32, some 1#32] ∧
    [0, 1, 2, 7].map (fun i => (ran (.rdbit .b0) (started i 0 (by8 [0xA1]) 8 [] 0 true)).map (·.x 4)) =
      [some 1#32, some 0#32, some 1#32, some 1#32] := by decide +kernel

theorem test_rdbit_capacity :
    (ran (.rdbit .b0) (started 9 0 (by8 [0xFF, 0x01]) 9)).map (fun t => (t.status, t.x 4)) =
      some (0x103#32, 0#32) := by decide +kernel

theorem test_wrbit_orders :
    (ran (.wrbit .b0) (started 0 1 (by8 [0]) 8 [] 0 true)).map (·.byteAt .b0 0) = some 0x80#8 ∧
    (ran (.wrbit .b0) (started 0 1 (by8 [0]) 8)).map (·.byteAt .b0 0) = some 0x01#8 := by decide +kernel

theorem test_wrbit_value_is_checked_first :
    (ran (.wrbit .b0) (started 8 2 (by8 [0]) 8)).map (·.status) = some 0x107#32 := by decide +kernel

theorem test_rev_widths :
    (ran (.rev .w8) (started 0x1AA 0)).map (·.x 4) = some 0x55#32 ∧
    (ran (.rev .w16) (started 0x7FF 0)).map (·.x 4) = some 0xFFE0#32 ∧
    (ran (.rev .w32) (started 0x12345678 0)).map (·.x 4) = some 0x1E6A2C48#32 := by decide +kernel

theorem test_rev_reserved :
    (ran (.rev .reserved) (started 1 0)).map (fun t => (t.status, t.x 4)) = some (0x107#32, 0#32) := by decide +kernel

/-! ### Whitening (T3) -/

theorem test_whiten_bytes :
    (ran (.whiten .b0) (started 4 0 (by8 [0, 0, 0, 0, 0xFF, 0x12]) 48)).map (·.bytes .b0 6) =
      some (by8 [0xF0, 0x0E, 0xCD, 0xF6, 0xFF, 0x12]) ∧
    whiten .bit0 (by8 [0, 0, 0, 0, 0xFF, 0x12]) = by8 [0xFF, 0xE1, 0x1D, 0x9A, 0x12, 0x97] := by decide +kernel

theorem test_whiten_table_end : (pn9Table .feedback).drop 507 = by8 [0x17, 0xDF, 0x83, 0xFF] := by decide +kernel

/-! ### Encoders (T4) -/

theorem test_rscenc_vectors :
    (ran (.rscenc .b0 .b1) (started 16 0 (by8 [0x11, 0x22]) 16)).map (fun t => (t.bytes .b1 4, t.blen .b1, t.x 4, t.x 5)) =
      some (by8 [0x17, 0x03, 0x5C, 0x0C], 32, 32#32, 0#32) ∧
    (ran (.rscenc .b0 .b1) (started 8 5 (by8 [0xA5]) 8)).map (fun t => (t.bytes .b1 2, t.x 5)) =
      some (by8 [0x76, 0xD8], 5#32) := by decide +kernel

theorem test_nrnscenc_vectors :
    (ran (.nrnscenc .b0 .b1) (started 16 0 (by8 [0x11, 0x22]) 16)).map (fun t => (t.bytes .b1 4, t.x 4, t.x 5)) =
      some (by8 [0x04, 0x04, 0x13, 0x10], 32#32, 4#32) ∧
    (ran (.nrnscenc .b0 .b1) (started 3 0 (by8 [0x05]) 8)).map (fun t => (t.bytes .b1 1, t.blen .b1, t.x 5)) =
      some (by8 [0x34], 6, 5#32) := by decide +kernel

theorem test_enc_start_state_limits :
    (ran (.rscenc .b0 .b1) (started 8 8 (by8 [0]) 8)).map (·.status) = some 0x107#32 ∧
    (ran (.nrnscenc .b0 .b1) (started 8 8 (by8 [0]) 8)).map (·.status) = some 0#32 ∧
    (ran (.nrnscenc .b0 .b1) (started 8 16 (by8 [0]) 8)).map (·.status) = some 0x107#32 := by decide +kernel

/-! ### Decoders (T5, R143) -/

/-- The corrupted vector has one nearest input, found whatever the choice among ties. -/
theorem test_rscdec_corrects_one_bit :
    [true, false].map (fun p => fecDecode .rsc (fun _ _ => p) 0 (streamBits (by8 [0x17, 0x13, 0x5C, 0x0C]))) =
      List.replicate 2 { bits := streamBits (by8 [0x11, 0x22]), final := 0, dist := 1 } := by decide +kernel

theorem test_rscdec_command :
    (ran (.rscdec .b0 .b1) (started 2 0 (by8 [0x03]) 2)).map
      (fun t => (t.bytes .b1 1, t.blen .b1, t.x 4, t.x 5, t.x 6, t.status)) =
      some (by8 [0x01], 1, 1#32, 1#32, 0#32, 0#32) ∧
    (ran (.rscdec .b0 .b0) (started 31 0 (by8 [0x03]) 2)).map (·.status) = some 0x107#32 ∧
    (ran (.rscdec .b0 .b1) (started 31 0 (by8 [0x03]) 2)).map (·.status) = some 0x101#32 := by decide +kernel

theorem test_nrnscdec_vector :
    fecDecode .nrnsc (fun _ _ => true) 0 (streamBits (by8 [0x04, 0x04, 0x13, 0x10])) =
      { bits := streamBits (by8 [0x11, 0x22]), final := 4, dist := 0 } := by decide +kernel

theorem test_nrnscdec_command :
    (ran (.nrnscdec .b0 .b1) (started 2 0 (by8 [0x00]) 2)).map
      (fun t => (t.bytes .b1 1, t.blen .b1, t.x 4, t.x 5, t.x 6, t.status)) =
      some (by8 [0x01], 1, 1#32, 1#32, 0#32, 0#32) ∧
    (ran (.nrnscdec .b0 .b1) (started 0 9)).map (fun t => (t.blen .b1, t.x 4, t.x 5, t.x 6)) =
      some (0, 0#32, 9#32, 0#32) := by decide +kernel

/-! ### Interleaver and FCS (T6) -/

theorem test_ilv_bytes :
    (ran (.ilv .b0) (started 32 0 (by8 [0x01, 0x23, 0x45, 0x67, 0x89, 0xAB]) 48)).map (·.bytes .b0 6) =
      some (by8 [0xDD, 0x50, 0x88, 0x50, 0x89, 0xAB]) ∧
    ilv .reversed (by8 [0x01, 0x23, 0x45, 0x67]) = by8 [0x05, 0x22, 0x05, 0x77] := by decide +kernel

theorem test_ilv_blocks_only :
    (ran (.ilv .b0) (started 33 0 (by8 [1, 2, 3, 4]) 32)).map (·.status) = some 0x101#32 := by decide +kernel

theorem test_fcs32_check_value :
    (ran (.fcs32 .b0) (started 9 0 (by8 [0x31, 0x32, 0x33, 0x34, 0x35, 0x36, 0x37, 0x38, 0x39]) 72)).map (·.x 4) =
      some 0xCBF43926#32 ∧
    (ran (.fcs32 .b0) (started 0 0x12345678)).map (·.x 4) = some 0x12345678#32 := by decide +kernel

theorem test_fcschk_verdicts :
    (ran (.fcschk .b0) (started 8 0 (by8 [0xDE, 0xAD, 0xBE, 0xEF, 0x5A, 0xA3, 0x9C, 0x7C]) 64)).map (·.x 4) = some 1#32 ∧
    (ran (.fcschk .b0) (started 5 0 (by8 [0x01, 0x79, 0xB8, 0xF8, 0x99]) 40)).map (·.x 4) = some 1#32 ∧
    (ran (.fcschk .b0) (started 4 0 (by8 [0x1C, 0xDF, 0x44, 0x21]) 32)).map (fun t => (t.x 4, t.status)) =
      some (0#32, 0#32) := by decide +kernel

theorem test_fcsapp_trailer :
    (ran (.fcsapp .b0) (started 4 0 (by8 [0xDE, 0xAD, 0xBE, 0xEF]) 32)).map (fun t => (t.bytes .b0 8, t.blen .b0, t.x 4)) =
      some (by8 [0xDE, 0xAD, 0xBE, 0xEF, 0x5A, 0xA3, 0x9C, 0x7C], 64, 0x7C9CA35A#32) := by decide +kernel

theorem test_fcsapp_short_data :
    (ran (.fcsapp .b0) (started 3 0 (by8 [0x12, 0x34, 0x56]) 24)).map (fun t => (t.bytes .b0 7, t.blen .b0, t.x 4)) =
      some (by8 [0x12, 0x34, 0x56, 0x96, 0xF7, 0xD7, 0x14], 56, 0x14D7F796#32) := by decide +kernel

/-! ### Headers (T7, R184) -/

/-- The stream of vector F1. -/
def streamF1 : List Byte := by8 [0xAA, 0xAA, 0xAA, 0xAA, 0xAA, 0xAA, 0xAA, 0xAA, 0x09, 0x72]

theorem test_shrdet_found :
    [0, 1].map (fun i => (ran (.shrdet .b0) (started i 0 streamF1 80)).map
      (fun t => (t.x 4, t.x 5, t.x 6, t.x 7, t.fsm, t.status))) =
      [some (64#32, 1#32, 80#32, 0#32, 2#32, 0#32), some (56#32, 1#32, 80#32, 8#32, 2#32, 0#32)] := by decide +kernel

theorem test_shrdet_not_found :
    (ran (.shrdet .b0) (started 0 0 (by8 [0xFF, 0, 0xFF, 0]) 32)).map (fun t => (t.status, t.fsm)) =
      some (0x102#32, 6#32) := by decide +kernel

theorem test_phrenc_words :
    (ran .phrenc (started 8 0x10)).map (·.x 4) = some 0x1010#32 ∧
    (ran .phrenc (started 7 0x10)).map (·.x 4) = some 0xE010#32 := by decide +kernel

theorem test_phrenc_refusals :
    (ran .phrenc (started 2048 0)).map (·.status) = some 0x107#32 ∧
    (ran .phrenc (started 0 2)).map (·.status) = some 0x107#32 ∧
    (ran .phrenc (started 0 8)).map (·.status) = some 0x105#32 := by decide +kernel

theorem test_phrdec_fields :
    (ran .phrdec (started 0xE010 0)).map (fun t => (t.x 4, t.x 5)) = some (7#32, 0x10#32) ∧
    (ran .phrdec (started 0x10000 0)).map (·.status) = some 0x107#32 := by decide +kernel

/-! ### Frames (T7, T11) -/

/-- The stream of vector F8. -/
def streamF8 : List Byte := by8 [0xAA, 0x09, 0x72, 0x00, 0x20, 0x1C, 0xDF, 0x44, 0x21]

theorem test_frmenc_empty_data :
    (ran (.frmenc .b0 .b1 .nrnsc false .uncoded0 false) (started 0 8)).map
      (fun t => (t.bytes .b1 9, t.blen .b1, t.x 4, t.status, t.fsm)) = some (streamF8, 72, 72#32, 0#32, 0#32) := by
  decide +kernel

/-- R217(b), the body T9 builds by hand. -/
theorem test_frmenc_coded :
    (ran (.frmenc .b0 .b1 .rsc true .coded0 false) (started 3 16 (by8 [0x12, 0x34, 0x56]) 24)).map
      (fun t => (t.bytes .b1 24, t.x 4)) =
      some (by8 [0xAA, 0xAA, 0xF6, 0x72, 0x0C, 0x94, 0xD4, 0xC0, 0x80, 0xAF, 0x5D, 0x79, 0x5E, 0x93, 0x81, 0x0F, 0x5B, 0x28,
        0xA3, 0xB1, 0xF1, 0x76, 0x83, 0x85], 192#32) := by decide +kernel

theorem test_frmdec_skips_verification :
    (ran (.frmdec .b0 .b1 true) (started 0 0 streamF8 72)).map
      (fun t => ([t.x 4, t.x 5, t.x 6, t.x 7, t.fsm], t.bytes .b1 4)) =
      some ([8#32, 1#32, 0x2000#32, 4#32, 4#32], by8 [0x1C, 0xDF, 0x44, 0x21]) ∧
    (ran (.frmdec .b0 .b1 false) (started 0 0 streamF8 72)).map (fun t => (t.status, t.fsm)) =
      some (0x104#32, 0x26#32) := by decide +kernel

theorem test_frmdec_failures :
    (ran (.frmdec .b0 .b1 false) (started 0 0 streamF1 80)).map (fun t => (t.status, t.fsm)) =
      some (0x101#32, 0x16#32) ∧
    (ran (.frmdec .b0 .b1 false) (started 0 0 (by8 [0xAA, 0x09, 0x72, 0x08, 0x10]) 40)).map (fun t => (t.status, t.fsm)) =
      some (0x105#32, 0x1E#32) := by decide +kernel

/-! ### The host (R58, H1, H2, T11) -/

/-- Accesses at the edges of the map: whether they are done. -/
theorem test_map_edges :
    [(0x00, 4), (0x2C, 4), (0x38, 4), (0x48, 4), (0x10000000, 1), (0x10001FFF, 1), (0x20001FFF, 1)].map
      (fun p => (stepped (hosted [.read p.1 p.2])).isSome) = List.replicate 7 true ∧
    [(0x3C, 4), (0x4C, 4), (0x12, 4), (0x10, 1), (0x10000000, 4), (0x10002000, 1), (0x0FFFFFFF, 1)].map
      (fun p => (stepped (hosted [.read p.1 p.2])).isSome) = List.replicate 7 false := by decide +kernel

/-- The first two commands of T11. -/
theorem test_sticky_from_errors :
    (stepped (hosted [cmdWrite 0x00000001#32])).map (·.status) = some 0x103#32 ∧
    (stepped (hosted [cmdWrite 0x00000000#32])).map (·.status) = some 0x107#32 ∧
    (stepped { hosted [cmdWrite 0x00000403#32] (started 8 0) with status := 0x102#32 }).map
      (fun t => (t.status, t.x 4)) = some (0x100#32, 0x1000#32) := by decide +kernel

/-! ### States that meet the hypotheses of the statements, one for each clause, at its boundary -/

theorem witness_DecodeInvertsEncode :
    Instr.wellFormed (.frmenc .b0 .b1 .rsc true .coded1 false) = true ∧ decode 0x00000403#32 = .ok (.rev .w16) := by
  decide +kernel

/-- The words below match no row of the statement's list. -/
def unmatched (w : Word) : Prop :=
  ∀ p ∈ [(0xFFFFFEFF#32, 0x01#32), (0xFFFFFEFF#32, 0x02#32), (0xFFFFF3FF#32, 0x03#32),
      (0xFFFFFEFF#32, 0x10#32), (0xFFFFFCFF#32, 0x20#32), (0xFFFFFCFF#32, 0x21#32), (0xFFFFFCFF#32, 0x22#32),
      (0xFFFFFCFF#32, 0x23#32), (0xFFFFFEFF#32, 0x30#32), (0xFFFFFEFF#32, 0x40#32), (0xFFFFFEFF#32, 0x41#32),
      (0xFFFFFEFF#32, 0x42#32), (0xFFFFFEFF#32, 0x50#32), (0xFFFFFFFF#32, 0x51#32), (0xFFFFFFFF#32, 0x52#32),
      (0xFFFFDCFF#32, 0x60#32), (0xFFFC2CFF#32, 0x61#32)], w &&& p.1 ≠ p.2

/-- A word of no command, a reserved bit set, a stray field, and the reserved width. -/
theorem witness_IllegalWordsAreRejected :
    unmatched 0x00000000#32 ∧ unmatched 0x00040003#32 ∧ unmatched 0x00000151#32 ∧
    (hosted [.write 0x0000 4 0x00000C03#32]).pending = .write 0x0000 4 0x00000C03#32 :: [] := by
  refine ⟨?_, ?_, ?_, rfl⟩ <;> unfold unmatched <;> simp

theorem witness_StepRunsTheDecodedCommand :
    (hosted [.write 0x0000 4 0x00000403#32]).pending = .write 0x0000 4 0x00000403#32 :: [] ∧
    decode 0x00000403#32 = .ok (.rev .w16) := by decide +kernel

theorem witness_OnlyUnmappedAccessesAreRefused :
    (hosted [.read 0x4C 4]).pending = .read 0x4C 4 :: [] ∧ (hosted [.write 0x48 4 0#32]).pending = .write 0x48 4 0#32 :: [] ∧
    (hosted [.read 0x10001FFF 1]).pending = .read 0x10001FFF 1 :: [] := by decide +kernel

theorem witness_HostRegisterWriteReadsBack :
    (hosted [.write 0x2C 4 5#32, .read 0x2C 4]).pending =
      .write (0x10 + 4 * (7 : Fin 8).val) 4 5#32 :: .read (0x10 + 4 * (7 : Fin 8).val) 4 :: [] ∧
    (hosted [.write 0x44 4 0xFFFFFFFE#32, .read 0x44 4]).pending =
      .write (0x34 + 0x10 * bufIndex .b1) 4 0xFFFFFFFE#32 :: .read (0x34 + 0x10 * bufIndex .b1) 4 :: [] := by
  decide +kernel

theorem witness_HostByteWriteReadsBack :
    (hosted [.write 0x20001FFF 1 0x1A5#32, .read 0x20001FFF 1]).Inv ∧
    8191 < (hosted []).params.capBytes ∧
    (hosted [.write 0x20001FFF 1 0x1A5#32, .read 0x20001FFF 1]).pending =
      .write (0x10000000 * (bufIndex .b1 + 1) + 8191) 1 0x1A5#32 ::
        .read (0x10000000 * (bufIndex .b1 + 1) + 8191) 1 :: [] :=
  ⟨hosted_inv (started_inv (by decide) (by decide) (by decide) (by decide)), by decide +kernel⟩

theorem witness_HostLengthWriteIsChecked :
    (hosted [.write 0x40 4 65536#32]).pending = .write (0x30 + 0x10 * bufIndex .b1) 4 65536#32 :: [] ∧
    (65536#32).toNat ≤ 8 * (hosted []).params.capBytes ∧ 8 * (hosted []).params.capBytes < (65537#32).toNat := by
  decide +kernel

theorem witness_ReadOnlyRegistersIgnoreWrites :
    0x48 ∈ [0x04, 0x08, 0x0C, 0x38, 0x48] ∧
    (hosted [.write 0x48 4 9#32]).pending = .write 0x48 4 9#32 :: [] := by decide +kernel

/-- Every clause of the statement has its offset and width; the byte is the last one of buffer 1. -/
theorem witness_HostReadsHaveNoSideEffect :
    (∀ off ∈ [0x00, 0x04, 0x08, 0x0C, 0x10 + 4 * (7 : Fin 8).val, 0x30 + 0x10 * bufIndex .b1, 0x34 + 0x10 * bufIndex .b1,
        0x38 + 0x10 * bufIndex .b1],
      (hosted [.read off 4]).pending = .read off 4 :: [] ∧ (stepped (hosted [.read off 4])).isSome = true) ∧
    8191 < (hosted []).params.capBytes ∧
    (hosted [.read 0x20001FFF 1]).pending = .read (0x10000000 * (bufIndex .b1 + 1) + 8191) 1 :: [] := by
  decide +kernel

theorem witness_StepKeepsInvariant :
    (hosted [.write 0x30 4 65536#32]).Inv ∧ ∃ t, step (hosted [.write 0x30 4 65536#32]) = .next t :=
  ⟨hosted_inv (started_inv (by decide) (by decide) (by decide) (by decide)), _, rfl⟩

/-- A step from a state with `STICKY` set, and one that ends with an `ERR` that is not 0 and is another. -/
theorem witness_StickyIsNeverCleared :
    (∃ t, step (hosted []) = .next t) ∧ stickyBit 0x107#32 = true ∧
    (stepped (hosted [cmdWrite 0#32])).map (fun t => errField t.status) = some 7#32 ∧
    errField (hosted [cmdWrite 0#32]).status = 0#32 :=
  ⟨⟨_, rfl⟩, by decide +kernel⟩

theorem witness_CommandsWriteOnlyTheirDestination :
    ∃ t, exec (.frmenc .b0 .b1 .nrnsc false .uncoded0 false) (started 0 8) = .next t := ⟨_, rfl⟩

/-- SHRDET at the end of the buffer and past it, FRMDEC on two buffers and on one. -/
theorem witness_OnlyFrameCommandsWriteFsm :
    ((started 80 0 streamF1 80).x 0).toNat ≤ (started 80 0 streamF1 80).blen .b0 ∧
    (started 81 0 streamF1 80).blen .b0 < ((started 81 0 streamF1 80).x 0).toNat ∧
    (∃ t, exec (.shrdet .b0) (started 80 0 streamF1 80) = .next t) ∧
    (∃ t, exec (.frmdec .b0 .b0 true) (started 0 0) = .next t) ∧
    (∃ t, exec (.frmdec .b0 .b1 true) (started 0 0) = .next t) :=
  ⟨by decide +kernel, by decide +kernel, ⟨_, rfl⟩, ⟨_, rfl⟩, ⟨_, rfl⟩⟩

/-- Two states that differ in `STATUS`, `FSM` and `x[2]`. -/
theorem witness_CommandsReadOnlyOperandsAndBuffers :
    let s := started 3 0 (by8 [0xA1]) 8
    let s' := ({ s with status := 0x103#32, fsm := 6#32 } : State).setX 2 9#32
    s'.x 0 = s.x 0 ∧ s'.x 1 = s.x 1 ∧ (∀ b, s'.buf b = s.buf b) ∧ s'.params = s.params ∧ s'.status ≠ s.status :=
  ⟨rfl, rfl, fun b => by cases b <;> rfl, rfl, by decide +kernel⟩

theorem witness_CommandsEndWithTheirErrorsOnly : ∃ t, exec (.rdbit .b0) (started 0 0) = .next t := ⟨_, rfl⟩

/-- The last index inside, and the first outside. -/
theorem witness_RdbitReadsTheTaggedBit :
    ((started 7 0 (by8 [0xA1]) 8).x 0).toNat < (started 7 0 (by8 [0xA1]) 8).blen .b0 ∧
    (started 8 0 (by8 [0xA1]) 8).blen .b0 ≤ ((started 8 0 (by8 [0xA1]) 8).x 0).toNat := by decide +kernel

theorem witness_WrbitWritesOneBit :
    (∀ i v, (started i v (by8 [0xA1]) 8).Inv) ∧ 1 < ((started 7 2 (by8 [0xA1]) 8).x 1).toNat ∧
    ((started 8 1 (by8 [0xA1]) 8).x 1).toNat ≤ 1 ∧
    (started 8 1 (by8 [0xA1]) 8).blen .b0 ≤ ((started 8 1 (by8 [0xA1]) 8).x 0).toNat ∧
    ((started 7 1 (by8 [0xA1]) 8).x 0).toNat < (started 7 1 (by8 [0xA1]) 8).blen .b0 :=
  ⟨fun _ _ => started_inv (by decide) (by decide) (by decide) (by decide), by decide +kernel⟩

theorem witness_ReverseBitsIsAnInvolution : 32 ∈ [8, 16, 32] ∧ (0xFFFFFFFF#32).toNat < 2 ^ 32 ∧ (0xFF#32).toNat < 2 ^ 8 := by
  decide +kernel

theorem witness_WhitenXorsTheKeystream :
    (∀ l, l ≤ 65536 → (started 6 0 (by8 [0, 0, 0, 0, 0xFF, 0x12]) l).Inv) ∧
    8 * ((started 6 0 [] 48).x 0).toNat ≤ (started 6 0 [] 48).blen .b0 ∧
    (started 6 0 [] 47).blen .b0 < 8 * ((started 6 0 [] 47).x 0).toNat :=
  ⟨fun _ h => started_inv (by decide) (by decide) h (by decide), by decide +kernel⟩

theorem witness_KeystreamTableIsTheEndlessGenerator : 7 < 8 := by decide

theorem witness_TailBitsFlushTheEncoders :
    7 < 8 ∧ 15 < 16 ∧ fecState .rsc 7 [true, false, true] = 0 ∧ fecState .rsc 7 [false, false, false] ≠ 0 := by
  decide +kernel

theorem witness_NrnscIgnoresItsOldestBit : 7 < 8 := by decide

/-- The checks of the encoders at their limits: buffers alike, start state, length 1 past the buffer, output 2 bits past
the capacity, output of exactly the capacity. -/
theorem witness_EncoderCommandMeaning :
    (∀ n m, (started n m [] 65536).Inv) ∧ BufId.b0 ≠ BufId.b1 ∧
    8 ≤ ((started 1 8 [] 65536).x 1).toNat ∧ ((started 1 7 [] 65536).x 1).toNat < 8 ∧
    16 ≤ ((started 1 16 [] 65536).x 1).toNat ∧ ((started 1 15 [] 65536).x 1).toNat < 16 ∧
    (started 65537 7 [] 65536).blen .b0 < ((started 65537 7 [] 65536).x 0).toNat ∧
    ((started 32769 7 [] 65536).x 0).toNat ≤ (started 32769 7 [] 65536).blen .b0 ∧
    8 * (started 32769 7 [] 65536).params.capBytes < 2 * ((started 32769 7 [] 65536).x 0).toNat ∧
    2 * ((started 32768 7 [] 65536).x 0).toNat ≤ 8 * (started 32768 7 [] 65536).params.capBytes :=
  ⟨fun _ _ => started_inv (by decide) (by decide) (by decide) (by decide), by decide +kernel⟩

theorem witness_DecoderReturnsAMinimumDistancePath :
    7 < numStates .rsc ∧ 15 < numStates .nrnsc ∧ [true, false].length = 2 * 1 := by decide

/-- One symbol at distance 1 from both inputs: either is a minimiser. -/
theorem witness_EveryMinimiserCanBeReturned :
    0 < numStates .rsc ∧ [false, true].length = 2 * [true].length ∧
    ∀ c' : List Bool, c'.length = [true].length →
      hamming (fecBits .rsc 0 [true]) [false, true] ≤ hamming (fecBits .rsc 0 c') [false, true] :=
  ⟨by decide, by decide, fun c' h => by rcases eq_singleton h with rfl | rfl <;> decide +kernel⟩

theorem witness_CleanInputDecodesToItself :
    15 < numStates .nrnsc ∧ [true].length = [true].length ∧
    hamming (fecBits .nrnsc 15 [true]) (fecBits .nrnsc 15 [true]) = 0 := by decide +kernel

/-- The decoders' clauses before the decode: start states, an odd count, a count past the buffer. -/
theorem witness_DecoderCommandMeaning_checks :
    (∀ n m, (started n m (by8 [0x02]) 2).Inv) ∧ BufId.b0 ≠ BufId.b1 ∧
    8 ≤ ((started 2 8 [] 2).x 1).toNat ∧ 16 ≤ ((started 2 16 [] 2).x 1).toNat ∧
    ((started 1 7 [] 2).x 0).toNat % 2 ≠ 0 ∧ ((started 4 7 [] 2).x 0).toNat % 2 = 0 ∧
    (started 4 7 [] 2).blen .b0 < ((started 4 7 [] 2).x 0).toNat ∧
    ((started 2 7 [] 2).x 0).toNat ≤ (started 2 7 [] 2).blen .b0 :=
  ⟨fun _ _ => started_inv (by decide) (by decide) (by decide) (by decide), by decide +kernel⟩

/-- The default parameters with an acceptance limit. -/
def limited (k : Nat) : Params := { viterbiMaxDist := some k }

/-- The symbol of `witness_EveryMinimiserCanBeReturned` under the limits 0 and 1: no input is near enough, some is. -/
theorem witness_DecoderCommandMeaning_limit :
    (∀ k, (started 2 0 (by8 [0x02]) 2 [] 0 false false (limited k)).Inv) ∧
    (∃ k, (limited 0).viterbiMaxDist = some k ∧ ∀ c : List Bool, c.length = 2 / 2 →
      k < hamming (fecBits .rsc 0 c)
        ((List.range 2).map ((started 2 0 (by8 [0x02]) 2 [] 0 false false (limited 0)).streamBit .b0))) ∧
    (∃ c : List Bool, c.length = 2 / 2 ∧ ∀ k, (limited 1).viterbiMaxDist = some k →
      hamming (fecBits .rsc 0 c)
        ((List.range 2).map ((started 2 0 (by8 [0x02]) 2 [] 0 false false (limited 1)).streamBit .b0)) ≤ k) := by
  refine ⟨fun k => started_inv (by decide : 1 ≤ 8192) (by decide : 0 ≤ 8192) (by decide : 2 ≤ 65536)
    (by decide : 0 ≤ 65536), ⟨0, rfl, fun c h => ?_⟩,
    [true], rfl, fun k h => ?_⟩
  · rcases eq_singleton h with rfl | rfl <;> decide +kernel
  · have : (1 : Nat) = k := by simpa [limited] using h
    subst this
    decide +kernel

theorem witness_IlvPermutesTheSymbols :
    (∀ n, (started n 0 [] 32).Inv) ∧ ((started 31 0 [] 32).x 0).toNat % 32 ≠ 0 ∧
    ((started 64 0 [] 32).x 0).toNat % 32 = 0 ∧ (started 64 0 [] 32).blen .b0 < ((started 64 0 [] 32).x 0).toNat ∧
    ((started 32 0 [] 32).x 0).toNat ≤ (started 32 0 [] 32).blen .b0 :=
  ⟨fun _ => started_inv (by decide) (by decide) (by decide) (by decide), by decide +kernel⟩

theorem witness_InterleavingIsAnInvolution : (by8 [1, 2, 3, 4]).length % 4 = 0 := by decide

theorem witness_Fcs32ComputesTheCrc :
    8 * ((started 4 0 [] 32).x 0).toNat ≤ (started 4 0 [] 32).blen .b0 ∧
    (started 4 0 [] 31).blen .b0 < 8 * ((started 4 0 [] 31).x 0).toNat := by decide +kernel

theorem witness_FcschkReportsTheVerdict :
    8 * ((started 5 0 [] 40).x 0).toNat ≤ (started 5 0 [] 40).blen .b0 ∧
    (started 5 0 [] 39).blen .b0 < 8 * ((started 5 0 [] 39).x 0).toNat := by decide +kernel

/-- Data one byte too long for the buffer to hold its trailer, and data that just fits. -/
theorem witness_FcsappAppendsTheTrailer :
    (∀ n, (started n 0 [] 65512).Inv) ∧
    (started 8190 0 [] 65512).blen .b0 < 8 * ((started 8190 0 [] 65512).x 0).toNat ∧
    8 * ((started 8189 0 [] 65512).x 0).toNat ≤ (started 8189 0 [] 65512).blen .b0 ∧
    8 * (started 8189 0 [] 65512).params.capBytes < 8 * (((started 8189 0 [] 65512).x 0).toNat + 4) ∧
    8 * (((started 8188 0 [] 65512).x 0).toNat + 4) ≤ 8 * (started 8188 0 [] 65512).params.capBytes :=
  ⟨fun _ => started_inv (by decide) (by decide) (by decide) (by decide), by decide +kernel⟩

theorem witness_TheTrailerIsTheOnlyGoodOne :
    by8 [0x01] ≠ [] ∧ (by8 [0x79, 0xB8, 0xF8, 0x99]).length = 4 ∧ fcs32Trailer (by8 [0x01]) = by8 [0x79, 0xB8, 0xF8, 0x99] := by
  decide +kernel

theorem witness_OneFlippedBitIsDetected :
    7 < 8 ∧ fcs32IsGood (by8 [] ++ 0x01#8 :: by8 [0x79, 0xB8, 0xF8, 0x99]) = true := by decide +kernel

/-- A start at which the scan finds a header, and the end of the stream, from which it finds none. -/
theorem witness_ShrScanFindsTheFirstHeader :
    1 ≤ (streamBits streamF1).length ∧
    shrDetect {} (streamBits streamF1) 1 = some { start := 8, plen := 56, kind := .uncoded0, after := 80 } ∧
    80 ≤ (streamBits streamF1).length ∧ shrDetect {} (streamBits streamF1) 80 = none := by decide +kernel

/-- The start inside the buffer with a header found, at its end with none found, and one past it. -/
theorem witness_ShrdetReportsTheHeader :
    let S := fun s : State => (List.range (s.blen .b0)).map (s.taggedBit .b0)
    (shrDetect {} (S (started 0 0 streamF1 80)) 0).isSome = true ∧
    ((started 80 0 streamF1 80).x 0).toNat ≤ (started 80 0 streamF1 80).blen .b0 ∧
    shrDetect (started 80 0 streamF1 80).params (S (started 80 0 streamF1 80))
      ((started 80 0 streamF1 80).x 0).toNat = none ∧
    (started 81 0 streamF1 80).blen .b0 < ((started 81 0 streamF1 80).x 0).toNat := by decide +kernel

theorem witness_HeaderFieldsRoundTrip : 2047 ≤ 2047 := by decide

theorem witness_PhrencBuildsTheHeader :
    2047 < ((started 2048 0).x 0).toNat ∧ ((started 2047 2).x 0).toNat ≤ 2047 ∧
    (started 2047 2).x 1 &&& ~~~0x19#32 ≠ 0#32 ∧ (started 2047 0x19).x 1 &&& ~~~0x19#32 = 0#32 ∧
    ((started 2047 0x19).x 1).getLsbD 3 = true ∧ (started 2047 0x11).x 1 &&& ~~~0x19#32 = 0#32 ∧
    ((started 2047 0x11).x 1).getLsbD 3 = false := by decide +kernel

theorem witness_PhrdecSplitsTheHeader :
    0xFFFF < ((started 0x10000 0).x 0).toNat ∧ ((started 0xFFFF 0).x 0).toNat ≤ 0xFFFF := by decide +kernel

theorem witness_FrameStreamHasItsLength : 8 % 8 = 0 := by decide

theorem witness_UncodedBodyIsHeaderAndPayload :
    0 % 8 = 0 ∧ (SfdType.uncoded1 = .uncoded0 ∨ SfdType.uncoded1 = .uncoded1) := by decide

theorem witness_CodedBodyIsTheInterleavedCode :
    0 % 8 = 0 ∧ (SfdType.coded1 = .coded0 ∨ SfdType.coded1 = .coded1) := by decide

/-- An uncoded frame without data has 16 + 48 bits after its preamble. -/
theorem length_empty_frame (P : Params) (plen : Nat) (h : plen % 8 = 0) :
    (encodeFrame P .uncoded0 .nrnsc false plen []).length = plen + 64 := by
  have hp : (List.replicate (plen / 8) pre).flatten.length = plen := by
    simp [List.length_flatten, pre]; omega
  simp only [encodeFrame, List.length_append, hp, length_streamBits]
  simp [sfdBits, frameBody, sfdCoded, frameCore, headerBytes, framePayload, whitenIf, fcs32Trailer, wordBytes]

/-- The checks of FRMENC at their limits. -/
theorem witness_FrmencBuildsTheFrame_checks :
    (∀ n p, (started n p [] 65536).Inv) ∧ BufId.b0 ≠ BufId.b1 ∧
    2043 < ((started 2044 8 [] 65536).x 0).toNat ∧ ((started 2043 8 [] 65536).x 0).toNat ≤ 2043 ∧
    ¬(((started 0 0 [] 65536).x 1).toNat % 8 = 0 ∧ 8 ≤ ((started 0 0 [] 65536).x 1).toNat) ∧
    ¬(((started 0 12 [] 65536).x 1).toNat % 8 = 0 ∧ 8 ≤ ((started 0 12 [] 65536).x 1).toNat) ∧
    ((started 0 8 [] 65536).x 1).toNat % 8 = 0 ∧ 8 ≤ ((started 0 8 [] 65536).x 1).toNat ∧
    (started 1 8 [] 7).blen .b0 < 8 * ((started 1 8 [] 7).x 0).toNat ∧
    8 * ((started 1 8 [] 8).x 0).toNat ≤ (started 1 8 [] 8).blen .b0 :=
  ⟨fun _ _ => started_inv (by decide) (by decide) (by decide) (by decide), by decide +kernel⟩

/-- A preamble that fills the buffer with the frame, and one a byte longer. -/
theorem witness_FrmencBuildsTheFrame_capacity :
    (encodeFrame {} .uncoded0 .nrnsc false ((started 0 65472).x 1).toNat
      ((List.range 0).map ((started 0 65472).byteAt .b0))).length ≤ 8 * (started 0 65472).params.capBytes ∧
    8 * (started 0 65480).params.capBytes < (encodeFrame {} .uncoded0 .nrnsc false ((started 0 65480).x 1).toNat
      ((List.range 0).map ((started 0 65480).byteAt .b0))).length := by
  constructor <;> rw [List.range_zero, List.map_nil, length_empty_frame _ _ (by decide +kernel)] <;> decide +kernel

/-- Whether a frame decode answered a frame. -/
def delivered (r : Except FrameError FrameResult) : Bool :=
  match r with
  | .ok _ => true
  | .error _ => false

theorem exists_of_delivered {r : Except FrameError FrameResult} (h : delivered r = true) : ∃ x, r = .ok x := by
  cases r with
  | ok x => exact ⟨x, rfl⟩
  | error e => simp [delivered] at h

theorem exists_of_not_delivered {r : Except FrameError FrameResult} (h : delivered r = false) : ∃ e, r = .error e := by
  cases r with
  | ok x => simp [delivered] at h
  | error e => exact ⟨e, rfl⟩

/-- The stream of F8: delivered when verification is skipped, refused when it is not. -/
theorem witness_FrmdecDeliversTheFrame :
    let s := started 0 0 streamF8 72
    let S := (List.range (s.blen .b0)).map (s.taggedBit .b0)
    s.Inv ∧ BufId.b0 ≠ BufId.b1 ∧ (∃ r, decodeFrame s.params Config.tiePick true S = .ok r) ∧
    ∃ e, decodeFrame s.params Config.tiePick false S = .error e :=
  ⟨started_inv (by decide) (by decide) (by decide) (by decide), by decide, exists_of_delivered (by decide +kernel),
    exists_of_not_delivered (by decide +kernel)⟩

/-- Failures of each kind but DECODE, and the limit under which there is one (T7). -/
theorem witness_FrameDecodeErrorsAreThoseListed :
    (decodeFrame {} (fun _ _ _ _ _ _ => true) false []) = .error ⟨.notFound, .searching⟩ ∧
    (decodeFrame {} (fun _ _ _ _ _ _ => true) false (streamBits streamF1)) = .error ⟨.malformed, .sfdMatched⟩ ∧
    (decodeFrame {} (fun _ _ _ _ _ _ => true) false (streamBits (by8 [0xAA, 0x09, 0x72, 0x08, 0x10]))) =
      .error ⟨.unsupported, .headerRecovered⟩ ∧
    (decodeFrame {} (fun _ _ _ _ _ _ => true) false (streamBits streamF8)) = .error ⟨.verify, .payloadRecovered⟩ ∧
    (decodeFrame (limited 0) (fun _ _ _ _ _ _ => true) false (streamBits (by8 [0xAA, 0xF6, 0x72, 0x0D, 0x94, 0xD4, 0xC0]))) =
      .error ⟨.decode, .sfdMatched⟩ := by decide +kernel

/-- The stream of F8 cut where header and payload end, and a bit before (R195, R200), and with bits after it (F7). -/
theorem test_frame_boundaries :
    [(39, true), (40, true), (71, true), (72, true), (72, false)].map
      (fun p => match decodeFrame {} (fun _ _ _ _ _ _ => true) p.2 ((streamBits streamF8).take p.1) with
        | .ok r => (ErrCode.ok, r.final)
        | .error e => (e.code, e.src)) =
      [(.malformed, .sfdMatched), (.malformed, .headerRecovered), (.malformed, .headerRecovered),
        (.ok, .payloadRecovered), (.verify, .payloadRecovered)] ∧
    delivered (decodeFrame {} (fun _ _ _ _ _ _ => true) true (streamBits streamF8 ++ [true, true])) = true := by
  decide +kernel

/-- The synchronisation header of F8. -/
def shrF8 : Shr := { start := 0, plen := 8, kind := .uncoded0, after := 24 }

theorem header_F8 : HeaderIs {} (streamBits streamF8) shrF8 0x2000#16 0 :=
  ⟨by decide +kernel, by rw [if_neg (by decide)]; exact ⟨by decide +kernel, rfl⟩⟩

theorem payload_F8 : PayloadIs {} (streamBits streamF8) shrF8 0x2000#16 0 (by8 [0x1C, 0xDF, 0x44, 0x21]) := by
  have octets : ∀ j, j < (phrDecode 0x2000#16).L → ∀ i, i < 8 → ((by8 [0x1C, 0xDF, 0x44, 0x21]).getD j 0#8).getLsbD i =
      (((streamBits streamF8).drop 40).take 32).getD (8 * j + i) false := by decide +kernel
  refine ⟨by decide +kernel, ((streamBits streamF8).drop 40).take 32, by8 [0x1C, 0xDF, 0x44, 0x21], by decide +kernel,
    fun j i hj hi => octets j hj i hi, ?_, ?_⟩
  · rw [if_neg (by decide)]; decide +kernel
  · rw [if_neg (by decide +kernel)]

/-- A stream without a header, one that ends a bit before its header does, and one whose payload is not good; all uncoded. -/
theorem witness_FrameFails :
    FrameFails {} true [] ⟨.notFound, .searching⟩ ∧
    FrameFails {} true ((streamBits streamF8).take 39) ⟨.malformed, .sfdMatched⟩ ∧
    FrameFails {} false (streamBits streamF8) ⟨.verify, .payloadRecovered⟩ ∧
    ∀ h, shrDetect {} (streamBits streamF8) 0 = some h → ¬IsCoded h.kind := by
  have f : shrDetect {} (streamBits streamF8) 0 = some shrF8 := by decide +kernel
  refine ⟨.noHeader (by decide +kernel), .headerShort shrF8 (by decide +kernel) (by decide +kernel),
    .notGood shrF8 0x2000#16 0 _ f header_F8 (by decide +kernel) payload_F8 rfl (by decide +kernel), fun h hh => ?_⟩
  obtain rfl : shrF8 = h := by simpa [f] using hh
  decide

theorem witness_FrameDelivered :
    FrameDelivered {} true (streamBits streamF8)
      { shr := shrF8, H := 0x2000#16, payload := by8 [0x1C, 0xDF, 0x44, 0x21], final := .payloadRecovered } ∧
    ¬IsCoded shrF8.kind :=
  ⟨⟨by decide +kernel, ⟨0, header_F8, payload_F8⟩, by decide +kernel, by decide, by decide⟩, by decide⟩

/-- F16 and F17: the coded frame of data `12 34 56` is delivered. -/
theorem witness_DeliveredFramesAreChecked :
    (∃ r, decodeFrame {} (fun _ _ _ _ _ _ => true) true (streamBits streamF8) = .ok r) ∧
    decodeFrame {} (fun _ _ _ _ _ _ => true) false (streamBits (by8 [0xAA, 0xC6, 0xB4, 0xF3, 0x37, 0xB3, 0x73, 0x51, 0x40, 0x6A,
      0xF4, 0xD7, 0x0A, 0x8E, 0xBC, 0x4C, 0xC6, 0xEB, 0x9E, 0x3E, 0x70, 0xFD, 0x7E])) =
      .ok { shr := { start := 0, plen := 8, kind := .coded1, after := 24 }, H := 0xE010#16,
            payload := by8 [0x12, 0x34, 0x56, 0x96, 0xF7, 0xD7, 0x14], final := .verified } :=
  ⟨exists_of_delivered (by decide +kernel), by decide +kernel⟩

theorem witness_FramesRoundTrip :
    (started 3 16 (by8 [0x12, 0x34, 0x56]) 24).Inv ∧ 1 ≤ ((started 3 16 (by8 [0x12, 0x34, 0x56]) 24).x 0).toNat ∧
    (∃ t, exec (.frmenc .b0 .b1 .rsc true .coded0 false) (started 3 16 (by8 [0x12, 0x34, 0x56]) 24) = .next t ∧
      errField t.status = 0#32) ∧
    (started 3 16 (by8 [0x12, 0x34, 0x56]) 24).params.famCoded0 = .rsc ∧
    (sfdBits {} .coded0).take 8 ≠ [false, true, false, true, false, true, false, true] :=
  ⟨started_inv (by decide) (by decide) (by decide) (by decide), by decide +kernel, ⟨_, rfl, by decide +kernel⟩,
    by decide +kernel, by decide +kernel⟩

end Sys2Proof.Tests
end

section
/-! Commands as data. `commandChecks` and `commandEffect` say of each command which checks it runs and what it then
writes; `exec_eq` ties both to `exec`. What a command keeps, writes and reads is read off this data, not off seventeen
meanings one by one. -/

namespace Sys2Proof.Machine

/-! ### Effects -/

/-- A write to a buffer: its bytes from an index on and, if it changes, its length. -/
structure BufWrite where
  buf : BufId
  start : Nat
  bytes : List Byte
  len : Option Nat

/-- What a command that passed its checks writes: on a success a buffer, results and `FSM` (R76), on a failure in flight
the code, the lost destination and `FSM` (R57, R224). -/
inductive Effect where
  | success (write : Option BufWrite) (results : List (Fin 8 × Word)) (fsm : Option Word)
  | failure (code : ErrCode) (lost : Option BufId) (fsm : Option Word)

/-- The state after an optional buffer write. -/
def State.writeBuf (s : State) : Option BufWrite → State
  | none => s
  | some ⟨b, j, l, none⟩ => s.writeBytes b j l
  | some ⟨b, j, l, some n⟩ => (s.writeBytes b j l).setLen b n

/-- The state after register writes, in order. -/
def State.writeResults (s : State) (l : List (Fin 8 × Word)) : State :=
  { s with regs := l.foldl (fun r p => r.set p.1.val p.2 p.1.isLt) s.regs }

/-- The state after an optional write of `FSM`. -/
def State.writeFsm (s : State) : Option Word → State
  | none => s
  | some v => s.setFsm v

/-- The state after an effect. -/
def Effect.apply (s : State) : Effect → State
  | .success w l v => (((s.writeBuf w).writeResults l).writeFsm v).succeed
  | .failure e db v => (s.writeFsm v).failInFlight e db

/-- The buffer an effect writes. -/
def Effect.dest : Effect → Option BufId
  | .success w _ _ => w.map BufWrite.buf
  | .failure _ db _ => db

/-- The word an effect writes to `FSM`. -/
def Effect.fsm : Effect → Option Word
  | .success _ _ v => v
  | .failure _ _ v => v

/-- The registers an effect names as results; a failure loses `x[4..7]` (R19). -/
def Effect.results : Effect → List (Fin 8 × Word)
  | .success _ l _ => l
  | .failure _ _ _ => []

/-- An effect does not fail with the code of success. -/
def Effect.CodeNotOk : Effect → Prop
  | .success _ _ _ => True
  | .failure e _ _ => e ≠ .ok

/-! ### The effect of each command -/

/-- The checks of each command, in order. -/
def commandChecks (i : Instr) (s : State) : List (Bool × ErrCode) :=
  match i with
  | .rdbit sb => [(decide (s.a0 < s.blen sb), .capacity)]
  | .wrbit sb => [(decide (s.a1 ≤ 1), .illegal), (decide (s.a0 < s.blen sb), .capacity)]
  | .rev w => [(decide (w ≠ .reserved), .illegal)]
  | .whiten sb | .fcs32 sb | .fcschk sb => [(s.bytesInside sb s.a0, .capacity)]
  | .rscenc sb db => encChecks .rsc sb db s
  | .nrnscenc sb db => encChecks .nrnsc sb db s
  | .rscdec sb db => decChecks .rsc sb db s
  | .nrnscdec sb db => decChecks .nrnsc sb db s
  | .ilv sb => [(decide (s.a0 % 32 = 0), .malformed), (s.bitsInside sb s.a0, .capacity)]
  | .fcsapp sb => [(s.bytesInside sb s.a0, .capacity), (s.fits (8 * (s.a0 + 4)), .capacity)]
  | .shrdet sb => [(s.bitsInside sb s.a0, .capacity)]
  | .phrenc => [(decide (s.a0 ≤ 2047), .illegal), (decide (s.x 1 &&& ~~~0x19#32 = 0#32), .illegal),
      (!(s.x 1).getLsbD 3, .unsupported)]
  | .phrdec => [(decide (s.a0 ≤ 0xFFFF), .illegal)]
  | .frmdec sb db _ => [(decide (sb ≠ db), .illegal)]
  | .frmenc sb db _ _ sfd fcst => frmencChecks sb db sfd fcst s

/-- A success that writes one result, `x[4]`, alone. -/
def resultEffect (v : Word) : Effect := .success none [(4, v)] none

/-- A success that writes bytes in place and nothing else. -/
def inPlaceEffect (sb : BufId) (j : Nat) (l : List Byte) : Effect := .success (some ⟨sb, j, l, none⟩) [] none

/-- A success that produces a buffer of `n` bits (R56) and leaves results. -/
def produceEffect (db : BufId) (l : List Byte) (n : Nat) (results : List (Fin 8 × Word)) (fsm : Option Word) : Effect :=
  .success (some ⟨db, 0, l, some n⟩) results fsm

/-- What an encoder writes (R117, R118). -/
def encodeEffect (f : Family) (sb db : BufId) (s : State) : Effect :=
  produceEffect db (pack (fecBits f s.a1 (s.streamOf sb s.a0))) (2 * s.a0)
    [(4, BitVec.ofNat 32 (2 * s.a0)), (5, BitVec.ofNat 32 (fecState f s.a1 (s.streamOf sb s.a0)))] none

/-- What a decoder writes (R138, R139). -/
def decodeEffect (f : Family) (sb db : BufId) (s : State) : Effect :=
  if acceptable s.params.viterbiMaxDist (decodeOf f sb s).dist then
    produceEffect db (pack (decodeOf f sb s).bits) (s.a0 / 2)
      [(4, BitVec.ofNat 32 (s.a0 / 2)), (5, BitVec.ofNat 32 (decodeOf f sb s).final),
        (6, BitVec.ofNat 32 (decodeOf f sb s).dist)] none
  else .failure .decode (some db) none

/-- What SHRDET writes, by what its scan finds (R174). -/
def shrEffect : Option Shr → Effect
  | some h => .success none [(4, BitVec.ofNat 32 h.plen), (5, h.kind.code), (6, BitVec.ofNat 32 h.after),
      (7, BitVec.ofNat 32 h.start)] (some (fsmAt .sfdMatched))
  | none => .failure .notFound none (some (fsmFailed .searching))

/-- What FRMDEC writes, by how the frame machine ends (R205, R206). -/
def frameEffect (db : BufId) : Except FrameError FrameResult → Effect
  | .ok r => produceEffect db r.payload (8 * (phrDecode r.H).L) [(4, BitVec.ofNat 32 r.shr.plen), (5, r.shr.kind.code),
      (6, r.H.setWidth 32), (7, BitVec.ofNat 32 (phrDecode r.H).L)] (some (fsmAt r.final))
  | .error e => .failure e.code (some db) (some (fsmFailed e.src))

/-- What each command writes once its checks hold. -/
def commandEffect (i : Instr) (s : State) : Effect :=
  match i with
  | .rdbit sb => resultEffect (BitVec.ofNat 32 (s.rdBit sb s.a0).toNat)
  | .wrbit sb => inPlaceEffect sb (s.a0 / 8)
      [putBit (s.byteAt sb (s.a0 / 8)) (bitPos (s.bord sb) s.a0) (decide (s.a1 = 1))]
  | .rev w => resultEffect (reverseBits (revBits w) (s.x 0))
  | .whiten sb => inPlaceEffect sb 0 (whiten s.params.pn9Out (s.bytes sb s.a0))
  | .rscenc sb db => encodeEffect .rsc sb db s
  | .nrnscenc sb db => encodeEffect .nrnsc sb db s
  | .rscdec sb db => decodeEffect .rsc sb db s
  | .nrnscdec sb db => decodeEffect .nrnsc sb db s
  | .ilv sb => inPlaceEffect sb 0 (ilv s.params.ilvVariant (s.bytes sb (s.a0 / 8)))
  | .fcs32 sb => resultEffect (fcs32 (s.x 1) (s.bytes sb s.a0))
  | .fcschk sb => resultEffect (BitVec.ofNat 32 (fcs32IsGood (s.bytes sb s.a0)).toNat)
  | .fcsapp sb => .success (some ⟨sb, s.a0, fcs32Trailer (s.bytes sb s.a0), some (8 * (s.a0 + 4))⟩)
      [(4, fcsOf (s.bytes sb s.a0))] none
  | .shrdet sb => shrEffect (shrDetect s.params (s.stream sb) s.a0)
  | .phrenc => resultEffect (s.x 1 ||| reverseBits 16 (s.x 0))
  | .phrdec => .success none [(4, reverseBits 16 (s.x 0) &&& 0x07FF#32), (5, s.x 0 &&& 0x1F#32)] none
  | .frmdec sb db skipv => frameEffect db (frameOf sb skipv s)
  | .frmenc sb db fam dw sfd _ =>
      produceEffect db (packOrd (s.bord db) (encodeFrame s.params sfd fam dw s.a1 (s.bytes sb s.a0)))
        (frameBits sfd s.a1 (s.a0 + 4)) [(4, BitVec.ofNat 32 (frameBits sfd s.a1 (s.a0 + 4)))] none

/-- A decoder runs its checks and has its effect (R138, R139). -/
theorem decodeBuffer_eq (f : Family) (sb db : BufId) (s : State) :
    decodeBuffer f sb db s = s.checked (decChecks f sb db s) ((decodeEffect f sb db s).apply s) := by
  by_cases h : acceptable s.params.viterbiMaxDist (decodeOf f sb s).dist = true
  · simp only [decodeBuffer, decodeEffect, h, if_true]; rfl
  · simp only [decodeBuffer, decodeEffect, h]; rfl

/-- SHRDET runs its check and has its effect (R174). -/
theorem execShrdet_eq (sb : BufId) (s : State) :
    execShrdet sb s = .next (s.checked [(s.bitsInside sb s.a0, .capacity)]
      ((shrEffect (shrDetect s.params (s.stream sb) s.a0)).apply s)) := by
  unfold execShrdet
  cases shrDetect s.params (s.stream sb) s.a0 <;> rfl

/-- FRMDEC runs its check and has its effect (R193). -/
theorem execFrmdec_eq (sb db : BufId) (skipv : Bool) (s : State) :
    execFrmdec sb db skipv s = .next (s.checked [(decide (sb ≠ db), .illegal)]
      ((frameEffect db (frameOf sb skipv s)).apply s)) := by
  unfold execFrmdec
  cases frameOf sb skipv s <;> rfl

/-- Every command runs its checks, and once they hold has its effect (R76). -/
theorem exec_eq (i : Instr) (s : State) :
    exec i s = .next (s.checked (commandChecks i s) ((commandEffect i s).apply s)) := by
  cases i with
  | rscdec sb db => exact congrArg _ (decodeBuffer_eq .rsc sb db s)
  | nrnscdec sb db => exact congrArg _ (decodeBuffer_eq .nrnsc sb db s)
  | shrdet sb => exact execShrdet_eq sb s
  | frmdec sb db skipv => exact execFrmdec_eq sb db skipv s
  | _ => rfl

/-- All that a command can do: a check rejects it, or its checks hold and its effect takes place. -/
theorem exec_cases {i : Instr} {s t : State} (h : exec i s = .next t) :
    (∃ e, firstFailure (commandChecks i s) = some e ∧ t = s.reject e) ∨
      (firstFailure (commandChecks i s) = none ∧ t = (commandEffect i s).apply s) := by
  rw [exec_eq] at h
  obtain rfl := Host.Outcome.next.inj h
  exact s.checked_cases _ _

/-- A command one of whose checks fails is rejected. -/
theorem exec_of_check_fails {i : Instr} {s t : State} {e : ErrCode} (hc : firstFailure (commandChecks i s) = some e)
    (h : exec i s = .next t) : t = s.reject e := by
  rw [exec_eq, State.checked_fail hc] at h
  exact (Host.Outcome.next.inj h).symm

/-- A command whose checks hold has its effect. -/
theorem exec_of_checks_hold {i : Instr} {s t : State} (hc : firstFailure (commandChecks i s) = none)
    (h : exec i s = .next t) : t = (commandEffect i s).apply s := by
  rw [exec_eq, State.checked_pass hc] at h
  exact (Host.Outcome.next.inj h).symm

end Sys2Proof.Machine
end

section
/-! What an effect changes and what it leaves, one rule per part of the state. -/

namespace Sys2Proof.Machine

variable (s : State)

/-! ### Buffer writes -/

@[simp] theorem State.writeBuf_status (w : Option BufWrite) : (s.writeBuf w).status = s.status := by
  rcases w with - | ⟨b, j, l, - | n⟩ <;> simp [State.writeBuf]
@[simp] theorem State.writeBuf_fsm (w : Option BufWrite) : (s.writeBuf w).fsm = s.fsm := by
  rcases w with - | ⟨b, j, l, - | n⟩ <;> simp [State.writeBuf]
@[simp] theorem State.writeBuf_x (w : Option BufWrite) (i : Fin 8) : (s.writeBuf w).x i = s.x i := by
  rcases w with - | ⟨b, j, l, - | n⟩ <;> simp [State.writeBuf]
@[simp] theorem State.writeBuf_params (w : Option BufWrite) : (s.writeBuf w).params = s.params := by
  rcases w with - | ⟨b, j, l, - | n⟩ <;> simp [State.writeBuf]
@[simp] theorem State.writeBuf_pending (w : Option BufWrite) : (s.writeBuf w).pending = s.pending := by
  rcases w with - | ⟨b, j, l, - | n⟩ <;> simp [State.writeBuf]
@[simp] theorem State.writeBuf_rdata (w : Option BufWrite) : (s.writeBuf w).rdata = s.rdata := by
  rcases w with - | ⟨b, j, l, - | n⟩ <;> simp [State.writeBuf]
@[simp] theorem State.writeBuf_draws (w : Option BufWrite) : (s.writeBuf w).draws = s.draws := by
  rcases w with - | ⟨b, j, l, - | n⟩ <;> simp [State.writeBuf]
@[simp] theorem State.writeBuf_bord (w : Option BufWrite) (b : BufId) : (s.writeBuf w).bord b = s.bord b := by
  rcases w with - | ⟨c, j, l, - | n⟩ <;> simp [State.writeBuf]

/-- The buffer a write leaves at its place: the bytes written and the length, if one is given. -/
def BufWrite.apply (w : BufWrite) (B : Buffer) : Buffer :=
  { B with mem := B.mem.writeBytes w.start w.bytes, len := (w.len.map (BitVec.ofNat 32)).getD B.len }

/-- A buffer write changes its buffer alone. -/
theorem State.writeBuf_buf (w : BufWrite) (b : BufId) :
    (s.writeBuf (some w)).buf b = if w.buf = b then w.apply (s.buf b) else s.buf b := by
  obtain ⟨c, j, l, - | n⟩ := w
  all_goals
    by_cases h : c = b
    · subst h; simp [State.writeBuf, State.writeBytes, State.setLen, BufWrite.apply]
    · simp [State.writeBuf, State.writeBytes, State.setLen, h]

/-! ### Results and `FSM` -/

@[simp] theorem State.writeResults_status (l : List (Fin 8 × Word)) : (s.writeResults l).status = s.status := rfl
@[simp] theorem State.writeResults_fsm (l : List (Fin 8 × Word)) : (s.writeResults l).fsm = s.fsm := rfl
@[simp] theorem State.writeResults_buf (l : List (Fin 8 × Word)) (b : BufId) : (s.writeResults l).buf b = s.buf b := by
  cases b <;> rfl
@[simp] theorem State.writeResults_params (l : List (Fin 8 × Word)) : (s.writeResults l).params = s.params := rfl
@[simp] theorem State.writeResults_pending (l : List (Fin 8 × Word)) : (s.writeResults l).pending = s.pending := rfl
@[simp] theorem State.writeResults_rdata (l : List (Fin 8 × Word)) : (s.writeResults l).rdata = s.rdata := rfl
@[simp] theorem State.writeResults_draws (l : List (Fin 8 × Word)) : (s.writeResults l).draws = s.draws := rfl

@[simp] theorem State.writeResults_nil : s.writeResults [] = s := rfl

@[simp] theorem State.writeResults_cons (p : Fin 8 × Word) (l : List (Fin 8 × Word)) :
    s.writeResults (p :: l) = (s.setX p.1 p.2).writeResults l := rfl

/-- A register no result is written to is as before. -/
theorem State.writeResults_x_of_notMem {s : State} {l : List (Fin 8 × Word)} {j : Fin 8} (h : ∀ p ∈ l, p.1 ≠ j) :
    (s.writeResults l).x j = s.x j := by
  induction l generalizing s with
  | nil => rfl
  | cons p l ih =>
    have hp : p.1 ≠ j := h p List.mem_cons_self
    rw [State.writeResults_cons, ih fun q hq => h q (List.mem_cons_of_mem _ hq), State.setX_x_ne _ _ hp]

/-- A register a result is written to holds the same word whatever the state was before. -/
theorem State.writeResults_x_of_mem {l : List (Fin 8 × Word)} {j : Fin 8} (h : ∃ p ∈ l, p.1 = j) (s s' : State) :
    (s'.writeResults l).x j = (s.writeResults l).x j := by
  induction l generalizing s s' with
  | nil => simp at h
  | cons p l ih =>
    by_cases hl : ∃ q ∈ l, q.1 = j
    · simp only [State.writeResults_cons, ih hl (s.setX p.1 p.2)]
    · have hp : p.1 = j := by simpa [hl] using h
      have hn : ∀ q ∈ l, q.1 ≠ j := fun q hq he => hl ⟨q, hq, he⟩
      subst hp
      simp only [State.writeResults_cons, State.writeResults_x_of_notMem hn, State.setX_x_same]

@[simp] theorem State.writeFsm_status (v : Option Word) : (s.writeFsm v).status = s.status := by cases v <;> rfl
@[simp] theorem State.writeFsm_fsm (v : Option Word) : (s.writeFsm v).fsm = v.getD s.fsm := by cases v <;> rfl
@[simp] theorem State.writeFsm_x (v : Option Word) (i : Fin 8) : (s.writeFsm v).x i = s.x i := by cases v <;> rfl
@[simp] theorem State.writeFsm_buf (v : Option Word) (b : BufId) : (s.writeFsm v).buf b = s.buf b := by
  cases v
  · rfl
  · exact s.setFsm_buf _ b
@[simp] theorem State.writeFsm_params (v : Option Word) : (s.writeFsm v).params = s.params := by cases v <;> rfl
@[simp] theorem State.writeFsm_pending (v : Option Word) : (s.writeFsm v).pending = s.pending := by cases v <;> rfl
@[simp] theorem State.writeFsm_rdata (v : Option Word) : (s.writeFsm v).rdata = s.rdata := by cases v <;> rfl
@[simp] theorem State.writeFsm_draws (v : Option Word) : (s.writeFsm v).draws = s.draws := by cases v <;> rfl

/-! ### Effects -/

/-- A success ends with the status of a success (R76). -/
@[simp] theorem Effect.apply_success_status (w : Option BufWrite) (l : List (Fin 8 × Word)) (v : Option Word) :
    ((Effect.success w l v).apply s).status = statusOk s.status := by simp [Effect.apply]

/-- A failure in flight ends with the status of an error (R224). -/
@[simp] theorem Effect.apply_failure_status (e : ErrCode) (db : Option BufId) (v : Option Word) :
    ((Effect.failure e db v).apply s).status = statusErr s.status e := by
  obtain ⟨hst, -⟩ := (s.writeFsm v).failInFlight_spec e db
  simpa [Effect.apply] using hst

/-- What can happen to `STATUS`: it is left, or written as a success or as an error writes it (R27). -/
inductive StatusWritten (st : Word) : Word → Prop where
  | kept : StatusWritten st st
  | ok : StatusWritten st (statusOk st)
  | error (e : ErrCode) : StatusWritten st (statusErr st e)

/-- An effect ends with the status of a success or of an error (R76, R224). -/
theorem Effect.apply_status (s : State) (E : Effect) : StatusWritten s.status (E.apply s).status := by
  cases E with
  | success w l v => rw [Effect.apply_success_status]; exact .ok
  | failure e db v => rw [Effect.apply_failure_status]; exact .error e

/-- After an effect `FSM` holds the word it writes, or what it held. -/
@[simp] theorem Effect.apply_fsm (E : Effect) : (E.apply s).fsm = E.fsm.getD s.fsm := by
  cases E with
  | success w l v => simp [Effect.apply, Effect.fsm]
  | failure e db v =>
    obtain ⟨-, hfsm, -⟩ := (s.writeFsm v).failInFlight_spec e db
    simpa [Effect.apply, Effect.fsm] using hfsm

/-- No effect touches the host's side. -/
theorem Effect.apply_host (E : Effect) : SameHostSide s (E.apply s) := by
  cases E with
  | success w l v => constructor <;> simp [Effect.apply]
  | failure e db v =>
    obtain ⟨-, -, hparams, hpending, hrdata, -⟩ := (s.writeFsm v).failInFlight_spec e db
    exact ⟨by simpa [Effect.apply] using hparams, by simpa [Effect.apply] using hpending,
      by simpa [Effect.apply] using hrdata⟩

/-- No effect touches an order tag (R25). -/
@[simp] theorem Effect.apply_bord (E : Effect) (b : BufId) : (E.apply s).bord b = s.bord b := by
  cases E with
  | success w l v => simpa [Effect.apply, State.bord] using s.writeBuf_bord w b
  | failure e db v =>
    obtain ⟨-, -, -, -, -, -, -, hbord, -⟩ := (s.writeFsm v).failInFlight_spec e db
    simpa [Effect.apply, State.bord] using hbord b

/-- A buffer that is not an effect's destination is as before (R56, R57). -/
theorem Effect.apply_buf_of_ne {E : Effect} {b : BufId} (h : E.dest ≠ some b) : (E.apply s).buf b = s.buf b := by
  cases E with
  | success w l v =>
    cases w with
    | none => simp [Effect.apply, State.writeBuf]
    | some w =>
      have hne : w.buf ≠ b := fun he => h (congrArg some he)
      simp [Effect.apply, State.writeBuf_buf, hne]
  | failure e db v =>
    obtain ⟨-, -, -, -, -, -, -, -, hbuf, -⟩ := (s.writeFsm v).failInFlight_spec e db
    simpa [Effect.apply] using hbuf b h

/-- An argument register survives every effect whose results are not among the arguments (R17, R19). -/
theorem Effect.apply_x_of_arg {E : Effect} (h : ∀ p ∈ E.results, 4 ≤ p.1.val) {j : Fin 8} (hj : j.val < 4) :
    (E.apply s).x j = s.x j := by
  cases E with
  | success w l v =>
    have hn : ∀ p ∈ l, p.1 ≠ j := fun p hp he => absurd (h p hp) (by rw [he]; omega)
    simp [Effect.apply, State.writeResults_x_of_notMem hn]
  | failure e db v =>
    obtain ⟨-, -, -, -, -, -, hx, -⟩ := (s.writeFsm v).failInFlight_spec e db
    simpa [Effect.apply, hj] using hx j

end Sys2Proof.Machine
end

section
/-! How the frame machine ends: its failures with the states they come from, and its final states (R192, R204, R206). -/

namespace Sys2Proof.Machine

/-- The failures of the frame machine, with the states they are raised in; the last needs verification (R206). -/
inductive FrameErrorRaised (skipv : Bool) : FrameError → Prop where
  | noHeader : FrameErrorRaised skipv ⟨.notFound, .searching⟩
  | header (c : ErrCode) (hc : c = .malformed ∨ c = .decode) : FrameErrorRaised skipv ⟨c, .sfdMatched⟩
  | payload (c : ErrCode) (hc : c = .malformed ∨ c = .decode ∨ c = .unsupported) :
    FrameErrorRaised skipv ⟨c, .headerRecovered⟩
  | notGood (verify : skipv = false) : FrameErrorRaised skipv ⟨.verify, .payloadRecovered⟩

theorem findShr_error {P : Params} {S : List Bool} {e : FrameError} (h : findShr P S = .error e) :
    e = ⟨.notFound, .searching⟩ := by
  unfold findShr at h
  split at h
  · simp at h
  · simpa using h.symm

theorem recoverHeader_error {P : Params} {pick : TieChoice} {k : SfdType} {bits : List Bool} {e : FrameError}
    (h : recoverHeader P pick k bits = .error e) :
    e = ⟨.malformed, .sfdMatched⟩ ∨ e = ⟨.decode, .sfdMatched⟩ := by
  unfold recoverHeader at h
  split at h
  · split at h
    · exact .inl (by simpa using h.symm)
    · dsimp only at h
      split at h
      · simp at h
      · exact .inr (by simpa using h.symm)
  · split at h
    · exact .inl (by simpa using h.symm)
    · simp at h

/-- All that recovering a payload can do: a failure, or at most the `L` octets the header names. -/
theorem recoverPayload_cases (P : Params) (pick : TieChoice) (k : SfdType) (h : Recovered) :
    (∃ c, (c = .malformed ∨ c = .decode ∨ c = .unsupported) ∧
      recoverPayload P pick k h = .error ⟨c, .headerRecovered⟩) ∨
    ∃ raw, recoverPayload P pick k h = .ok raw ∧ raw.length ≤ (phrDecode h.H).L := by
  unfold recoverPayload
  dsimp only
  split
  · exact .inl ⟨_, .inr (.inr rfl), rfl⟩
  · split
    · split
      · exact .inl ⟨_, .inl rfl, rfl⟩
      · split
        · exact .inr ⟨_, rfl, List.length_take_le _ _⟩
        · exact .inl ⟨_, .inr (.inl rfl), rfl⟩
    · split
      · exact .inl ⟨_, .inl rfl, rfl⟩
      · exact .inr ⟨_, rfl, by simp [ceil8]; omega⟩

/-- All that verification can do (R204). -/
theorem verifyPayload_cases (skipv : Bool) (payload : List Byte) :
    (skipv = false ∧ verifyPayload skipv payload = .error ⟨.verify, .payloadRecovered⟩) ∨
      verifyPayload skipv payload = .ok (if skipv then .payloadRecovered else .verified) := by
  unfold verifyPayload
  cases skipv with
  | true => exact .inr rfl
  | false =>
    cases fcs32IsGood payload with
    | true => exact .inr rfl
    | false => exact .inl ⟨rfl, rfl⟩

@[simp] theorem length_whitenIf (P : Params) (dw : Bool) (l : List Byte) : (whitenIf P dw l).length = l.length := by
  cases dw <;> simp [whitenIf]

/-- All that the frame machine can do: raise one of its failures, or deliver a frame in its final state with at most the
octets its header names. -/
theorem decodeFrame_cases (P : Params) (pick : Nat → TieChoice) (skipv : Bool) (S : List Bool) :
    (∃ e, decodeFrame P pick skipv S = .error e ∧ FrameErrorRaised skipv e) ∨
    ∃ r, decodeFrame P pick skipv S = .ok r ∧ r.final = (if skipv then .payloadRecovered else .verified) ∧
      r.payload.length ≤ (phrDecode r.H).L := by
  unfold decodeFrame
  split
  · next e he => exact .inl ⟨e, rfl, findShr_error he ▸ .noHeader⟩
  · next shr _ =>
    split
    · next e he =>
      obtain rfl | rfl := recoverHeader_error he
      · exact .inl ⟨_, rfl, .header _ (.inl rfl)⟩
      · exact .inl ⟨_, rfl, .header _ (.inr rfl)⟩
    · next h _ =>
      obtain ⟨c, hc, hp⟩ | ⟨raw, hp, hlen⟩ := recoverPayload_cases P (pick 2) shr.kind h
      · exact .inl ⟨⟨c, .headerRecovered⟩, by rw [hp], .payload c hc⟩
      · rw [hp]
        dsimp only
        obtain ⟨hs, hv⟩ | hv := verifyPayload_cases skipv (whitenIf P (phrDecode h.H).dw raw)
        · exact .inl ⟨_, by rw [hv], .notGood hs⟩
        · exact .inr ⟨_, by rw [hv], rfl, by simpa using hlen⟩

/-- The frame machine never fails with the code of success. -/
theorem FrameErrorRaised.code_ne_ok {skipv : Bool} {e : FrameError} (h : FrameErrorRaised skipv e) : e.code ≠ .ok := by
  cases h with
  | noHeader => decide
  | header c hc => rcases hc with rfl | rfl <;> decide
  | payload c hc => rcases hc with rfl | rfl | rfl <;> decide
  | notGood => decide

/-- The words a failed frame machine leaves in `FSM` (R29, R206). -/
theorem FrameErrorRaised.fsmFailed_mem {skipv : Bool} {e : FrameError} (h : FrameErrorRaised skipv e) :
    fsmFailed e.src ∈ [0x06#32, 0x16#32, 0x1E#32] ∨ (fsmFailed e.src = 0x26#32 ∧ skipv = false) := by
  cases h with
  | noHeader => exact .inl (by decide)
  | header => exact .inl (by simp [fsmFailed, FsmState.code])
  | payload => exact .inl (by simp [fsmFailed, FsmState.code])
  | notGood verify => exact .inr ⟨by decide, verify⟩

/-- The effect of FRMDEC: a failure of the frame machine, or a delivered frame (R205, R206). -/
theorem frameEffect_cases (sb db : BufId) (skipv : Bool) (s : State) :
    (∃ e, frameEffect db (frameOf sb skipv s) = .failure e.code (some db) (some (fsmFailed e.src)) ∧
      FrameErrorRaised skipv e) ∨
    ∃ (r : FrameResult) (l : List (Fin 8 × Word)),
      frameEffect db (frameOf sb skipv s) =
        produceEffect db r.payload (8 * (phrDecode r.H).L) l (some (fsmAt r.final)) ∧
      (∀ p ∈ l, 4 ≤ p.1.val) ∧ r.final = (if skipv then .payloadRecovered else .verified) ∧
      r.payload.length ≤ (phrDecode r.H).L := by
  obtain ⟨e, he, hraised⟩ | ⟨r, hr, hfinal, hlen⟩ := decodeFrame_cases s.params Config.tiePick skipv (s.stream sb)
  · exact .inl ⟨e, by rw [frameOf, he, frameEffect], hraised⟩
  · exact .inr ⟨r, _, by rw [frameOf, hr, frameEffect], by simp, hfinal, hlen⟩

/-- The effect of SHRDET: the failure of its scan, or the results of a find, `FSM` at the SFD (R174). -/
theorem shrEffect_cases (found : Option Shr) :
    shrEffect found = .failure .notFound none (some (fsmFailed .searching)) ∨
      ∃ l : List (Fin 8 × Word), shrEffect found = .success none l (some (fsmAt .sfdMatched)) ∧
        ∀ p ∈ l, 4 ≤ p.1.val := by
  cases found with
  | none => exact .inl rfl
  | some h => exact .inr ⟨_, rfl, by simp⟩

end Sys2Proof.Machine
end

section
/-! What the effect of each command writes: its destination, its results, `FSM`, its error codes. -/

namespace Sys2Proof.Machine

/-- The buffer a command may write: `SB` for the in-place commands, `DB` for the two-buffer ones (R55, R56). -/
def destOf : Instr → Option BufId
  | .rdbit _ | .rev _ | .fcs32 _ | .fcschk _ | .shrdet _ | .phrenc | .phrdec => none
  | .wrbit sb | .whiten sb | .ilv sb | .fcsapp sb => some sb
  | .rscenc _ db | .nrnscenc _ db | .rscdec _ db | .nrnscdec _ db | .frmdec _ db _ | .frmenc _ db _ _ _ _ => some db

/-- The commands that write `FSM` (R29). -/
def WritesFsm : Instr → Prop
  | .shrdet _ | .frmdec _ _ _ => True
  | _ => False

/-- An effect with destination `db` that writes only the result registers and, if it fails, has an error's code. -/
structure Effect.Proper (E : Effect) (db : Option BufId) : Prop where
  dest : E.dest = db
  results : ∀ p ∈ E.results, 4 ≤ p.1.val
  code : E.CodeNotOk

theorem decodeEffect_proper (f : Family) (sb db : BufId) (s : State) : (decodeEffect f sb db s).Proper (some db) := by
  unfold decodeEffect
  split
  · exact ⟨rfl, by simp [produceEffect, Effect.results], trivial⟩
  · exact ⟨rfl, by simp [Effect.results], by simp [Effect.CodeNotOk]⟩

theorem shrEffect_proper (found : Option Shr) : (shrEffect found).Proper none := by
  obtain h | ⟨l, h, hl⟩ := shrEffect_cases found
  · rw [h]; exact ⟨rfl, by simp [Effect.results], by simp [Effect.CodeNotOk]⟩
  · rw [h]; exact ⟨rfl, hl, trivial⟩

theorem frameEffect_proper (sb db : BufId) (skipv : Bool) (s : State) :
    (frameEffect db (frameOf sb skipv s)).Proper (some db) := by
  obtain ⟨e, h, hraised⟩ | ⟨r, l, h, hl, -⟩ := frameEffect_cases sb db skipv s
  · rw [h]; exact ⟨rfl, by simp [Effect.results], hraised.code_ne_ok⟩
  · rw [h]; exact ⟨rfl, hl, trivial⟩

/-- Every command writes its own destination and results alone. -/
theorem commandEffect_proper (i : Instr) (s : State) : (commandEffect i s).Proper (destOf i) := by
  cases i with
  | rscdec sb db => exact decodeEffect_proper .rsc sb db s
  | nrnscdec sb db => exact decodeEffect_proper .nrnsc sb db s
  | shrdet sb => exact shrEffect_proper _
  | frmdec sb db skipv => exact frameEffect_proper sb db skipv s
  | _ => exact ⟨rfl, by simp [commandEffect, resultEffect, inPlaceEffect, encodeEffect, produceEffect, Effect.results],
      trivial⟩

/-- A decoder command writes no `FSM`. -/
theorem decodeEffect_fsm (f : Family) (sb db : BufId) (s : State) : (decodeEffect f sb db s).fsm = none := by
  unfold decodeEffect
  split <;> rfl

/-- Fifteen commands write no `FSM` (R29). -/
theorem commandEffect_fsm {i : Instr} (h : ¬WritesFsm i) (s : State) : (commandEffect i s).fsm = none := by
  cases i with
  | rscdec sb db => exact decodeEffect_fsm .rsc sb db s
  | nrnscdec sb db => exact decodeEffect_fsm .nrnsc sb db s
  | shrdet sb => exact absurd trivial h
  | frmdec sb db skipv => exact absurd trivial h
  | _ => rfl

/-- No check rejects with the code of success. -/
theorem commandChecks_code_ne_ok (i : Instr) (s : State) : ∀ c ∈ commandChecks i s, c.2 ≠ .ok := by
  cases i <;> simp [commandChecks, encChecks, decChecks, frmencChecks]

/-- Once no check fails, each of them holds (R76). -/
theorem check_holds {cs : List (Bool × ErrCode)} {holds : Bool} {e : ErrCode} (h : firstFailure cs = none)
    (hmem : (holds, e) ∈ cs) : holds = true := firstFailure_eq_none.1 h _ hmem

/-- The code of a rejection is the code of one of the checks. -/
theorem firstFailure_mem {cs : List (Bool × ErrCode)} {e : ErrCode} (h : firstFailure cs = some e) :
    ∃ c ∈ cs, c.2 = e := by
  induction cs with
  | nil => simp at h
  | cons c cs ih =>
    obtain ⟨holds, e'⟩ := c
    cases holds with
    | true =>
      obtain ⟨c, hc, he⟩ := ih (by simpa using h)
      exact ⟨c, List.mem_cons_of_mem _ hc, he⟩
    | false => exact ⟨_, List.mem_cons_self, by simpa using h⟩

/-- A command is never rejected with the code of success. -/
theorem firstFailure_commandChecks_ne_ok {i : Instr} {s : State} {e : ErrCode}
    (h : firstFailure (commandChecks i s) = some e) : e ≠ .ok := by
  obtain ⟨c, hc, rfl⟩ := firstFailure_mem h
  exact commandChecks_code_ne_ok i s c hc

end Sys2Proof.Machine
end

section
/-! Which parts of the state a command reads: `x[0]`, `x[1]`, the buffers and the parameters (R17, R28). -/

namespace Sys2Proof.Machine

/-- Two states with the same operands, buffers and parameters. -/
structure SameOperands (s s' : State) : Prop where
  x0 : s'.x 0 = s.x 0
  x1 : s'.x 1 = s.x 1
  buf : ∀ b, s'.buf b = s.buf b
  params : s'.params = s.params

section
variable {s s' : State} (h : SameOperands s s')
include h

theorem SameOperands.a0 : s'.a0 = s.a0 := by simp only [State.a0, h.x0]
theorem SameOperands.a1 : s'.a1 = s.a1 := by simp only [State.a1, h.x1]
theorem SameOperands.blen (b : BufId) : s'.blen b = s.blen b := by simp only [State.blen, h.buf]
theorem SameOperands.bord (b : BufId) : s'.bord b = s.bord b := by simp only [State.bord, h.buf]
theorem SameOperands.byteAt (b : BufId) (j : Nat) : s'.byteAt b j = s.byteAt b j := by simp only [State.byteAt, h.buf]
theorem SameOperands.bytes (b : BufId) (n : Nat) : s'.bytes b n = s.bytes b n := by
  simp only [State.bytes, funext (h.byteAt b)]
theorem SameOperands.streamOf (b : BufId) (n : Nat) : s'.streamOf b n = s.streamOf b n := by
  simp only [State.streamOf, h.bytes]
theorem SameOperands.rdBit (b : BufId) (i : Nat) : s'.rdBit b i = s.rdBit b i := by
  simp only [State.rdBit, h.byteAt, h.bord]
theorem SameOperands.stream (b : BufId) : s'.stream b = s.stream b := by
  simp only [State.stream, State.rdBits, h.rdBit, h.blen]
theorem SameOperands.bitsInside (b : BufId) (n : Nat) : s'.bitsInside b n = s.bitsInside b n := by
  simp only [State.bitsInside, h.blen]
theorem SameOperands.bytesInside (b : BufId) (n : Nat) : s'.bytesInside b n = s.bytesInside b n := by
  simp only [State.bytesInside, h.blen]
theorem SameOperands.capBits : s'.capBits = s.capBits := by simp only [State.capBits, h.params]
theorem SameOperands.fits (n : Nat) : s'.fits n = s.fits n := by simp only [State.fits, h.capBits]
theorem SameOperands.decodeOf_eq (f : Family) (sb : BufId) : decodeOf f sb s' = decodeOf f sb s := by
  simp only [decodeOf, h.a0, h.a1, h.streamOf]
theorem SameOperands.frameOf_eq (sb : BufId) (skipv : Bool) : frameOf sb skipv s' = frameOf sb skipv s := by
  simp only [frameOf, h.stream, h.params]

/-- The checks of a command depend on its operands, the buffers and the parameters alone. -/
theorem SameOperands.commandChecks_eq (i : Instr) : commandChecks i s' = commandChecks i s := by
  cases i <;> simp only [commandChecks, encChecks, decChecks, frmencChecks, h.a0, h.a1, h.x1, h.blen,
    h.bitsInside, h.bytesInside, h.fits]

/-- The effect of a command depends on its operands, the buffers and the parameters alone. -/
theorem SameOperands.commandEffect_eq (i : Instr) : commandEffect i s' = commandEffect i s := by
  cases i <;> simp only [commandEffect, encodeEffect, decodeEffect, h.a0, h.a1, h.x0, h.x1, h.params, h.bord,
    h.byteAt, h.bytes, h.rdBit, h.stream, h.streamOf, h.decodeOf_eq, h.frameOf_eq]

/-- One buffer write on states with the same buffers leaves the same buffers. -/
theorem SameOperands.writeBuf (w : Option BufWrite) (b : BufId) : (s'.writeBuf w).buf b = (s.writeBuf w).buf b := by
  cases w with
  | none => exact h.buf b
  | some w => simp only [State.writeBuf_buf, h.buf]

end

/-! ### Two states after one command -/

/-- How two states after one command agree: the error code, the buffers and results of a success, the write of `FSM`,
and `STICKY` set by the error alone (R28, R225, R226). -/
def EndsAlike (s s' t t' : State) : Prop :=
  errField t'.status = errField t.status ∧
    (errField t.status = 0#32 → (∀ b, t'.buf b = t.buf b) ∧
      (∀ j, t'.x j = t.x j ∨ (t.x j = s.x j ∧ t'.x j = s'.x j))) ∧
    (t'.fsm = t.fsm ∨ (t.fsm = s.fsm ∧ t'.fsm = s'.fsm)) ∧
    stickyBit t.status = (stickyBit s.status || decide (errField t.status ≠ 0#32)) ∧
    stickyBit t'.status = (stickyBit s'.status || decide (errField t.status ≠ 0#32))

/-- The code of an error is not that of a success (R221). -/
theorem ErrCode.code_ne_zero {e : ErrCode} (h : e ≠ .ok) : e.code ≠ 0#32 := by
  cases e with
  | ok => exact absurd rfl h
  | _ => decide

/-- A failed command ends alike in two states, whatever it leaves in results and buffers. -/
theorem EndsAlike.of_error {s s' t t' : State} {e : ErrCode} (he : e ≠ .ok) (ht : t.status = statusErr s.status e)
    (ht' : t'.status = statusErr s'.status e) (hfsm : t'.fsm = t.fsm ∨ (t.fsm = s.fsm ∧ t'.fsm = s'.fsm)) :
    EndsAlike s s' t t' := by
  have hcode : e.code ≠ 0#32 := ErrCode.code_ne_zero he
  exact ⟨by simp [ht, ht'], fun h => absurd (by simpa [ht] using h) hcode, hfsm, by simp [ht, hcode],
    by simp [ht, ht', hcode]⟩

/-- A register after the same results are written to two states: the same word, or in both what it was. -/
theorem State.writeResults_x_alike (s s' : State) (l : List (Fin 8 × Word)) (j : Fin 8) :
    (s'.writeResults l).x j = (s.writeResults l).x j ∨
      ((s.writeResults l).x j = s.x j ∧ (s'.writeResults l).x j = s'.x j) := by
  by_cases hj : ∃ p ∈ l, p.1 = j
  · exact .inl (State.writeResults_x_of_mem hj s s')
  · have hn : ∀ p ∈ l, p.1 ≠ j := fun p hp he => hj ⟨p, hp, he⟩
    exact .inr ⟨State.writeResults_x_of_notMem hn, State.writeResults_x_of_notMem hn⟩

/-- One effect ends alike in two states with the same operands. -/
theorem SameOperands.apply_endsAlike {s s' : State} (h : SameOperands s s') {E : Effect} (hE : E.CodeNotOk) :
    EndsAlike s s' (E.apply s) (E.apply s') := by
  have hfsm : (E.apply s').fsm = (E.apply s).fsm ∨ ((E.apply s).fsm = s.fsm ∧ (E.apply s').fsm = s'.fsm) := by
    rw [Effect.apply_fsm, Effect.apply_fsm]
    cases E.fsm with
    | none => exact .inr ⟨rfl, rfl⟩
    | some v => exact .inl rfl
  cases E with
  | failure e db v => exact .of_error hE (by simp) (by simp) hfsm
  | success w l v =>
    refine ⟨by simp, fun _ => ⟨fun b => ?_, fun j => ?_⟩, hfsm, by simp, by simp⟩
    · simpa [Effect.apply] using h.writeBuf w b
    · simpa [Effect.apply] using State.writeResults_x_alike (s.writeBuf w) (s'.writeBuf w) l j

/-- One command ends alike in two states with the same operands (R28, R225). -/
theorem SameOperands.checked_endsAlike {s s' : State} (h : SameOperands s s') (i : Instr) :
    EndsAlike s s' (s.checked (commandChecks i s) ((commandEffect i s).apply s))
      (s'.checked (commandChecks i s') ((commandEffect i s').apply s')) := by
  rw [h.commandChecks_eq, h.commandEffect_eq]
  cases hc : firstFailure (commandChecks i s) with
  | some e =>
    rw [State.checked_fail hc, State.checked_fail hc]
    exact .of_error (firstFailure_commandChecks_ne_ok hc) rfl rfl (.inr ⟨rfl, rfl⟩)
  | none =>
    rw [State.checked_pass hc, State.checked_pass hc]
    exact h.apply_endsAlike (commandEffect_proper i s).code

/-- Settles O18: equal operands give equal checks and an equal effect, and one effect ends alike in both states. -/
theorem commandsReadOnlyOperandsAndBuffers : Obligations.CommandsReadOnlyOperandsAndBuffers := by
  intro i s s' hx0 hx1 hbuf hparams
  have h : SameOperands s s' := ⟨hx0, hx1, hbuf, hparams⟩
  exact ⟨_, _, exec_eq i s, exec_eq i s', h.checked_endsAlike i⟩

end Sys2Proof.Machine
end

section
/-! What every command keeps (R17, R25, R29, R55, R56). -/

namespace Sys2Proof.Machine

/-- A command changes no argument register, no tag, nothing of the host's side and no buffer but its destination. -/
theorem exec_frame {i : Instr} {s t : State} (h : exec i s = .next t) :
    (∀ j : Fin 8, j.val < 4 → t.x j = s.x j) ∧ (∀ b, t.bord b = s.bord b) ∧ SameHostSide s t ∧
      ∀ b, destOf i ≠ some b → t.buf b = s.buf b := by
  obtain ⟨e, -, rfl⟩ | ⟨-, rfl⟩ := exec_cases h
  · exact ⟨by simp, by simp, ⟨rfl, rfl, rfl⟩, by simp⟩
  · obtain ⟨hdest, hresults, -⟩ := commandEffect_proper i s
    exact ⟨fun j hj => Effect.apply_x_of_arg s hresults hj, by simp, Effect.apply_host s _,
      fun b hb => Effect.apply_buf_of_ne s (by rwa [hdest])⟩

/-- A command that writes no `FSM` leaves it as it is (R29). -/
theorem exec_fsm {i : Instr} {s t : State} (hi : ¬WritesFsm i) (h : exec i s = .next t) : t.fsm = s.fsm := by
  obtain ⟨e, -, rfl⟩ | ⟨-, rfl⟩ := exec_cases h
  · rfl
  · simp [commandEffect_fsm hi]

/-- Settles O16: every command's effect has the destination its rule names, and its results lie above the arguments. -/
theorem commandsWriteOnlyTheirDestination : Obligations.CommandsWriteOnlyTheirDestination := by
  intro i s t h
  obtain ⟨hargs, hord, hhost, hbuf⟩ := exec_frame h
  refine ⟨hargs, hord, hhost, ?_⟩
  cases i with
  | rdbit | rev | fcs32 | fcschk | shrdet | phrenc | phrdec => exact fun b => hbuf b (by simp [destOf])
  | wrbit | whiten | ilv | fcsapp => exact fun b hb => hbuf b (by simpa [destOf] using hb.symm)
  | rscenc | nrnscenc | rscdec | nrnscdec | frmdec | frmenc => exact fun b hb => hbuf b (by simpa [destOf] using hb.symm)

/-- SHRDET leaves `FSM` at the SFD or failed from the search, unless it was rejected (R29, R174). -/
theorem exec_shrdet_fsm {sb : BufId} {s t : State} (h : exec (.shrdet sb) s = .next t) :
    (s.blen sb < (s.x 0).toNat → t.fsm = s.fsm) ∧
      ((s.x 0).toNat ≤ s.blen sb → t.fsm = 0x02#32 ∨ t.fsm = 0x06#32) := by
  refine ⟨fun hlt => ?_, fun hle => ?_⟩
  · have hc : firstFailure (commandChecks (.shrdet sb) s) = some .capacity := by
      simp [commandChecks, State.bitsInside, State.a0, Nat.not_le.2 hlt]
    rw [exec_of_check_fails hc h, State.reject_fsm]
  · have hc : firstFailure (commandChecks (.shrdet sb) s) = none := by
      simp [commandChecks, State.bitsInside, State.a0, hle]
    rw [exec_of_checks_hold hc h, Effect.apply_fsm, commandEffect]
    obtain hE | ⟨l, hE, -⟩ := shrEffect_cases (shrDetect s.params (s.stream sb) s.a0)
    · exact .inr (by rw [hE]; rfl)
    · exact .inl (by rw [hE]; rfl)

/-- FRMDEC leaves `FSM` at the frame machine's final state, or failed from the state it failed in, unless it was rejected
(R29, R205, R206). -/
theorem exec_frmdec_fsm {sb db : BufId} {skipv : Bool} {s t : State} (h : exec (.frmdec sb db skipv) s = .next t) :
    (sb = db → t.fsm = s.fsm) ∧
      (sb ≠ db → (t.fsm = 0x05#32 ∧ skipv = false) ∨ (t.fsm = 0x04#32 ∧ skipv = true) ∨
        (t.fsm ∈ [0x06#32, 0x16#32, 0x1E#32]) ∨ (t.fsm = 0x26#32 ∧ skipv = false)) := by
  refine ⟨fun heq => ?_, fun hne => ?_⟩
  · have hc : firstFailure (commandChecks (.frmdec sb db skipv) s) = some .illegal := by simp [commandChecks, heq]
    rw [exec_of_check_fails hc h, State.reject_fsm]
  · have hc : firstFailure (commandChecks (.frmdec sb db skipv) s) = none := by simp [commandChecks, hne]
    rw [exec_of_checks_hold hc h, Effect.apply_fsm, commandEffect]
    obtain ⟨e, hE, hraised⟩ | ⟨r, l, hE, -, hfinal, -⟩ := frameEffect_cases sb db skipv s
    · rw [hE]
      exact .inr (.inr hraised.fsmFailed_mem)
    · rw [hE, hfinal]
      cases skipv with
      | false => exact .inl ⟨rfl, rfl⟩
      | true => exact .inr (.inl ⟨rfl, rfl⟩)

/-- Settles O17: fifteen effects write no `FSM`; SHRDET and FRMDEC write the words their own lemmas name. -/
theorem onlyFrameCommandsWriteFsm : Obligations.OnlyFrameCommandsWriteFsm := by
  intro i s t h
  cases i with
  | shrdet sb => exact exec_shrdet_fsm h
  | frmdec sb db skipv => exact exec_frmdec_fsm h
  | _ => exact exec_fsm (by simp [WritesFsm]) h

end Sys2Proof.Machine
end

section
/-! What the host's accesses do (R21, R23 to R30, R58), and the status word across a step (R27, R226). -/

namespace Sys2Proof.Machine

/-! ### Accesses taken off the list, data returned -/

@[simp] theorem State.withPending_buf (s : State) (rest : List HostAccess) (b : BufId) :
    ({ s with pending := rest } : State).buf b = s.buf b := by cases b <;> rfl
@[simp] theorem State.withPending_x (s : State) (rest : List HostAccess) (i : Fin 8) :
    ({ s with pending := rest } : State).x i = s.x i := rfl
@[simp] theorem State.withPending_byteAt (s : State) (rest : List HostAccess) (b : BufId) (j : Nat) :
    ({ s with pending := rest } : State).byteAt b j = s.byteAt b j := by
  rw [State.byteAt, State.withPending_buf, State.byteAt]
@[simp] theorem State.withPending_blen (s : State) (rest : List HostAccess) (b : BufId) :
    ({ s with pending := rest } : State).blen b = s.blen b := by rw [State.blen, State.withPending_buf, State.blen]
@[simp] theorem State.withPending_bord (s : State) (rest : List HostAccess) (b : BufId) :
    ({ s with pending := rest } : State).bord b = s.bord b := by rw [State.bord, State.withPending_buf, State.bord]
@[simp] theorem State.withRdata_buf (s : State) (v : Word) (b : BufId) :
    ({ s with rdata := v } : State).buf b = s.buf b := by cases b <;> rfl

/-! ### Writes -/

/-- A four-byte access at a register's offset reaches that register (R58). -/
theorem busItem_of_regItem {off : Nat} {item : BusItem} (h : regItem off = some item) (P : Params) :
    busItem P off 4 = .ok item := by simp [busItem, h]

/-- A step whose next access writes an item other than `CMD` is that write. -/
theorem step_of_write {s : State} {off n : Nat} {v : Word} {rest : List HostAccess} {item : BusItem}
    (hp : s.pending = .write off n v :: rest) (hi : busItem s.params off n = .ok item) (hne : item ≠ .cmd) :
    step s = .next (busWrite { s with pending := rest } v item) := by
  cases item with
  | cmd => exact absurd rfl hne
  | _ => simp only [step, hp, busAccess, hi]

/-- A step whose next access writes a word to `CMD` is the command of that word (R21). -/
theorem step_of_cmdWrite {s : State} {w : Word} {rest : List HostAccess} (hp : s.pending = .write 0x0000 4 w :: rest) :
    step s = runCommand w { s with pending := rest } := by
  have hi : busItem s.params 0x0000 4 = .ok .cmd := busItem_of_regItem rfl _
  simp only [step, hp, busAccess, hi]

/-- Settles O4: the write to `CMD` starts the word's command, which is `exec` of what the word decodes to. -/
theorem stepRunsTheDecodedCommand : Obligations.StepRunsTheDecodedCommand := by
  intro s w i rest hp hw
  rw [step_of_cmdWrite hp, runCommand, hw]

/-- The offsets of the read-only registers, and the items there, which ignore a write (R58, H2). -/
theorem regItem_readOnly {off : Nat} (h : off ∈ [0x04, 0x08, 0x0C, 0x38, 0x48]) :
    ∃ item, regItem off = some item ∧ item ≠ .cmd ∧ ∀ (s : State) (v : Word), busWrite s v item = s := by
  simp only [List.mem_cons, List.not_mem_nil, or_false] at h
  obtain rfl | rfl | rfl | rfl | rfl := h
  · exact ⟨.status, rfl, by simp, fun _ _ => rfl⟩
  · exact ⟨.fsm, rfl, by simp, fun _ _ => rfl⟩
  · exact ⟨.cap, rfl, by simp, fun _ _ => rfl⟩
  · exact ⟨.bbytes .b0, rfl, by simp, fun _ _ => rfl⟩
  · exact ⟨.bbytes .b1, rfl, by simp, fun _ _ => rfl⟩

/-- Settles O10: each of the five offsets is a register whose write does nothing. -/
theorem readOnlyRegistersIgnoreWrites : Obligations.ReadOnlyRegistersIgnoreWrites := by
  intro s off v rest hoff hp
  obtain ⟨item, hreg, hne, hkeep⟩ := regItem_readOnly hoff
  rw [step_of_write hp (busItem_of_regItem hreg _) hne, hkeep]

/-- The offset of `BLEN[b]` (R58). -/
theorem regItem_blen (b : BufId) : regItem (0x30 + 0x10 * bufIndex b) = some (.blen b) := by cases b <;> rfl

/-- A length within the capacity is taken (R23). -/
theorem busWrite_blen_of_le {s : State} {v : Word} (h : v.toNat ≤ 8 * s.params.capBytes) (b : BufId) :
    busWrite s v (.blen b) = s.setLen b v.toNat := if_pos h

/-- A length above the capacity is rejected (R23). -/
theorem busWrite_blen_of_gt {s : State} {v : Word} (h : 8 * s.params.capBytes < v.toNat) (b : BufId) :
    busWrite s v (.blen b) = s.reject .capacity := if_neg (Nat.not_le.2 h)

/-- Settles O9: the write reaches `BLEN[b]`, which takes a length within the capacity and rejects a larger one (R23). -/
theorem hostLengthWriteIsChecked : Obligations.HostLengthWriteIsChecked := by
  intro s b v rest hp
  rw [step_of_write hp (busItem_of_regItem (regItem_blen b) _) (by simp)]
  refine ⟨fun hle => ⟨_, congrArg _ (busWrite_blen_of_le (s := { s with pending := rest }) hle b), ?_,
      fun c hc => ?_, by simp, by simp, by simp, by simp, by simp, by simp, by simp, by simp, by simp⟩,
    fun hgt => ⟨_, congrArg _ (busWrite_blen_of_gt (s := { s with pending := rest }) hgt b), State.reject_rejected _ _⟩⟩
  · rw [State.setLen_blen, if_pos rfl, Nat.mod_eq_of_lt v.isLt]
  · rw [State.setLen_blen, if_neg hc.symm, State.withPending_blen]

/-- Settles O12: the reset state's fields as the model gives them (R35). -/
theorem resetValuesAreZero : Obligations.ResetValuesAreZero :=
  ⟨State.resetWith_x Config.params, rfl, rfl, fun b => by cases b <;> rfl, fun b => by cases b <;> rfl⟩

/-! ### The status word -/

/-- A command ends with the status of a success or of an error (R76, R224). -/
theorem exec_status {i : Instr} {s t : State} (h : exec i s = .next t) : StatusWritten s.status t.status := by
  obtain ⟨e, -, rfl⟩ | ⟨-, rfl⟩ := exec_cases h
  · exact .error e
  · exact Effect.apply_status s _

/-- A host write leaves `STATUS`, or rejects a length (R23). -/
theorem busWrite_status (s : State) (v : Word) (item : BusItem) : StatusWritten s.status (busWrite s v item).status := by
  cases item with
  | cmd | status | fsm | cap | bbytes => exact .kept
  | x i => exact .kept
  | bord b => rw [busWrite, State.setOrd_status]; exact .kept
  | byte b j => rw [busWrite, State.writeBytes_status]; exact .kept
  | blen b =>
    rw [busWrite]
    split
    · rw [State.setLen_status]; exact .kept
    · exact .error .capacity

/-- What a step does to `STATUS`. -/
theorem step_status {s t : State} (h : step s = .next t) : StatusWritten s.status t.status := by
  obtain ⟨-, rfl⟩ | ⟨a, rest, -, hdone | ⟨w, -, hrun⟩⟩ := step_cases h
  · exact .kept
  · obtain ⟨off, n, item, -, -, rfl⟩ | ⟨off, n, v, item, -, -, -, rfl⟩ := busAccess_done hdone
    · exact .kept
    · exact busWrite_status { s with pending := rest } v item
  · obtain ⟨i, -, hi⟩ | ⟨-, hi⟩ := runCommand_cases w { s with pending := rest }
    · rw [hi] at hrun
      exact exec_status (s := { s with pending := rest }) hrun
    · rw [hi] at hrun
      obtain rfl := Host.Outcome.next.inj hrun
      exact .error .illegal

/-- Settles O15: no way of writing `STATUS` clears `STICKY`, and the way of an error sets it. -/
theorem stickyIsNeverCleared : Obligations.StickyIsNeverCleared := by
  intro s t h
  have hw := step_status h
  generalize t.status = st at hw
  cases hw with
  | kept => exact ⟨id, fun _ hne => absurd rfl hne⟩
  | ok => exact ⟨by simp, fun hne => absurd (errField_statusOk _) hne⟩
  | error e => exact ⟨by simp, by simp⟩

end Sys2Proof.Machine
end

section
/-! How long the codec's outputs are: a survivor's path, a decode, a coded body, a frame (R112, R130, R211). -/

namespace Sys2Proof.Machine

@[simp] theorem length_fecBits (f : Family) (m : Nat) (l : List Bool) : (fecBits f m l).length = 2 * l.length := by
  induction l generalizing m with
  | nil => rfl
  | cons b bs ih => simp only [fecBits, List.length_cons, ih]; omega

@[simp] theorem length_recvSymbols : ∀ enc : List Bool, (recvSymbols enc).length = enc.length / 2
  | [] => rfl
  | [_] => by simp [recvSymbols]
  | b0 :: b1 :: rest => by
    simp only [recvSymbols, List.length_cons, length_recvSymbols rest]
    omega

/-! ### Survivors -/

/-- Every survivor of a column has a path of `n` bits. -/
def PathsOfLength (n : Nat) (col : Column) : Prop := ∀ v, some v ∈ col → v.2.length = n

/-- What is kept of a list of candidates was kept before or is one of them (R133). -/
theorem mem_of_foldl_better {takeNew : Bool} {l : List Survivor} {kept : Option Survivor} {v : Survivor}
    (h : l.foldl (better takeNew) kept = some v) : kept = some v ∨ v ∈ l := by
  induction l generalizing kept with
  | nil => exact .inl h
  | cons c l ih =>
    have hb : better takeNew kept c = kept ∨ better takeNew kept c = some c := by
      unfold better
      repeat' split
      all_goals simp
    rcases ih h with hk | hm
    · rcases hb with hb | hb
      · exact .inl (hb ▸ hk)
      · obtain rfl : c = v := Option.some.inj (hb ▸ hk)
        exact .inr List.mem_cons_self
    · exact .inr (List.mem_cons_of_mem _ hm)

/-- A candidate's path is a survivor's path with one bit more (R133). -/
theorem PathsOfLength.length_candidate {n : Nat} {col : Column} (h : PathsOfLength n col) {f : Family} {r : BitVec 2}
    {m' m : Nat} {b : Bool} {v : Survivor} (hv : candidate f col r m' m b = some v) : v.2.length = n + 1 := by
  unfold candidate at hv
  split at hv
  · split at hv
    · next d path hcol =>
      obtain rfl := Option.some.inj hv
      have hmem : some (d, path) ∈ col := by
        rw [List.getD_eq_getElem?_getD] at hcol
        cases hget : col[m]? with
        | none => simp [hget] at hcol
        | some c =>
          obtain rfl : c = some (d, path) := by simpa [hget] using hcol
          exact List.mem_of_getElem? hget
      simp [h _ hmem]
    · simp at hv
  · simp at hv

/-- One symbol makes every path one bit longer (R133). -/
theorem PathsOfLength.nextColumn {n : Nat} {col : Column} (h : PathsOfLength n col) (f : Family) (pick : Nat → Bool)
    (r : BitVec 2) : PathsOfLength (n + 1) (nextColumn f pick col r) := by
  intro v hv
  obtain ⟨m', -, hfold⟩ := List.mem_map.1 hv
  have hmem : v ∈ candidates f col r m' := by simpa using mem_of_foldl_better hfold
  obtain ⟨m, -, hm⟩ := List.mem_flatMap.1 hmem
  rcases List.mem_append.1 hm with hm | hm
  · exact h.length_candidate (Option.mem_toList.1 hm)
  · exact h.length_candidate (Option.mem_toList.1 hm)

/-- After all symbols every path has a bit for each of them (R133). -/
theorem PathsOfLength.runColumns {n : Nat} {col : Column} (h : PathsOfLength n col) (f : Family)
    (pick : Nat → Nat → Bool) (k : Nat) (rs : List (BitVec 2)) :
    PathsOfLength (n + rs.length) (runColumns f pick k col rs) := by
  induction rs generalizing n col k with
  | nil => exact h
  | cons r rs ih =>
    have hlen : n + (r :: rs).length = n + 1 + rs.length := by simp; omega
    rw [hlen]
    exact ih (h.nextColumn f (pick k) r) (k + 1)

/-- Before the first symbol the one path is empty (R133). -/
theorem pathsOfLength_startColumn (f : Family) (m : Nat) : PathsOfLength 0 (startColumn f m) := by
  intro v hv
  obtain ⟨k, -, hk⟩ := List.mem_map.1 hv
  split at hk
  · obtain rfl := Option.some.inj hk
    rfl
  · simp at hk

/-- The end selection names a survivor of the column, or the one it was given (R134). -/
theorem mem_of_endSelection {pick : Nat → Bool} {k : Nat} {best : Option (Nat × Survivor)} {col : Column}
    {r : Nat × Survivor} (h : endSelection pick k best col = some r) : best = some r ∨ some r.2 ∈ col := by
  induction col generalizing k best with
  | nil => exact .inl h
  | cons c col ih =>
    cases c with
    | none => exact (ih h).imp_right (List.mem_cons_of_mem _)
    | some v =>
      have hstep : ∀ {k best'}, endSelection pick k best' col = some r →
          best' = best ∨ (∃ m, best' = some (m, v)) → best = some r ∨ some r.2 ∈ some v :: col := by
        intro k best' h' hbest
        rcases ih h' with hr | hr
        · rcases hbest with rfl | ⟨m, rfl⟩
          · exact .inl hr
          · obtain rfl := Option.some.inj hr
            exact .inr List.mem_cons_self
        · exact .inr (List.mem_cons_of_mem _ hr)
      cases best with
      | none => exact hstep h (.inr ⟨k, rfl⟩)
      | some p =>
        rw [endSelection] at h
        split at h
        · exact hstep h (.inr ⟨k, rfl⟩)
        · exact hstep h (.inl rfl)

/-- A decode has at most one bit for each received symbol (R130). -/
theorem length_fecDecode_le (f : Family) (pick : Nat → Nat → Bool) (m : Nat) (enc : List Bool) :
    (fecDecode f pick m enc).bits.length ≤ enc.length / 2 := by
  unfold fecDecode
  dsimp only
  split
  · next k d path hsel =>
    have hpaths := (pathsOfLength_startColumn f m).runColumns f pick 0 (recvSymbols enc)
    have hmem : some (d, path) ∈ runColumns f pick 0 (startColumn f m) (recvSymbols enc) := by
      simpa using mem_of_endSelection hsel
    have hlen := hpaths _ hmem
    simp only [length_recvSymbols] at hlen
    simp only [List.length_reverse]
    omega
  · simp

/-! ### Frames -/

theorem length_tailpad (f : Family) (m L : Nat) : (tailpad f m (padOctets L)).length = padOctets L := by
  have hpad : 1 ≤ padOctets L := by unfold padOctets; split <;> omega
  simp [tailpad]
  omega

@[simp] theorem length_frameCore (P : Params) (dw : Bool) (data : List Byte) :
    (frameCore P dw data).length = 2 + (data.length + 4) := by simp [frameCore, headerBytes, framePayload]; omega

/-- The body has the length R211 gives. -/
theorem length_frameBody (P : Params) (k : SfdType) (fam : Family) (dw : Bool) (data : List Byte) :
    (frameBody P k fam dw data).length = bodyLength k (data.length + 4) := by
  unfold frameBody bodyLength
  dsimp only
  split
  · simp [length_tailpad, ceil8]
    omega
  · simp

/-- The frame has the length R211 gives, for a preamble of whole patterns. -/
theorem length_encodeFrame (P : Params) (k : SfdType) (fam : Family) (dw : Bool) {plen : Nat} (hplen : plen % 8 = 0)
    (data : List Byte) : (encodeFrame P k fam dw plen data).length = frameBits k plen (data.length + 4) := by
  have hpre : ((List.replicate (plen / 8) pre).flatten).length = plen := by simp [pre]; omega
  simp only [encodeFrame, frameBits, List.length_append, hpre, length_streamBits, length_frameBody, sfdBits,
    length_bitsOfWord]

end Sys2Proof.Machine
end

section
/-! The invariant in three parts: each buffer, the status word, `FSM`. -/

namespace Sys2Proof.Machine

/-- A buffer the invariant allows: a memory in canonical form within the capacity, a length within it, no filling newer
than the draws (R22, R23). -/
structure Buffer.Legal (P : Params) (draws : Nat) (B : Buffer) : Prop where
  wf : B.mem.wf
  inside : ∀ p ∈ B.mem.cells, p.1 < P.capBytes
  len : B.len.toNat ≤ 8 * P.capBytes
  fill : B.mem.fill ≤ draws

/-- A status word the invariant allows (R27, R221). -/
structure LegalStatus (st : Word) : Prop where
  reserved : st &&& ~~~0x107#32 = 0#32
  sticky : errField st ≠ 0#32 → stickyBit st = true

/-- The invariant says that buffers, status and `FSM` are legal. -/
theorem State.inv_iff (s : State) :
    s.Inv ↔ (∀ b, (s.buf b).Legal s.params s.draws) ∧ LegalStatus s.status ∧ LegalFsm s.fsm :=
  ⟨fun ⟨hwf, hin, hlen, hst, hsticky, hfsm, hfill⟩ =>
      ⟨fun b => ⟨hwf b, hin b, hlen b, hfill b⟩, ⟨hst, hsticky⟩, hfsm⟩,
    fun ⟨hb, ⟨hst, hsticky⟩, hfsm⟩ =>
      ⟨fun b => (hb b).wf, fun b => (hb b).inside, fun b => (hb b).len, hst, hsticky, hfsm, fun b => (hb b).fill⟩⟩

/-! ### Buffers -/

/-- A buffer write that stays within the capacity. -/
structure BufWrite.Fits (P : Params) (w : BufWrite) : Prop where
  bytes : w.start + w.bytes.length ≤ P.capBytes
  len : ∀ n, w.len = some n → n ≤ 8 * P.capBytes

/-- A write within the capacity keeps a buffer legal. -/
theorem Buffer.Legal.write {P : Params} {d : Nat} {B : Buffer} (h : B.Legal P d) {w : BufWrite} (hw : w.Fits P) :
    (w.apply B).Legal P d := by
  refine ⟨Memory.writeBytes_wf h.wf _ _, fun p hp => ?_, ?_, by simpa [BufWrite.apply] using h.fill⟩
  · rcases Memory.mem_writeBytes hp with hp | ⟨-, hlt⟩
    · exact h.inside p hp
    · exact Nat.lt_of_lt_of_le hlt hw.bytes
  · cases hn : w.len with
    | none => simpa [BufWrite.apply, hn] using h.len
    | some n =>
      simp only [BufWrite.apply, hn, Option.map_some, Option.getD_some, BitVec.toNat_ofNat]
      exact Nat.le_trans (Nat.mod_le _ _) (hw.len n hn)

/-- A later draw keeps a buffer legal. -/
theorem Buffer.Legal.mono {P : Params} {d d' : Nat} {B : Buffer} (h : B.Legal P d) (hd : d ≤ d') : B.Legal P d' :=
  ⟨h.wf, h.inside, h.len, Nat.le_trans h.fill hd⟩

/-- A buffer lost in a failure is legal (R57). -/
theorem Buffer.Legal.of_unspecified {P : Params} {d : Nat} {B : Buffer} (hmem : B.mem = Memory.unspecified d)
    (hlen : B.len.toNat ≤ 8 * P.capBytes) : B.Legal P d :=
  ⟨hmem ▸ Memory.unspecified_wf d, by simp [hmem, Memory.unspecified], hlen, by simp [hmem, Memory.unspecified]⟩

/-! ### The status word -/

/-- A success keeps the status word legal (R76). -/
theorem LegalStatus.statusOk {st : Word} (h : LegalStatus st) : LegalStatus (statusOk st) := by
  refine ⟨?_, fun hne => absurd (errField_statusOk st) hne⟩
  calc (st &&& 0xFFFFFFF0#32 ||| 0#32) &&& ~~~0x107#32
      = (st &&& ~~~0x107#32) &&& 0xFFFFFFF0#32 := by
        rw [BitVec.or_zero, BitVec.and_assoc, BitVec.and_assoc, BitVec.and_comm 0xFFFFFFF0#32]
    _ = 0#32 := by rw [h.reserved, BitVec.zero_and]

/-- An error keeps the status word legal (R224, R226). -/
theorem LegalStatus.statusErr {st : Word} (h : LegalStatus st) (e : ErrCode) : LegalStatus (statusErr st e) := by
  refine ⟨?_, fun _ => stickyBit_statusErr st e⟩
  have hcode : (e.code ||| 0x100#32) &&& ~~~0x107#32 = 0#32 := by cases e <;> decide
  calc (st &&& 0xFFFFFFF0#32 ||| e.code ||| 0x100#32) &&& ~~~0x107#32
      = (st &&& ~~~0x107#32) &&& 0xFFFFFFF0#32 ||| (e.code ||| 0x100#32) &&& ~~~0x107#32 := by
        rw [BitVec.or_assoc, BitVec.and_or_distrib_right, BitVec.and_assoc, BitVec.and_assoc,
          BitVec.and_comm 0xFFFFFFF0#32]
    _ = 0#32 := by rw [h.reserved, hcode, BitVec.zero_and, BitVec.or_zero]

/-- However `STATUS` is written, it stays legal. -/
theorem LegalStatus.written {st st' : Word} (h : LegalStatus st) (hw : StatusWritten st st') : LegalStatus st' := by
  cases hw with
  | kept => exact h
  | ok => exact h.statusOk
  | error e => exact h.statusErr e

end Sys2Proof.Machine
end

section
/-! Every step keeps the invariant: buffer writes stay within the capacity, `FSM` gets a legal word. -/

namespace Sys2Proof.Machine

/-- The buffer write of an effect. -/
def Effect.write : Effect → Option BufWrite
  | .success w _ _ => w
  | .failure _ _ _ => none

/-! ### Effects -/

/-- A success whose write stays within the capacity keeps every buffer legal. -/
theorem Effect.apply_success_legal {s : State} (h : ∀ b, (s.buf b).Legal s.params s.draws) {w : Option BufWrite}
    (hw : ∀ u, w = some u → u.Fits s.params) (l : List (Fin 8 × Word)) (v : Option Word) (b : BufId) :
    (((Effect.success w l v).apply s).buf b).Legal ((Effect.success w l v).apply s).params
      ((Effect.success w l v).apply s).draws := by
  have hbuf : ((s.writeBuf w).buf b).Legal s.params s.draws := by
    cases w with
    | none => exact h b
    | some u =>
      rw [State.writeBuf_buf]
      split
      · exact (h b).write (hw u rfl)
      · exact h b
  simpa [Effect.apply] using hbuf

/-- A failure in flight keeps every buffer legal: a lost one is unspecified, its length within the capacity (R57). -/
theorem Effect.apply_failure_legal {s : State} (h : ∀ b, (s.buf b).Legal s.params s.draws) (e : ErrCode)
    (db : Option BufId) (v : Option Word) (b : BufId) :
    (((Effect.failure e db v).apply s).buf b).Legal ((Effect.failure e db v).apply s).params
      ((Effect.failure e db v).apply s).draws := by
  obtain ⟨-, -, hparams, -, -, hdraws, -, -, hkept, hlost⟩ := (s.writeFsm v).failInFlight_spec e db
  rw [Effect.apply, hparams, hdraws, State.writeFsm_params, State.writeFsm_draws]
  by_cases hb : db = some b
  · obtain ⟨hlen, hmem⟩ := hlost b hb
    exact .of_unspecified (by simpa using hmem) (by simpa [State.blen, State.capBits] using hlen)
  · rw [hkept b hb, State.writeFsm_buf]
    exact (h b).mono (Nat.le_succ _)

/-- An effect within the capacity whose word for `FSM` is legal keeps the invariant. -/
theorem State.Inv.apply {s : State} (h : s.Inv) {E : Effect} (hw : ∀ u, E.write = some u → u.Fits s.params)
    (hf : ∀ v, E.fsm = some v → LegalFsm v) : (E.apply s).Inv := by
  obtain ⟨hbuf, hstatus, hfsm⟩ := s.inv_iff.1 h
  refine (State.inv_iff _).2 ⟨?_, hstatus.written (Effect.apply_status s E), ?_⟩
  · cases E with
    | success w l v => exact Effect.apply_success_legal hbuf hw l v
    | failure e db v => exact Effect.apply_failure_legal hbuf e db v
  · rw [Effect.apply_fsm]
    cases hv : E.fsm with
    | none => exact hfsm
    | some v => exact hf v hv

/-- A rejection keeps the invariant. -/
theorem State.Inv.reject {s : State} (h : s.Inv) (e : ErrCode) : (s.reject e).Inv := by
  obtain ⟨hbuf, hstatus, hfsm⟩ := s.inv_iff.1 h
  exact (State.inv_iff _).2 ⟨fun b => by simpa using hbuf b, hstatus.statusErr e, hfsm⟩

/-! ### Commands -/

/-- The words a state of the frame machine leaves in `FSM` are legal (R29). -/
theorem legalFsm_fsmAt {m : FsmState} (h : m ≠ .failed) : LegalFsm (fsmAt m) := by
  cases m with
  | failed => exact absurd rfl h
  | _ => unfold LegalFsm; decide

/-- The words a failure of the frame machine leaves in `FSM` are legal (R29). -/
theorem FrameErrorRaised.legalFsm {skipv : Bool} {e : FrameError} (h : FrameErrorRaised skipv e) :
    LegalFsm (fsmFailed e.src) := by
  unfold LegalFsm
  cases h with
  | noHeader | notGood => decide
  | header c | payload c => dsimp only; decide

/-- The word a command writes to `FSM` is legal (R29). -/
theorem commandEffect_fsm_legal (i : Instr) (s : State) {v : Word} (hv : (commandEffect i s).fsm = some v) :
    LegalFsm v := by
  cases i with
  | shrdet sb =>
    rw [commandEffect] at hv
    obtain hE | ⟨l, hE, -⟩ := shrEffect_cases (shrDetect s.params (s.stream sb) s.a0)
    · rw [hE] at hv
      obtain rfl := Option.some.inj hv
      exact (FrameErrorRaised.noHeader (skipv := false)).legalFsm
    · rw [hE] at hv
      obtain rfl := Option.some.inj hv
      exact legalFsm_fsmAt (by decide)
  | frmdec sb db skipv =>
    rw [commandEffect] at hv
    obtain ⟨e, hE, hraised⟩ | ⟨r, l, hE, -, hfinal, -⟩ := frameEffect_cases sb db skipv s
    · rw [hE] at hv
      obtain rfl := Option.some.inj hv
      exact hraised.legalFsm
    · rw [hE] at hv
      obtain rfl := Option.some.inj hv
      exact legalFsm_fsmAt (by rw [hfinal]; cases skipv <;> decide)
  | _ => rw [commandEffect_fsm id] at hv; cases hv

/-- The effect of a decoder writes at most half the encoded bits (R138, R139). -/
theorem decodeEffect_write {f : Family} {sb db : BufId} {s : State} {u : BufWrite}
    (h : (decodeEffect f sb db s).write = some u) :
    u = ⟨db, 0, pack (decodeOf f sb s).bits, some (s.a0 / 2)⟩ ∧ (decodeOf f sb s).bits.length ≤ s.a0 / 2 := by
  unfold decodeEffect at h
  split at h
  · exact ⟨(Option.some.inj h).symm, by
      have hlen := length_fecDecode_le f (Config.tiePick 0 f s.a1 (s.streamOf sb s.a0)) s.a1 (s.streamOf sb s.a0)
      rwa [State.length_streamOf] at hlen⟩
  · simp [Effect.write] at h

/-- SHRDET writes no buffer. -/
theorem shrEffect_write (found : Option Shr) : (shrEffect found).write = none := by cases found <;> rfl

/-- An encoder's write fits when its checks hold (R117, R118). -/
theorem encodeEffect_fits {f : Family} {sb db : BufId} {s : State} (hc : firstFailure (encChecks f sb db s) = none)
    {u : BufWrite} (hu : (encodeEffect f sb db s).write = some u) : u.Fits s.params := by
  obtain rfl := Option.some.inj hu
  have hfits : s.fits (2 * s.a0) = true := check_holds (e := .capacity) hc (by simp [encChecks])
  have hle : 2 * s.a0 ≤ 8 * s.params.capBytes := of_decide_eq_true hfits
  exact ⟨by simp [ceil8]; omega, by simpa using hle⟩

/-- A decoder's write fits when its checks hold (R138, R139). -/
theorem decodeEffect_fits {f : Family} {sb db : BufId} {s : State} (hs : s.Inv)
    (hc : firstFailure (decChecks f sb db s) = none) {u : BufWrite} (hu : (decodeEffect f sb db s).write = some u) :
    u.Fits s.params := by
  obtain ⟨rfl, hlen⟩ := decodeEffect_write hu
  have hinside : s.bitsInside sb s.a0 = true := check_holds (e := .capacity) hc (by simp [decChecks])
  have hle : s.a0 ≤ s.blen sb := of_decide_eq_true hinside
  have hcap : s.blen sb ≤ 8 * s.params.capBytes := hs.lenInside sb
  exact ⟨by simp [ceil8]; omega, by simp; omega⟩

/-- FRMDEC's write fits: a header names at most 2047 octets, less than every capacity (R6, R175, R205). -/
theorem frameEffect_fits {sb db : BufId} {skipv : Bool} {s : State} {u : BufWrite}
    (hu : (frameEffect db (frameOf sb skipv s)).write = some u) : u.Fits s.params := by
  obtain ⟨e, hE, -⟩ | ⟨r, l, hE, -, -, hlen⟩ := frameEffect_cases sb db skipv s
  · rw [hE] at hu
    simp [Effect.write] at hu
  · rw [hE] at hu
    obtain rfl := Option.some.inj hu
    have hL : (phrDecode r.H).L ≤ 2047 := by
      simp only [phrDecode, BitVec.toNat_and]
      exact Nat.and_le_right
    have hcap := s.params.cap_lo
    exact ⟨by dsimp only; omega, by simp; omega⟩

/-- FRMENC's write fits when its checks hold: its length is the one they compare with the capacity (R207, R211). -/
theorem frmenc_fits {sb db : BufId} {fam : Family} {dw : Bool} {sfd : SfdType} {fcst : Bool} {s : State}
    (hc : firstFailure (frmencChecks sb db sfd fcst s) = none) {u : BufWrite}
    (hu : (commandEffect (.frmenc sb db fam dw sfd fcst) s).write = some u) : u.Fits s.params := by
  obtain rfl := Option.some.inj hu
  have hpre : decide (s.a1 % 8 = 0 ∧ 8 ≤ s.a1) = true := check_holds (e := .malformed) hc (by simp [frmencChecks])
  have hfits : s.fits (frameBits sfd s.a1 (s.a0 + 4)) = true :=
    check_holds (e := .capacity) hc (by simp [frmencChecks])
  obtain ⟨hplen, -⟩ := of_decide_eq_true hpre
  have hle : frameBits sfd s.a1 (s.a0 + 4) ≤ 8 * s.params.capBytes := of_decide_eq_true hfits
  exact ⟨by simp [length_encodeFrame _ _ _ _ hplen, ceil8]; omega, by simpa using hle⟩

/-- What a command writes once its checks hold stays within the capacity (R23, R47). -/
theorem commandEffect_fits {i : Instr} {s : State} (hs : s.Inv) (hc : firstFailure (commandChecks i s) = none)
    {u : BufWrite} (hu : (commandEffect i s).write = some u) : u.Fits s.params := by
  have hcap : ∀ b, s.blen b ≤ 8 * s.params.capBytes := hs.lenInside
  cases i with
  | rdbit | rev | fcs32 | fcschk | phrenc | phrdec => simp [commandEffect, resultEffect, Effect.write] at hu
  | shrdet => simp [commandEffect, shrEffect_write] at hu
  | rscenc | nrnscenc => exact encodeEffect_fits hc hu
  | rscdec | nrnscdec => exact decodeEffect_fits hs hc hu
  | frmdec => exact frameEffect_fits hu
  | frmenc => exact frmenc_fits hc hu
  | wrbit sb =>
    obtain rfl := Option.some.inj hu
    have hcheck : decide (s.a0 < s.blen sb) = true := check_holds (e := .capacity) hc (by simp [commandChecks])
    have hlt := of_decide_eq_true hcheck
    have := hcap sb
    exact ⟨by simp; omega, by simp⟩
  | whiten sb =>
    obtain rfl := Option.some.inj hu
    have hcheck : s.bytesInside sb s.a0 = true := check_holds (e := .capacity) hc (by simp [commandChecks])
    have hle : 8 * s.a0 ≤ s.blen sb := of_decide_eq_true hcheck
    have := hcap sb
    exact ⟨by simp; omega, by simp⟩
  | ilv sb =>
    obtain rfl := Option.some.inj hu
    have hcheck : s.bitsInside sb s.a0 = true := check_holds (e := .capacity) hc (by simp [commandChecks])
    have hle : s.a0 ≤ s.blen sb := of_decide_eq_true hcheck
    have := hcap sb
    exact ⟨by simp; omega, by simp⟩
  | fcsapp sb =>
    obtain rfl := Option.some.inj hu
    have hcheck : s.fits (8 * (s.a0 + 4)) = true := check_holds (e := .capacity) hc (by simp [commandChecks])
    have hle : 8 * (s.a0 + 4) ≤ 8 * s.params.capBytes := of_decide_eq_true hcheck
    exact ⟨by simp; omega, by simpa using hle⟩

/-- Every command keeps the invariant. -/
theorem State.Inv.exec {i : Instr} {s t : State} (hs : s.Inv) (h : exec i s = .next t) : t.Inv := by
  obtain ⟨e, -, rfl⟩ | ⟨hc, rfl⟩ := exec_cases h
  · exact hs.reject e
  · exact hs.apply (fun _ hu => commandEffect_fits hs hc hu) (fun _ hv => commandEffect_fsm_legal i s hv)

/-! ### Host accesses -/

/-- The invariant does not speak of the accesses to come, the data returned, or the registers. -/
theorem State.Inv.congr {s t : State} (hs : s.Inv) (hbuf : ∀ b, t.buf b = s.buf b) (hparams : t.params = s.params)
    (hstatus : t.status = s.status) (hfsm : t.fsm = s.fsm) (hdraws : t.draws = s.draws) : t.Inv := by
  rw [State.inv_iff] at hs ⊢
  simpa only [hbuf, hparams, hstatus, hfsm, hdraws] using hs

/-- A buffer write within the capacity keeps the invariant. -/
theorem State.Inv.setBuf {s : State} (hs : s.Inv) (b : BufId) {B : Buffer} (hB : B.Legal s.params s.draws) :
    (s.setBuf b B).Inv := by
  obtain ⟨hbuf, hstatus, hfsm⟩ := s.inv_iff.1 hs
  refine (State.inv_iff _).2 ⟨fun c => ?_, by simpa using hstatus, by simpa using hfsm⟩
  rw [State.setBuf_buf, State.setBuf_params, State.setBuf_draws]
  split
  · exact hB
  · exact hbuf c

/-- No register stands in the buffers' address ranges (R58). -/
theorem regItem_ne_byte (off : Nat) (b : BufId) (j : Nat) : regItem off ≠ some (.byte b j) := by
  unfold regItem
  repeat' split
  all_goals simp

/-- The byte at an offset of a buffer's address range lies within the capacity (R58). -/
theorem byteItem_lt {P : Params} {off j : Nat} {b : BufId} (h : byteItem P off = some (.byte b j)) :
    j < P.capBytes := by
  unfold byteItem at h
  split at h
  · obtain ⟨-, rfl⟩ := BusItem.byte.inj (Option.some.inj h)
    omega
  · split at h
    · obtain ⟨-, rfl⟩ := BusItem.byte.inj (Option.some.inj h)
      omega
    · simp at h

/-- A byte the host reaches lies within the capacity (R58). -/
theorem busItem_byte_lt {P : Params} {off n j : Nat} {b : BufId} (h : busItem P off n = .ok (.byte b j)) :
    j < P.capBytes := by
  unfold busItem at h
  split at h
  · next item hreg =>
    split at h
    · obtain rfl := Except.ok.inj h
      exact absurd hreg (regItem_ne_byte off b j)
    · simp at h
  · split at h
    · next item hitem =>
      split at h
      · obtain rfl := Except.ok.inj h
        exact byteItem_lt hitem
      · simp at h
    · split at h <;> simp at h

/-- A host write keeps the invariant: a length is checked (R23), a byte lies within the capacity (R58). -/
theorem State.Inv.busWrite {s : State} (hs : s.Inv) (v : Word) {item : BusItem}
    (hbyte : ∀ b j, item = .byte b j → j < s.params.capBytes) : (busWrite s v item).Inv := by
  obtain ⟨hbuf, -, -⟩ := s.inv_iff.1 hs
  cases item with
  | cmd | status | fsm | cap | bbytes => exact hs
  | x i => exact hs.congr (by simp [Machine.busWrite]) rfl rfl rfl rfl
  | bord b => exact hs.setBuf b ⟨(hbuf b).wf, (hbuf b).inside, (hbuf b).len, (hbuf b).fill⟩
  | byte b j => exact hs.setBuf b ((hbuf b).write (w := ⟨b, j, [v.setWidth 8], none⟩) ⟨hbyte b j rfl, by simp⟩)
  | blen b =>
    by_cases hle : v.toNat ≤ 8 * s.params.capBytes
    · rw [busWrite_blen_of_le hle]
      exact hs.setBuf b ⟨(hbuf b).wf, (hbuf b).inside, by simpa using hle, (hbuf b).fill⟩
    · rw [busWrite_blen_of_gt (Nat.lt_of_not_le hle)]
      exact hs.reject .capacity

/-- Settles O14: idle steps, host accesses and commands each keep the invariant. -/
theorem stepKeepsInvariant : Obligations.StepKeepsInvariant := by
  intro s t hs h
  obtain ⟨-, rfl⟩ | ⟨a, rest, -, hdone | ⟨w, -, hrun⟩⟩ := step_cases h
  · exact hs
  · have hpop : ({ s with pending := rest } : State).Inv := hs.congr (by simp) rfl rfl rfl rfl
    obtain ⟨off, n, item, -, -, rfl⟩ | ⟨off, n, v, item, -, hitem, -, rfl⟩ := busAccess_done hdone
    · exact hpop.congr (State.withRdata_buf _ _) rfl rfl rfl rfl
    · exact hpop.busWrite v fun b j hj => busItem_byte_lt (hj ▸ hitem)
  · have hpop : ({ s with pending := rest } : State).Inv := hs.congr (by simp) rfl rfl rfl rfl
    obtain ⟨i, -, hi⟩ | ⟨-, hi⟩ := runCommand_cases w { s with pending := rest }
    · rw [hi] at hrun
      exact hpop.exec hrun
    · rw [hi] at hrun
      obtain rfl := Host.Outcome.next.inj hrun
      exact hpop.reject .illegal

/-- Settles O13: empty buffers, status 0 and `FSM` 0 are legal. -/
theorem resetMeetsInvariant : Obligations.ResetMeetsInvariant := by
  refine (State.inv_iff _).2 ⟨fun b => ?_, ⟨by decide, by decide⟩, by unfold LegalFsm; decide⟩
  exact ⟨State.reset_wf b, by simp [State.reset, Buffer.reset], by simp [State.reset, Buffer.reset],
    by simp [State.reset, Buffer.reset]⟩

end Sys2Proof.Machine
end

section
/-! The address map (R58): which accesses reach which item, what a read returns, what a write followed by a read leaves. -/

namespace Sys2Proof.Machine

/-! ### The items of the map -/

/-- The offsets of the registers (R58). -/
def registerOffsets : List Nat :=
  [0x00, 0x04, 0x08, 0x0C, 0x10, 0x14, 0x18, 0x1C, 0x20, 0x24, 0x28, 0x2C, 0x30, 0x34, 0x38, 0x40, 0x44, 0x48]

/-- An offset names a register exactly when it is listed. -/
theorem regItem_isSome_iff (off : Nat) : (regItem off).isSome = true ↔ off ∈ registerOffsets := by
  simp only [registerOffsets, List.mem_cons, List.not_mem_nil, or_false]
  constructor
  · intro h
    by_contra hn
    have hx : ¬(0x10 ≤ off ∧ off < 0x30 ∧ off % 4 = 0) := by omega
    simp only [not_or] at hn
    simp [regItem, hn, hx] at h
  · intro h
    repeat' obtain rfl | h := h
    all_goals rfl

/-- Registers lie below the buffers. -/
theorem lt_of_regItem_isSome {off : Nat} (h : (regItem off).isSome = true) : off < 0x4C := by
  rw [regItem_isSome_iff] at h
  simp only [registerOffsets, List.mem_cons, List.not_mem_nil, or_false] at h
  omega

/-- An offset names a buffer byte exactly when it lies within the capacity of a buffer. -/
theorem byteItem_isSome_iff (P : Params) (off : Nat) :
    (byteItem P off).isSome = true ↔
      0x10000000 ≤ off ∧ off < 0x10000000 + P.capBytes ∨ 0x20000000 ≤ off ∧ off < 0x20000000 + P.capBytes := by
  rw [byteItem, show bufBase .b0 = 0x10000000 from rfl, show bufBase .b1 = 0x20000000 from rfl]
  by_cases h0 : 0x10000000 ≤ off ∧ off < 0x10000000 + P.capBytes
  · rw [if_pos h0]
    exact iff_of_true rfl (.inl h0)
  · rw [if_neg h0]
    by_cases h1 : 0x20000000 ≤ off ∧ off < 0x20000000 + P.capBytes
    · rw [if_pos h1]
      exact iff_of_true rfl (.inr h1)
    · rw [if_neg h1]
      exact iff_of_false Bool.false_ne_true (not_or.2 ⟨h0, h1⟩)

/-- No offset is both a register's and a buffer byte's. -/
theorem regItem_eq_none_of_byte {P : Params} {off : Nat} (h : (byteItem P off).isSome = true) : regItem off = none := by
  by_contra hne
  have hlt := lt_of_regItem_isSome (Option.isSome_iff_ne_none.2 hne)
  rw [byteItem_isSome_iff] at h
  omega

/-- A single-byte access at a byte's offset reaches that byte. -/
theorem busItem_of_byteItem {P : Params} {off : Nat} {item : BusItem} (h : byteItem P off = some item) :
    busItem P off 1 = .ok item := by
  have hreg : regItem off = none := regItem_eq_none_of_byte (by rw [h, Option.isSome_some])
  simp [busItem, hreg, h]

/-- The accesses that reach an item: four bytes at a register, one byte in a buffer. -/
theorem busItem_ok_iff (P : Params) (off n : Nat) :
    (∃ item, busItem P off n = .ok item) ↔
      n = 4 ∧ (regItem off).isSome = true ∨ n = 1 ∧ (byteItem P off).isSome = true := by
  constructor
  · rintro ⟨item, h⟩
    unfold busItem at h
    split at h
    · next reg hreg =>
      split at h
      · next hn => exact .inl ⟨hn, by rw [hreg, Option.isSome_some]⟩
      · simp at h
    · split at h
      · next byte hbyte =>
        split at h
        · next hn => exact .inr ⟨hn, by rw [hbyte, Option.isSome_some]⟩
        · simp at h
      · split at h <;> simp at h
  · rintro (⟨rfl, h⟩ | ⟨rfl, h⟩)
    · obtain ⟨item, hitem⟩ := Option.isSome_iff_exists.1 h
      exact ⟨item, busItem_of_regItem hitem P⟩
    · obtain ⟨item, hitem⟩ := Option.isSome_iff_exists.1 h
      exact ⟨item, busItem_of_byteItem hitem⟩

/-- The offset of `x[i]`. -/
theorem regItem_x (i : Fin 8) : regItem (0x10 + 4 * i.val) = some (.x i) := by
  fin_cases i <;> rfl

/-- The offset of `BORD[b]`. -/
theorem regItem_bord (b : BufId) : regItem (0x34 + 0x10 * bufIndex b) = some (.bord b) := by cases b <;> rfl

/-- The offset of `BBYTES[b]`. -/
theorem regItem_bbytes (b : BufId) : regItem (0x38 + 0x10 * bufIndex b) = some (.bbytes b) := by cases b <;> rfl

/-- The offset of byte `j` of a buffer: the ranges of the two buffers do not meet, as a capacity is at most `2^28`. -/
theorem byteItem_byte {P : Params} {j : Nat} (hj : j < P.capBytes) (b : BufId) :
    byteItem P (0x10000000 * (bufIndex b + 1) + j) = some (.byte b j) := by
  have hcap := P.cap_hi
  cases b with
  | b0 =>
    have hin : 0x10000000 ≤ 0x10000000 + j ∧ 0x10000000 + j < 0x10000000 + P.capBytes := by omega
    simp [byteItem, bufIndex, bufBase, hin]
  | b1 =>
    have hout : ¬(0x10000000 ≤ 0x20000000 + j ∧ 0x20000000 + j < 0x10000000 + P.capBytes) := by omega
    have hin : 0x20000000 ≤ 0x20000000 + j ∧ 0x20000000 + j < 0x20000000 + P.capBytes := by omega
    simp [byteItem, bufIndex, bufBase, hout, hin]

/-! ### Reads -/

/-- The state after the host has read an item, with the accesses then to come (R54). -/
def State.readItem (s : State) (rest : List HostAccess) (item : BusItem) : State :=
  { s with pending := rest, rdata := busRead s item }

section
variable (s : State) (rest : List HostAccess) (item : BusItem)

@[simp] theorem State.readItem_rdata : (s.readItem rest item).rdata = busRead s item := rfl
@[simp] theorem State.readItem_pending : (s.readItem rest item).pending = rest := rfl
@[simp] theorem State.readItem_x (i : Fin 8) : (s.readItem rest item).x i = s.x i := rfl
@[simp] theorem State.readItem_status : (s.readItem rest item).status = s.status := rfl
@[simp] theorem State.readItem_fsm : (s.readItem rest item).fsm = s.fsm := rfl
@[simp] theorem State.readItem_params : (s.readItem rest item).params = s.params := rfl
@[simp] theorem State.readItem_draws : (s.readItem rest item).draws = s.draws := rfl
@[simp] theorem State.readItem_buf (b : BufId) : (s.readItem rest item).buf b = s.buf b := by cases b <;> rfl
@[simp] theorem State.readItem_byteAt (b : BufId) (j : Nat) : (s.readItem rest item).byteAt b j = s.byteAt b j := by
  simp [State.byteAt]
@[simp] theorem State.readItem_blen (b : BufId) : (s.readItem rest item).blen b = s.blen b := by simp [State.blen]
@[simp] theorem State.readItem_bord (b : BufId) : (s.readItem rest item).bord b = s.bord b := by simp [State.bord]

/-- What a read returns does not depend on the accesses to come. -/
theorem busRead_withPending : busRead { s with pending := rest } item = busRead s item := by
  cases item with
  | cmd | status | fsm | cap | x => rfl
  | blen b => rw [busRead, State.withPending_buf, busRead]
  | bord b => rw [busRead, State.withPending_bord, busRead]
  | bbytes b => rw [busRead, State.bbytes, State.withPending_blen, busRead, State.bbytes]
  | byte b j => rw [busRead, State.withPending_byteAt, busRead]

end

/-- A step whose next access reads an item is that read. -/
theorem step_of_read {s : State} {off n : Nat} {rest : List HostAccess} {item : BusItem}
    (hp : s.pending = .read off n :: rest) (hi : busItem s.params off n = .ok item) :
    step s = .next (s.readItem rest item) := by
  simp only [step, hp, busAccess, hi, busRead_withPending, State.readItem]

/-! ### Which steps are refused -/

/-- A word written to `CMD` is never refused: its command completes, or the word is rejected (R71, R76). -/
theorem runCommand_next (w : Word) (s : State) : ∃ t, runCommand w s = .next t := by
  obtain ⟨i, -, hi⟩ | ⟨-, hi⟩ := runCommand_cases w s
  · exact ⟨_, hi.trans (exec_eq i s)⟩
  · exact ⟨_, hi⟩

/-- A step whose next access is a write that reaches an item goes on: the write completes, or it starts a command. -/
theorem step_of_write_next {s : State} {off n : Nat} {v : Word} {rest : List HostAccess} {item : BusItem}
    (hp : s.pending = .write off n v :: rest) (hi : busItem s.params off n = .ok item) : ∃ t, step s = .next t := by
  by_cases hc : item = .cmd
  · subst hc
    have hrun : step s = runCommand v { s with pending := rest } := by simp only [step, hp, busAccess, hi]
    obtain ⟨t, ht⟩ := runCommand_next v { s with pending := rest }
    exact ⟨t, hrun.trans ht⟩
  · exact ⟨_, step_of_write hp hi hc⟩

/-- A step is refused exactly when its next access reaches no item of the map. -/
theorem step_refused_iff {s : State} {a : HostAccess} {rest : List HostAccess} {off n : Nat}
    (hp : s.pending = a :: rest) (ha : a = .read off n ∨ ∃ v, a = .write off n v) :
    (∃ r, step s = .refused r) ↔ ¬∃ item, busItem s.params off n = .ok item := by
  constructor
  · rintro ⟨r, hr⟩ ⟨item, hi⟩
    have hnext : ∃ t, step s = .next t := by
      obtain rfl | ⟨v, rfl⟩ := ha
      · exact ⟨_, step_of_read hp hi⟩
      · exact step_of_write_next hp hi
    obtain ⟨t, ht⟩ := hnext
    simp [hr] at ht
  · intro hnone
    cases hi : busItem s.params off n with
    | ok item => exact absurd ⟨item, hi⟩ hnone
    | error r =>
      refine ⟨r, ?_⟩
      obtain rfl | ⟨v, rfl⟩ := ha <;> simp only [step, hp, busAccess, hi]

/-- Settles O6: a step is refused when no item is reached, and an item is a register or a byte within the capacity. -/
theorem onlyUnmappedAccessesAreRefused : Obligations.OnlyUnmappedAccessesAreRefused := by
  intro s a rest off n hp ha
  rw [step_refused_iff hp ha, busItem_ok_iff, regItem_isSome_iff, byteItem_isSome_iff, not_or]
  rfl

/-! ### What each read returns -/

/-- A read of an item completes with what the item holds. -/
theorem step_read_returns {s : State} {off n : Nat} {rest : List HostAccess} {item : BusItem}
    (hp : s.pending = .read off n :: rest) (hi : busItem s.params off n = .ok item) :
    ∃ t, step s = .next t ∧ t.rdata = busRead s item :=
  ⟨_, step_of_read hp hi, rfl⟩

/-- A read of a register returns what the register holds. -/
theorem step_readRegister_returns {s : State} {off : Nat} {rest : List HostAccess} {item : BusItem}
    (hp : s.pending = .read off 4 :: rest) (hi : regItem off = some item) :
    ∃ t, step s = .next t ∧ t.rdata = busRead s item :=
  step_read_returns hp (busItem_of_regItem hi _)

/-- A read that completes changes the data returned alone. -/
theorem step_read_frame {s t : State} {off n : Nat} {rest : List HostAccess} (hp : s.pending = .read off n :: rest)
    (h : step s = .next t) : t = { s with pending := rest, rdata := t.rdata } := by
  cases hi : busItem s.params off n with
  | ok item =>
    rw [step_of_read hp hi] at h
    obtain rfl := Host.Outcome.next.inj h
    rfl
  | error r => simp [step, hp, busAccess, hi] at h

/-- `CAP` holds the capacity in bytes, which fits a word (R6, R30). -/
theorem toNat_busRead_cap (s : State) : (busRead s .cap).toNat = s.params.capBytes := by
  have hcap := s.params.cap_hi
  rw [busRead, BitVec.toNat_ofNat, Nat.mod_eq_of_lt (by omega)]

/-- `BBYTES[b]` holds the length in bytes, which fits a word as the length in bits does (R24). -/
theorem toNat_busRead_bbytes (s : State) (b : BufId) : (busRead s (.bbytes b)).toNat = (s.blen b + 7) / 8 := by
  have hlen : s.blen b < 2 ^ 32 := (s.buf b).len.isLt
  rw [busRead, BitVec.toNat_ofNat, State.bbytes, ceil8, Nat.mod_eq_of_lt (by omega)]

/-- Settles O11: a read writes the data returned alone, and each offset's item holds what the statement says. -/
theorem hostReadsHaveNoSideEffect : Obligations.HostReadsHaveNoSideEffect := by
  intro s off n rest hp
  refine ⟨fun t ht => step_read_frame hp ht, ?_, ?_, ?_, ?_, fun i => ?_, fun b => ?_, fun b => ?_, fun b => ?_,
    fun b j hj => ?_⟩
  all_goals rintro rfl rfl
  · exact step_readRegister_returns hp (item := .cmd) rfl
  · exact step_readRegister_returns hp (item := .status) rfl
  · exact step_readRegister_returns hp (item := .fsm) rfl
  · obtain ⟨t, ht, hr⟩ := step_readRegister_returns hp (item := .cap) rfl
    exact ⟨t, ht, by rw [hr, toNat_busRead_cap]⟩
  · exact step_readRegister_returns hp (regItem_x i)
  · obtain ⟨t, ht, hr⟩ := step_readRegister_returns hp (regItem_blen b)
    exact ⟨t, ht, congrArg BitVec.toNat hr⟩
  · exact step_readRegister_returns hp (regItem_bord b)
  · obtain ⟨t, ht, hr⟩ := step_readRegister_returns hp (regItem_bbytes b)
    exact ⟨t, ht, by rw [hr, toNat_busRead_bbytes]⟩
  · exact step_read_returns hp (busItem_of_byteItem (byteItem_byte hj b))

/-! ### A write, then a read of the same item -/

/-- A host write does not depend on the accesses to come. -/
theorem busWrite_withPending (s : State) (rest : List HostAccess) (v : Word) (item : BusItem) :
    busWrite { s with pending := rest } v item = { busWrite s v item with pending := rest } := by
  cases item with
  | cmd | status | fsm | cap | bbytes | x => rfl
  | bord b => cases b <;> rfl
  | byte b j => cases b <;> rfl
  | blen b =>
    by_cases h : v.toNat ≤ 8 * s.params.capBytes
    · rw [busWrite_blen_of_le (s := { s with pending := rest }) h, busWrite_blen_of_le h]
      cases b <;> rfl
    · have hgt := Nat.lt_of_not_le h
      rw [busWrite_blen_of_gt (s := { s with pending := rest }) hgt, busWrite_blen_of_gt hgt]
      rfl

/-- A host write leaves the parameters. -/
@[simp] theorem busWrite_params (s : State) (v : Word) (item : BusItem) : (busWrite s v item).params = s.params := by
  cases item with
  | cmd | status | fsm | cap | bbytes | x => rfl
  | bord b => exact State.setOrd_params s b _
  | byte b j => exact State.writeBytes_params s b j _
  | blen b =>
    rw [busWrite]
    split
    · exact State.setLen_params s b _
    · rfl

/-- A write of an item other than `CMD` and then a read of it: the state the write leaves, and then the read. -/
theorem step_write_read {s : State} {off n : Nat} {v : Word} {rest : List HostAccess} {item : BusItem}
    (hp : s.pending = .write off n v :: .read off n :: rest) (hi : busItem s.params off n = .ok item)
    (hne : item ≠ .cmd) :
    ∃ t, step s = .next t ∧ step t = .next ((busWrite s v item).readItem rest item) := by
  refine ⟨_, step_of_write hp hi hne, ?_⟩
  rw [busWrite_withPending, step_of_read rfl (by rw [busWrite_params, hi])]
  simp only [State.readItem, busRead_withPending]

/-- Settles O7: the read returns the item as written, and the write changes that item alone. -/
theorem hostRegisterWriteReadsBack : Obligations.HostRegisterWriteReadsBack := by
  refine ⟨fun s i v rest hp => ?_, fun s b v rest hp => ?_⟩
  · obtain ⟨t, ht, hu⟩ := step_write_read hp (busItem_of_regItem (regItem_x i) _) (by simp)
    refine ⟨t, _, ht, hu, ?_⟩
    have hothers : ∀ j, j ≠ i → (s.setX i v).x j = s.x j := fun j hj => s.setX_x_ne v hj.symm
    simpa [busRead, busWrite] using hothers
  · obtain ⟨t, ht, hu⟩ := step_write_read hp (busItem_of_regItem (regItem_bord b) _) (by simp)
    refine ⟨t, _, ht, hu, ?_⟩
    have hother : ∀ c, c ≠ b → (s.setOrd b (v.getLsbD 0)).buf c = s.buf c := fun c hc => s.setBuf_buf_ne _ hc.symm
    simpa [busRead, busWrite, State.setOrd_bord] using hother

/-- After a byte is written to a buffer in canonical form, that byte reads as written and every other as before. -/
theorem State.writeByte_byteAt {s : State} {b : BufId} (h : (s.buf b).mem.wf) (c : BufId) (j k : Nat) (v : Byte) :
    (s.writeBytes b j [v]).byteAt c k = if (c, k) = (b, j) then v else s.byteAt c k := by
  have hplace : (b = c ∧ j ≤ k ∧ k < j + [v].length) ↔ (c, k) = (b, j) := by
    rw [Prod.mk.injEq, eq_comm (a := b), List.length_singleton]
    exact and_congr_right fun _ => by omega
  rw [State.writeBytes_byteAt h]
  by_cases heq : (c, k) = (b, j)
  · obtain ⟨rfl, rfl⟩ := Prod.mk.inj heq
    simp
  · rw [if_neg (mt hplace.1 heq), if_neg heq]

/-- Settles O8: a byte within the capacity reads as written, and the memory's canonical form keeps every other byte. -/
theorem hostByteWriteReadsBack : Obligations.HostByteWriteReadsBack := by
  intro s b j v rest hs hj hp
  obtain ⟨t, ht, hu⟩ := step_write_read hp (busItem_of_byteItem (byteItem_byte hj b)) (by simp)
  have hbyte := fun c k => State.writeByte_byteAt (hs.memWf b) c j k (v.setWidth 8)
  have hsame : (s.writeBytes b j [v.setWidth 8]).byteAt b j = v.setWidth 8 := by rw [hbyte, if_pos rfl]
  have hothers : ∀ c k, (c, k) ≠ (b, j) → (s.writeBytes b j [v.setWidth 8]).byteAt c k = s.byteAt c k :=
    fun c k hne => by rw [hbyte, if_neg hne]
  refine ⟨t, _, ht, hu, ?_⟩
  simpa [busRead, busWrite, hsame] using hothers

end Sys2Proof.Machine
end

section
/-! The command word (R67 to R71): the fields of a word, the rows of the opcode map, decoding against encoding, and what
the write of a word to `CMD` does. -/

namespace Sys2Proof

/-! ### One-bit fields -/

/-- A one-bit field that is set is the power of two of its place. -/
theorem flagBit_eq_twoPow (b : Bool) (pos : Nat) : flagBit b pos = if b then BitVec.twoPow 32 pos else 0#32 := by
  rw [flagBit, BitVec.twoPow_eq]

/-- A one-bit field holds its bit at its place and zeros elsewhere. -/
@[simp] theorem getElem_flagBit (b : Bool) (pos k : Nat) (hk : k < 32) :
    (flagBit b pos)[k] = (b && decide (k = pos)) := by
  rw [flagBit_eq_twoPow]
  cases b <;> simp [BitVec.getElem_twoPow]

/-- A bit of a word, written back to its place, is the word cut to that bit. -/
theorem flagBit_getLsbD (w : Word) (pos : Nat) : flagBit (w.getLsbD pos) pos = w &&& BitVec.twoPow 32 pos := by
  rw [flagBit_eq_twoPow, BitVec.and_twoPow]

/-! ### The fields of R67 as one-bit fields -/

theorem bufBit_eq_flagBit (b : BufId) (pos : Nat) : bufBit b pos = flagBit (decide (b = .b1)) pos := by cases b <;> rfl

theorem famCode_eq_flagBit (f : Family) : f.code <<< 12 = flagBit (decide (f = .rsc)) 12 := by cases f <;> rfl

theorem revCode_eq_flagBits (v : RevWidth) :
    v.code <<< 10 =
      flagBit (decide (v = .w32 ∨ v = .reserved)) 11 ||| flagBit (decide (v = .w16 ∨ v = .reserved)) 10 := by
  cases v <;> rfl

theorem sfdCode_eq_flagBits (k : SfdType) :
    k.code <<< 15 =
      flagBit (decide (k = .coded1 ∨ k = .uncoded1)) 16 ||| flagBit (decide (k = .uncoded0 ∨ k = .uncoded1)) 15 := by
  cases k <;> rfl

/-! ### A field read from a word and written back -/

theorem bufBit_bufField (w : Word) (pos : Nat) : bufBit (bufField w pos) pos = w &&& BitVec.twoPow 32 pos := by
  rw [bufBit_eq_flagBit, ← flagBit_getLsbD, bufField]
  cases w.getLsbD pos <;> rfl

theorem code_famField (w : Word) : (famField w).code <<< 12 = w &&& BitVec.twoPow 32 12 := by
  rw [famCode_eq_flagBit, ← flagBit_getLsbD, famField]
  cases w.getLsbD 12 <;> rfl

theorem code_widthField (w : Word) :
    (widthField w).code <<< 10 = w &&& (BitVec.twoPow 32 11 ||| BitVec.twoPow 32 10) := by
  rw [revCode_eq_flagBits, BitVec.and_or_distrib_left, ← flagBit_getLsbD, ← flagBit_getLsbD, widthField]
  cases w.getLsbD 11 <;> cases w.getLsbD 10 <;> rfl

theorem code_sfdField (w : Word) :
    (sfdField w).code <<< 15 = w &&& (BitVec.twoPow 32 16 ||| BitVec.twoPow 32 15) := by
  rw [sfdCode_eq_flagBits, BitVec.and_or_distrib_left, ← flagBit_getLsbD, ← flagBit_getLsbD, sfdField]
  cases w.getLsbD 16 <;> cases w.getLsbD 15 <;> rfl

/-! ### A field read where it was written -/

theorem bufField_eq {w : Word} {b : BufId} {pos : Nat} (h : w.getLsbD pos = decide (b = .b1)) : bufField w pos = b := by
  rw [bufField, h]
  cases b <;> rfl

theorem famField_eq {w : Word} {f : Family} (h : w.getLsbD 12 = decide (f = .rsc)) : famField w = f := by
  rw [famField, h]
  cases f <;> rfl

theorem widthField_eq {w : Word} {v : RevWidth} (hhi : w.getLsbD 11 = decide (v = .w32 ∨ v = .reserved))
    (hlo : w.getLsbD 10 = decide (v = .w16 ∨ v = .reserved)) : widthField w = v := by
  rw [widthField, hhi, hlo]
  cases v <;> rfl

theorem sfdField_eq {w : Word} {k : SfdType} (hhi : w.getLsbD 16 = decide (k = .coded1 ∨ k = .uncoded1))
    (hlo : w.getLsbD 15 = decide (k = .uncoded0 ∨ k = .uncoded1)) : sfdField w = k := by
  rw [sfdField, hhi, hlo]
  cases k <;> rfl

theorem bufField_encodeF1 {op : Word} (hop : op.getLsbD 8 = false) (sb : BufId) : bufField (encodeF1 op sb) 8 = sb :=
  bufField_eq (by simp_all [encodeF1, bufBit_eq_flagBit])

theorem bufField_sb_encodeF2 {op : Word} (hop : op.getLsbD 8 = false) (sb db : BufId) :
    bufField (encodeF2 op sb db) 8 = sb :=
  bufField_eq (by simp_all [encodeF2, bufBit_eq_flagBit])

theorem bufField_db_encodeF2 {op : Word} (hop : op.getLsbD 9 = false) (sb db : BufId) :
    bufField (encodeF2 op sb db) 9 = db :=
  bufField_eq (by simp_all [encodeF2, bufBit_eq_flagBit])

theorem widthField_encode_rev (v : RevWidth) : widthField (encode (.rev v)) = v :=
  widthField_eq (by simp [encode, revCode_eq_flagBits]) (by simp [encode, revCode_eq_flagBits])

/-! ### The rows of the opcode map (R70) -/

/-- A command of format F1 built from the fields of `w` has the fixed bits of its row and the live bits of `w` (R68). -/
theorem encodeF1_bufField (op w : Word) : encodeF1 op (bufField w 8) = op ||| (w &&& ~~~maskF1) := by
  rw [encodeF1, bufBit_bufField]; rfl

/-- The same for format F2 (R68). -/
theorem encodeF2_bufField (op w : Word) :
    encodeF2 op (bufField w 8) (bufField w 9) = op ||| (w &&& ~~~maskF2) := by
  rw [encodeF2, bufBit_bufField, bufBit_bufField, BitVec.or_assoc, ← BitVec.and_or_distrib_left]; rfl

/-- The same for REV, whose live field is `W`. -/
theorem encode_rev_widthField (w : Word) : encode (.rev (widthField w)) = 0x03#32 ||| (w &&& ~~~0xFFFFF3FF#32) := by
  rw [encode, code_widthField]; rfl

/-- The same for FRMDEC: format F2 with `SKIPV`. -/
theorem encode_frmdec_fields (w : Word) :
    encode (.frmdec (bufField w 8) (bufField w 9) (w.getLsbD 13)) = 0x60#32 ||| (w &&& ~~~0xFFFFDCFF#32) := by
  rw [encode, encodeF2_bufField, flagBit_getLsbD, BitVec.or_assoc, ← BitVec.and_or_distrib_left]; rfl

/-- The same for FRMENC: format F2 with `FAM`, `DW`, `SFD` and `FCST`. -/
theorem encode_frmenc_fields (w : Word) :
    encode (.frmenc (bufField w 8) (bufField w 9) (famField w) (w.getLsbD 14) (sfdField w) (w.getLsbD 17)) =
      0x61#32 ||| (w &&& ~~~0xFFFC2CFF#32) := by
  simp only [encode, encodeF2_bufField, code_famField, flagBit_getLsbD, code_sfdField, BitVec.or_assoc,
    ← BitVec.and_or_distrib_left]
  rfl

/-- Whatever the word, the command a row builds from it has the row's fixed bits and the word's live bits (R68). -/
theorem encode_build : ∀ r ∈ opRows, ∀ w, encode (r.build w) = r.pattern ||| (w &&& ~~~r.mask) := by
  simp only [opRows, List.forall_mem_cons, List.not_mem_nil, false_imp_iff, implies_true, and_true]
  have f1 := encodeF1_bufField
  have f2 := encodeF2_bufField
  have noField : ∀ op w : Word, op = op ||| (w &&& ~~~0xFFFFFFFF#32) := by simp
  exact ⟨f1 _, f1 _, encode_rev_widthField, f1 _, f2 _, f2 _, f2 _, f2 _, f1 _, f1 _, f1 _, f1 _, f1 _,
    noField _, noField _, encode_frmdec_fields, encode_frmenc_fields⟩

/-- Every row fixes the whole field `OP` (R68). -/
theorem opRows_fix_op : ∀ r ∈ opRows, r.mask.setWidth 8 = 0xFF#8 := by decide

/-- A row's pattern has no bit outside its mask (R68). -/
theorem opRows_pattern_masked : ∀ r ∈ opRows, r.pattern &&& r.mask = r.pattern := by decide

/-- No two rows share an `OP` (R70). -/
theorem opRows_op_nodup : (opRows.map fun r => r.pattern.setWidth 8).Nodup := by decide

/-- A row accepts exactly the words of the commands it builds. -/
theorem accepts_iff_encode_build {r : OpRow} (hr : r ∈ opRows) (w : Word) :
    r.accepts w = true ↔ encode (r.build w) = w := by
  rw [OpRow.accepts, beq_iff_eq, encode_build r hr]
  constructor
  · intro h
    rw [← h, ← BitVec.and_or_distrib_left, BitVec.or_not_self, BitVec.and_allOnes]
  · intro h
    have hlive : (w &&& ~~~r.mask) &&& r.mask = 0#32 := by simp [BitVec.and_assoc]
    rw [← h, BitVec.and_or_distrib_right, opRows_pattern_masked r hr, hlive, BitVec.or_zero]

/-- A word that a row accepts has the row's `OP`. -/
theorem op_of_accepts {r : OpRow} (hr : r ∈ opRows) {w : Word} (h : r.accepts w = true) :
    r.pattern.setWidth 8 = w.setWidth 8 := by
  rw [OpRow.accepts, beq_iff_eq] at h
  rw [← h, BitVec.setWidth_and, opRows_fix_op r hr]
  exact BitVec.and_allOnes

/-- No two rows accept the same word (R70). -/
theorem eq_of_accepts {r r' : OpRow} (hr : r ∈ opRows) (hr' : r' ∈ opRows) {w : Word} (h : r.accepts w = true)
    (h' : r'.accepts w = true) : r = r' :=
  List.inj_on_of_nodup_map opRows_op_nodup hr hr' ((op_of_accepts hr h).trans (op_of_accepts hr' h').symm)

/-- A word that decodes to a command was accepted by a row, which built the command. -/
theorem row_of_decode {w : Word} {i : Instr} (h : decode w = .ok i) :
    ∃ r ∈ opRows, r.accepts w = true ∧ r.build w = i := by
  rw [decode] at h
  split at h
  · next r hfind =>
    have hacc : r.accepts w = true := List.find?_some (p := fun r : OpRow => r.accepts w) hfind
    exact ⟨r, List.mem_of_find?_eq_some hfind, hacc, Except.ok.inj h⟩
  · cases h

/-- A word that no row accepts encodes no command (R71). -/
theorem decode_eq_error {w : Word} (h : ∀ r ∈ opRows, r.accepts w = false) : decode w = .error (rejectionOf w) := by
  have hnone : opRows.find? (fun r => r.accepts w) = none := List.find?_eq_none.2 (by simpa using h)
  rw [decode, hnone]

/-- Decoding a word that a row accepts finds that row. -/
theorem decode_of_accepts {r : OpRow} (hr : r ∈ opRows) {w : Word} (h : r.accepts w = true) :
    decode w = .ok (r.build w) := by
  have hsome : (opRows.find? fun r => r.accepts w).isSome = true := List.find?_isSome.2 ⟨r, hr, h⟩
  obtain ⟨r', hfind⟩ := Option.isSome_iff_exists.1 hsome
  have hacc : r'.accepts w = true := List.find?_some (p := fun r : OpRow => r.accepts w) hfind
  obtain rfl := eq_of_accepts hr (List.mem_of_find?_eq_some hfind) h hacc
  rw [decode, hfind]

/-! ### Decoding against encoding -/

/-- Each field of FRMDEC lies at a place of its own in the word (R67). -/
theorem build_encode_frmdec (sb db : BufId) (skipv : Bool) :
    opRows[15].build (encode (.frmdec sb db skipv)) = .frmdec sb db skipv := by
  simp only [opRows, List.getElem_cons_succ, List.getElem_cons_zero, Instr.frmdec.injEq]
  refine ⟨bufField_eq ?_, bufField_eq ?_, ?_⟩ <;> simp [encode, encodeF2, bufBit_eq_flagBit]

/-- Each field of FRMENC lies at a place of its own in the word (R67). -/
theorem build_encode_frmenc (sb db : BufId) (fam : Family) (dw : Bool) (sfd : SfdType) (fcst : Bool) :
    opRows[16].build (encode (.frmenc sb db fam dw sfd fcst)) = .frmenc sb db fam dw sfd fcst := by
  simp only [opRows, List.getElem_cons_succ, List.getElem_cons_zero, Instr.frmenc.injEq]
  refine ⟨bufField_eq ?_, bufField_eq ?_, famField_eq ?_, ?_, sfdField_eq ?_ ?_, ?_⟩ <;>
    simp [encode, encodeF2, bufBit_eq_flagBit, famCode_eq_flagBit, sfdCode_eq_flagBits]

/-- Every command is built by a row from its own word: its fields are read where they were written. -/
theorem exists_row_build_encode (i : Instr) : ∃ r ∈ opRows, r.build (encode i) = i := by
  have row (n : Nat) (hn : n < opRows.length) (h : opRows[n].build (encode i) = i) :
      ∃ r ∈ opRows, r.build (encode i) = i := ⟨_, List.getElem_mem hn, h⟩
  have f1 {op : Word} (hop : op.getLsbD 8 = false) {c : BufId → Instr} (sb : BufId) :
      c (bufField (encodeF1 op sb) 8) = c sb := congrArg c (bufField_encodeF1 hop sb)
  have f2 {op : Word} (hsb : op.getLsbD 8 = false) (hdb : op.getLsbD 9 = false) {c : BufId → BufId → Instr}
      (sb db : BufId) : c (bufField (encodeF2 op sb db) 8) (bufField (encodeF2 op sb db) 9) = c sb db :=
    congrArg₂ c (bufField_sb_encodeF2 hsb sb db) (bufField_db_encodeF2 hdb sb db)
  -- The row numbers are the places of the commands in R70.
  cases i with
  | rdbit sb => exact row 0 (by decide) (f1 rfl sb)
  | wrbit sb => exact row 1 (by decide) (f1 rfl sb)
  | rev v => exact row 2 (by decide) (congrArg Instr.rev (widthField_encode_rev v))
  | whiten sb => exact row 3 (by decide) (f1 rfl sb)
  | rscenc sb db => exact row 4 (by decide) (f2 rfl rfl sb db)
  | nrnscenc sb db => exact row 5 (by decide) (f2 rfl rfl sb db)
  | rscdec sb db => exact row 6 (by decide) (f2 rfl rfl sb db)
  | nrnscdec sb db => exact row 7 (by decide) (f2 rfl rfl sb db)
  | ilv sb => exact row 8 (by decide) (f1 rfl sb)
  | fcs32 sb => exact row 9 (by decide) (f1 rfl sb)
  | fcschk sb => exact row 10 (by decide) (f1 rfl sb)
  | fcsapp sb => exact row 11 (by decide) (f1 rfl sb)
  | shrdet sb => exact row 12 (by decide) (f1 rfl sb)
  | phrenc => exact row 13 (by decide) rfl
  | phrdec => exact row 14 (by decide) rfl
  | frmdec sb db skipv => exact row 15 (by decide) (build_encode_frmdec sb db skipv)
  | frmenc sb db fam dw sfd fcst => exact row 16 (by decide) (build_encode_frmenc sb db fam dw sfd fcst)

/-- A word decodes to a command exactly when it is that command's word. -/
theorem decode_eq_ok_iff (w : Word) (i : Instr) : decode w = .ok i ↔ encode i = w := by
  constructor
  · intro h
    obtain ⟨r, hr, hacc, rfl⟩ := row_of_decode h
    exact (accepts_iff_encode_build hr w).1 hacc
  · rintro rfl
    obtain ⟨r, hr, hbuild⟩ := exists_row_build_encode i
    have hacc : r.accepts (encode i) = true := (accepts_iff_encode_build hr _).2 (congrArg encode hbuild)
    rw [decode_of_accepts hr hacc, hbuild]

/-- Settles O1: decoding to a command and being its word are the same. -/
theorem decodeInvertsEncode : Obligations.DecodeInvertsEncode :=
  ⟨fun i _ => (decode_eq_ok_iff _ i).2 rfl, fun w i => (decode_eq_ok_iff w i).1⟩

/-- Settles O2: each printed word is the word of the command beside it. -/
theorem printedWordsDecode : Obligations.PrintedWordsDecode := by
  simp only [Obligations.PrintedWordsDecode, decode_eq_ok_iff]
  decide

end Sys2Proof

namespace Sys2Proof.Machine

/-- A word that encodes no command, and the word of REV with the reserved width, are rejected (R71, R89). -/
theorem runCommand_eq_reject {w : Word} (s : State)
    (h : w = encode (.rev .reserved) ∨ ∀ r ∈ opRows, r.accepts w = false) :
    runCommand w s = .next (s.reject .illegal) := by
  rw [runCommand]
  obtain rfl | hnone := h
  · rw [(decode_eq_ok_iff _ _).2 rfl]
    have hcheck : firstFailure (commandChecks (.rev .reserved) s) = some .illegal := rfl
    exact (exec_eq _ s).trans (congrArg _ (State.checked_fail hcheck))
  · rw [decode_eq_error hnone]
    rfl

/-- Settles O3: the step runs the word, and the statement's pairs are the masks and patterns of the rows. -/
theorem illegalWordsAreRejected : Obligations.IllegalWordsAreRejected := by
  intro s w rest hp hw
  have hrun : runCommand w { s with pending := rest } = .next (State.reject { s with pending := rest } .illegal) := by
    refine runCommand_eq_reject _ (hw.imp_right fun hpairs r hr => ?_)
    have hmem := List.mem_map_of_mem (f := fun r : OpRow => (r.mask, r.pattern)) hr
    exact beq_eq_false_iff_ne.2 (hpairs _ hmem)
  exact ⟨_, (step_of_cmdWrite hp).trans hrun, State.reject_rejected _ _⟩

/-- Settles O5: `exec` is a completion, whatever the command's checks say. -/
theorem everyCommandCompletes : Obligations.EveryCommandCompletes := fun i s => ⟨_, exec_eq i s⟩

end Sys2Proof.Machine
end

section
/-! The completions of a command in the words of the statements (R18, R57, R76): a check that fails, a result alone, bytes
written in place. -/

namespace Sys2Proof.Machine

/-- A command one of whose checks fails is rejected with that check's code, and nothing but `STATUS` changes (R57). -/
theorem rejects_of_check_fails {i : Instr} {s : State} {e : ErrCode} (hc : firstFailure (commandChecks i s) = some e) :
    Rejects i s e :=
  ⟨s.reject e, by rw [exec_eq, State.checked_fail hc], s.reject_rejected e⟩

/-- A command whose checks hold completes with its effect (R76). -/
theorem exec_eq_effect {i : Instr} {s : State} (hc : firstFailure (commandChecks i s) = none) :
    exec i s = .next ((commandEffect i s).apply s) := by
  rw [exec_eq, State.checked_pass hc]

/-- A buffer that is as before reads as before. -/
theorem SameBuffer.of_buf {b : BufId} {s t : State} (h : t.buf b = s.buf b) : SameBuffer b s t := by
  constructor <;> simp [State.byteAt, State.blen, State.bord, h]

/-- A success that leaves `FSM` writes no register but those of its results (R18, R76). -/
theorem Effect.apply_success_okFrame (s : State) (w : Option BufWrite) (l : List (Fin 8 × Word)) :
    OkFrame (l.map Prod.fst) s ((Effect.success w l none).apply s) where
  status := StatusOk.succeed (by simp)
  regs i hi := by
    have hn : ∀ p ∈ l, p.1 ≠ i := fun p hp he => hi (he ▸ List.mem_map_of_mem hp)
    simp [Effect.apply, State.writeResults_x_of_notMem hn]
  fsm := by simp [Effect.fsm]
  host := Effect.apply_host s _

/-- A command whose checks hold and that writes one result writes `x[4]` and nothing else but `STATUS.ERR` (R18, R76). -/
theorem exec_result {i : Instr} {s : State} {v : Word} (hc : firstFailure (commandChecks i s) = none)
    (hE : commandEffect i s = resultEffect v) :
    ∃ t, exec i s = .next t ∧ t.x 4 = v ∧ OkFrame [4] s t ∧ ∀ b, SameBuffer b s t := by
  refine ⟨_, exec_eq_effect hc, ?_, ?_, fun b => .of_buf ?_⟩ <;> rw [hE]
  · simp [resultEffect, Effect.apply]
  · exact Effect.apply_success_okFrame s none [(4, v)]
  · exact Effect.apply_buf_of_ne s (by simp [resultEffect, Effect.dest])

section
variable (s : State) (b : BufId) (j : Nat) (l : List Byte)

/-- After bytes are written in place every byte reads as after the write alone. -/
theorem inPlaceEffect_byteAt (c : BufId) (k : Nat) :
    ((inPlaceEffect b j l).apply s).byteAt c k = (s.writeBytes b j l).byteAt c k := by
  simp [inPlaceEffect, Effect.apply, State.writeBuf, State.writeFsm]

/-- Bytes written in place leave the length (R56). -/
theorem inPlaceEffect_blen (c : BufId) : ((inPlaceEffect b j l).apply s).blen c = s.blen c := by
  simp [inPlaceEffect, Effect.apply, State.writeBuf, State.writeFsm]

/-- Bytes written in place leave the other buffer (R55). -/
theorem inPlaceEffect_sameBuffer {c : BufId} (h : c ≠ b) : SameBuffer c s ((inPlaceEffect b j l).apply s) :=
  .of_buf (Effect.apply_buf_of_ne s (by simpa [inPlaceEffect, Effect.dest] using h.symm))

/-- Bytes written in place leave the registers and `FSM`. -/
theorem inPlaceEffect_okFrame : OkFrame [] s ((inPlaceEffect b j l).apply s) := Effect.apply_success_okFrame s _ []

end

/-- A byte written in place to a buffer in canonical form reads as written. -/
theorem inPlaceEffect_byteAt_same {s : State} {b : BufId} (h : (s.buf b).mem.wf) (j : Nat) (v : Byte) :
    ((inPlaceEffect b j [v]).apply s).byteAt b j = v := by
  rw [inPlaceEffect_byteAt, State.writeByte_byteAt h, if_pos rfl]

/-- A byte written in place to a buffer in canonical form leaves every other byte. -/
theorem inPlaceEffect_byteAt_ne {s : State} {b : BufId} (h : (s.buf b).mem.wf) {j k : Nat} (hk : k ≠ j) (v : Byte) :
    ((inPlaceEffect b j [v]).apply s).byteAt b k = s.byteAt b k := by
  rw [inPlaceEffect_byteAt, State.writeByte_byteAt h, if_neg (by simpa using hk)]

end Sys2Proof.Machine
end

section
/-! Bits under an order tag, RDBIT and WRBIT (R48, R49, R86, R87). -/

namespace Sys2Proof.Machine

/-- `rd_bit` reads the tagged bit (R48). -/
theorem State.rdBit_eq_taggedBit (s : State) (b : BufId) (i : Nat) : s.rdBit b i = s.taggedBit b i := by
  cases h : s.bord b <;> simp [State.rdBit, State.taggedBit, bitPos, h]

/-- Under one tag a byte holds each bit index at a place of its own (R48). -/
theorem eq_of_bitPos_eq {ord : Bool} {i j : Nat} (hdiv : i / 8 = j / 8) (h : bitPos ord i = bitPos ord j) : i = j := by
  cases ord <;> simp only [bitPos, if_true, Bool.false_eq_true, if_false] at h <;> omega

/-- `putBit` sets the bit at one place of a byte and keeps the others (R49). -/
theorem getLsbD_putBit (y : Byte) {k : Nat} (hk : k < 8) (v : Bool) (i : Nat) :
    (putBit y k v).getLsbD i = if i = k then v else y.getLsbD i := by
  have hset : (if v then 1#8 <<< k else 0#8).getLsbD i = (v && decide (k = i)) := by
    cases v <;> simp [← BitVec.twoPow_eq, BitVec.getLsbD_twoPow, hk]
  rw [putBit, BitVec.getLsbD_or, hset, ← BitVec.twoPow_eq, BitVec.getLsbD_and, BitVec.getLsbD_not, BitVec.getLsbD_twoPow]
  by_cases h : i = k
  · subst h; simp [hk]
  · by_cases hi : i < 8
    · simp [h, Ne.symm h, hi]
    · simp [h, Ne.symm h, BitVec.getLsbD_of_ge y i (Nat.not_lt.1 hi)]

/-- `wr_bit`'s law (R49): putting the bit of index `i` in its byte changes the tagged bit `i` and no other. -/
theorem taggedBit_of_putBit {s t : State} {b : BufId} {i : Nat} {v : Bool} (hord : t.bord b = s.bord b)
    (hbyte : t.byteAt b (i / 8) = putBit (s.byteAt b (i / 8)) (bitPos (s.bord b) i) v)
    (hothers : ∀ k, k ≠ i / 8 → t.byteAt b k = s.byteAt b k) (j : Nat) :
    t.taggedBit b j = if j = i then v else s.taggedBit b j := by
  simp only [← State.rdBit_eq_taggedBit, State.rdBit, hord]
  by_cases hdiv : j / 8 = i / 8
  · have hpos : bitPos (s.bord b) j = bitPos (s.bord b) i ↔ j = i := ⟨eq_of_bitPos_eq hdiv, fun h => h ▸ rfl⟩
    simp only [hdiv, hbyte, getLsbD_putBit _ (bitPos_lt _ _), hpos]
  · have hne : j ≠ i := fun h => hdiv (h ▸ rfl)
    rw [hothers _ hdiv, if_neg hne]

/-- Settles O20: RDBIT has one check and one result, and `rd_bit` is the tagged bit. -/
theorem rdbitReadsTheTaggedBit : Obligations.RdbitReadsTheTaggedBit := by
  intro sb s
  refine ⟨(decode_eq_ok_iff _ _).2 (by cases sb <;> rfl), fun hge => rejects_of_check_fails ?_, fun hlt => ?_⟩
  · simp [commandChecks, State.a0, Nat.not_lt.2 hge]
  · have hc : firstFailure (commandChecks (.rdbit sb) s) = none := by simp [commandChecks, State.a0, hlt]
    refine exec_result hc (congrArg resultEffect ?_)
    rw [State.rdBit_eq_taggedBit, State.a0]
    cases s.taggedBit sb (s.x 0).toNat <;> rfl

/-- Settles O21: WRBIT writes in place the one byte of its index, with `putBit` at the place its tag names. -/
theorem wrbitWritesOneBit : Obligations.WrbitWritesOneBit := by
  intro sb s hs
  refine ⟨(decode_eq_ok_iff _ _).2 (by cases sb <;> rfl), fun hv => rejects_of_check_fails ?_,
    fun hv hge => rejects_of_check_fails ?_, fun hv hlt => ?_⟩
  · simp [commandChecks, State.a1, Nat.not_le.2 hv]
  · simp [commandChecks, State.a0, State.a1, hv, Nat.not_lt.2 hge]
  · have hc : firstFailure (commandChecks (.wrbit sb) s) = none := by
      simp [commandChecks, State.a0, State.a1, hv, hlt]
    refine ⟨_, exec_eq_effect hc, ?_⟩
    have hbyte : ((commandEffect (.wrbit sb) s).apply s).byteAt sb (s.a0 / 8) =
        putBit (s.byteAt sb (s.a0 / 8)) (bitPos (s.bord sb) s.a0) (decide (s.a1 = 1)) :=
      inPlaceEffect_byteAt_same (hs.memWf sb) _ _
    have hothers : ∀ k, k ≠ s.a0 / 8 → ((commandEffect (.wrbit sb) s).apply s).byteAt sb k = s.byteAt sb k :=
      fun k hk => inPlaceEffect_byteAt_ne (hs.memWf sb) hk _
    have hbit := taggedBit_of_putBit (Effect.apply_bord s _ sb) hbyte hothers
    exact ⟨(hbit _).trans (if_pos rfl), fun i hi => (hbit i).trans (if_neg hi), hothers,
      inPlaceEffect_blen s sb _ _ sb, Effect.apply_bord s _ sb, fun b hb => inPlaceEffect_sameBuffer s sb _ _ hb,
      inPlaceEffect_okFrame s sb _ _⟩

end Sys2Proof.Machine
end

section
/-! The reversal of bits and REV (R88, R89). -/

namespace Sys2Proof.Machine

/-- Bit `k` of the reversal is bit `n - 1 - k` of the word below the width, and 0 above it (R88). -/
theorem getLsbD_reverseBits {n : Nat} (hn : n ≤ 32) (w : Word) (k : Nat) :
    (reverseBits n w).getLsbD k = (decide (k < n) && w.getLsbD (n - 1 - k)) := by
  rw [reverseBits, BitVec.getLsbD_setWidth, BitVec.getLsbD_reverse, BitVec.getMsbD_eq_getLsbD, BitVec.getLsbD_setWidth]
  by_cases hk : k < n
  · have hk32 : k < 32 := by omega
    have hmirror : n - 1 - k < n := by omega
    simp [hk, hk32, hmirror]
  · simp [hk]

/-- Reversing twice gives back a word below `2 ^ n` (R88). -/
theorem reverseBits_reverseBits {n : Nat} (hn : n ≤ 32) {w : Word} (hw : w.toNat < 2 ^ n) :
    reverseBits n (reverseBits n w) = w := by
  have hback : (reverseBits n w).setWidth n = (w.setWidth n).reverse := by
    rw [reverseBits, BitVec.setWidth_setWidth_of_le _ hn, BitVec.setWidth_eq]
  calc reverseBits n (reverseBits n w)
      = ((reverseBits n w).setWidth n).reverse.setWidth 32 := rfl
    _ = (w.setWidth n).setWidth 32 := by rw [hback, BitVec.reverse_reverse_eq]
    _ = w := by
      rw [← BitVec.toNat_inj, BitVec.toNat_setWidth, BitVec.toNat_setWidth, Nat.mod_eq_of_lt hw, Nat.mod_eq_of_lt w.isLt]

/-- Settles O23: the widths are at most 32, where the two rules of `reverse_bits` hold. -/
theorem reverseBitsIsAnInvolution : Obligations.ReverseBitsIsAnInvolution := by
  intro n w hmem hw
  have hn : n ≤ 32 := by
    simp only [List.mem_cons, List.not_mem_nil, or_false] at hmem
    omega
  exact ⟨fun i hi => by rw [getLsbD_reverseBits hn]; simp [hi], reverseBits_reverseBits hn hw⟩

/-- REV of a legal width writes the reversal of `x[0]` to `x[4]` (R89). -/
theorem exec_rev {w : RevWidth} (h : w ≠ .reserved) (s : State) :
    ∃ t, exec (.rev w) s = .next t ∧
      (∀ k, (t.x 4).getLsbD k = (decide (k < revBits w) && (s.x 0).getLsbD (revBits w - 1 - k))) ∧ OkFrame [4] s t ∧
      ∀ b, SameBuffer b s t := by
  have hc : firstFailure (commandChecks (.rev w) s) = none := by simp [commandChecks, h]
  have hn : revBits w ≤ 32 := by cases w <;> decide
  obtain ⟨t, ht, hx, hframe⟩ := exec_result hc rfl
  exact ⟨t, ht, fun k => by rw [hx, getLsbD_reverseBits hn], hframe⟩

/-- Settles O22: the reserved width fails REV's one check, and each of the others reverses. -/
theorem revReversesTheLowBits : Obligations.RevReversesTheLowBits := by
  intro s
  refine ⟨?_, rejects_of_check_fails (by simp [commandChecks]), ?_⟩
  · simp only [decode_eq_ok_iff]
    decide
  · simp only [List.forall_mem_cons, List.not_mem_nil, false_imp_iff, implies_true, and_true]
    exact ⟨exec_rev (by decide) s, exec_rev (by decide) s, exec_rev (by decide) s⟩

end Sys2Proof.Machine
end

section
/-! The PN9 generator, its table, and WHITEN (R100 to R105). -/

namespace Sys2Proof.Machine

/-! ### The shift register (R100) -/

/-- A shift moves every bit one place down and puts the feedback into bit 8 (R100). -/
theorem getLsbD_pn9Shift (r : BitVec 9) (i : Nat) :
    (pn9Shift r).getLsbD i = if i = 8 then pn9Feedback r else r.getLsbD (i + 1) := by
  have hfb : (if pn9Feedback r then 0x100#9 else 0#9).getLsbD i = (pn9Feedback r && decide (i = 8)) := by
    have htop : (0x100#9).getLsbD i = decide (i = 8) := by
      simp [show 0x100#9 = BitVec.twoPow 9 8 from rfl, BitVec.getLsbD_twoPow, eq_comm]
    cases pn9Feedback r <;> simp [htop]
  rw [pn9Shift, BitVec.getLsbD_or, BitVec.getLsbD_ushiftRight, hfb, Nat.add_comm 1 i]
  by_cases hi : i = 8
  · simp [hi]
  · simp [hi]

/-- The bits of a register value move down unchanged until they are shifted out. -/
theorem getLsbD_pn9Shifts {m i : Nat} (r : BitVec 9) (h : i + m ≤ 8) :
    (pn9Shifts m r).getLsbD i = r.getLsbD (i + m) := by
  induction m generalizing r with
  | zero => rfl
  | succ m ih => rw [pn9Shifts, ih _ (by omega), getLsbD_pn9Shift, if_neg (by omega), Nat.add_assoc]

theorem pn9Shifts_eq_iterate (n : Nat) (r : BitVec 9) : pn9Shifts n r = pn9Shift^[n] r := by
  induction n generalizing r with
  | zero => rfl
  | succ n ih => exact ih _

theorem pn9Shifts_add (m n : Nat) (r : BitVec 9) : pn9Shifts (m + n) r = pn9Shifts m (pn9Shifts n r) := by
  simp only [pn9Shifts_eq_iterate, Function.iterate_add_apply]

/-- Settles O27: the feedback of a shift stands in bit 8, and eight shifts later in bit 0. -/
theorem keystreamVariantsAreNineShiftsApart : Obligations.KeystreamVariantsAreNineShiftsApart := by
  intro n r
  calc (pn9Shifts (n + 9) r).getLsbD 0
      = (pn9Shifts 8 (pn9Shift (pn9Shifts n r))).getLsbD 0 := by rw [Nat.add_comm, pn9Shifts_add, pn9Shifts]
    _ = (pn9Shift (pn9Shifts n r)).getLsbD 8 := getLsbD_pn9Shifts _ (by decide)
    _ = pn9Feedback (pn9Shifts n r) := by rw [getLsbD_pn9Shift, if_pos rfl]

/-! ### The keystream table (R101, R102) -/

/-- The register is back at the seed after 511 shifts (R102 (a)). -/
theorem pn9Seed_isPeriodicPt : Function.IsPeriodicPt pn9Shift 511 pn9Seed :=
  (pn9Shifts_eq_iterate 511 pn9Seed).symm.trans (by decide +kernel)

/-- From the seed the number of shifts counts modulo 511 (R102 (a)). -/
theorem pn9Shifts_seed_congr {m n : Nat} (h : m % 511 = n % 511) : pn9Shifts m pn9Seed = pn9Shifts n pn9Seed := by
  simp only [pn9Shifts_eq_iterate]
  rw [← pn9Seed_isPeriodicPt.iterate_mod_apply m, h, pn9Seed_isPeriodicPt.iterate_mod_apply]

theorem getD_pn9Bits (out : Pn9Out) {n k : Nat} (r : BitVec 9) (h : k < n) :
    (pn9Bits out n r).getD k false = pn9Output out (pn9Shifts k r) := by
  induction n generalizing r k with
  | zero => exact absurd h (Nat.not_lt_zero k)
  | succ n ih =>
    cases k with
    | zero => rfl
    | succ k => exact ih _ (Nat.lt_of_succ_lt_succ h)

/-- Each output byte holds the next eight output bits, first bit lowest (R101). -/
theorem getLsbD_pn9Bytes (out : Pn9Out) {n j k : Nat} (r : BitVec 9) (hj : j < n) (hk : k < 8) :
    ((pn9Bytes out n r).getD j 0#8).getLsbD k = pn9Output out (pn9Shifts (8 * j + k) r) := by
  induction n generalizing r j with
  | zero => exact absurd hj (Nat.not_lt_zero j)
  | succ n ih =>
    cases j with
    | zero => rw [pn9Bytes, List.getD_cons_zero, getLsbD_wordOfBits, getD_pn9Bits out r hk]; simp [hk]
    | succ j =>
      have hsplit : 8 * (j + 1) + k = 8 * j + k + 8 := by omega
      rw [pn9Bytes, List.getD_cons_succ, ih _ (Nat.lt_of_succ_lt_succ hj), hsplit, pn9Shifts_add (8 * j + k) 8]

/-- The table read cyclically: its entries count modulo 511 (R101, R103). -/
theorem getLsbD_pn9Table (out : Pn9Out) (i : Nat) {k : Nat} (hk : k < 8) :
    ((pn9Table out).getD (i % 511) 0#8).getLsbD k = pn9Output out (pn9Shifts (8 * (i % 511) + k) pn9Seed) :=
  getLsbD_pn9Bytes out pn9Seed (Nat.mod_lt i (by decide)) hk

/-- Settles O26: shifts `8 * (i % 511) + k` and `8 * i + k` differ by a multiple of the period. -/
theorem keystreamTableIsTheEndlessGenerator : Obligations.KeystreamTableIsTheEndlessGenerator := by
  intro out i k hk
  have hmod : (8 * (i % 511) + k) % 511 = (8 * i + k) % 511 := by omega
  rw [getLsbD_pn9Table out i hk, pn9Shifts_seed_congr hmod, pn9Seed]

/-! ### Whitening (R103 to R105) -/

/-- `whiten` XORs each byte with its entry of the table (R103). -/
theorem getD_whiten (out : Pn9Out) {l : List Byte} {j : Nat} (hj : j < l.length) :
    (whiten out l).getD j 0#8 = l.getD j 0#8 ^^^ (pn9Table out).getD (j % 511) 0#8 := by
  rw [List.getD_eq_getElem _ _ (by simpa using hj), List.getD_eq_getElem _ _ hj]
  simp only [whiten, List.getElem_mapIdx]

/-- Settles O25: each byte is XORed twice with the same entry of the table. -/
theorem whiteningIsAnInvolution : Obligations.WhiteningIsAnInvolution := by
  intro out bytes
  refine List.ext_getElem (by simp) fun j _ _ => ?_
  simp only [whiten, List.getElem_mapIdx, BitVec.xor_assoc, BitVec.xor_self, BitVec.xor_zero]

/-- Bytes written over the first bytes of a buffer in canonical form read as written, and the bytes above are kept. -/
theorem inPlaceEffect_byteAt_zero {s : State} {b : BufId} (h : (s.buf b).mem.wf) (l : List Byte) (k : Nat) :
    ((inPlaceEffect b 0 l).apply s).byteAt b k = if k < l.length then l.getD k 0#8 else s.byteAt b k := by
  simp [inPlaceEffect_byteAt, State.writeBytes_byteAt h]

/-- What WHITEN leaves in each byte of its buffer: the first `x[0]` are whitened (R104). -/
theorem whitenEffect_byteAt {sb : BufId} {s : State} (h : (s.buf sb).mem.wf) (j : Nat) :
    ((commandEffect (.whiten sb) s).apply s).byteAt sb j =
      if j < (s.x 0).toNat then s.byteAt sb j ^^^ (pn9Table s.params.pn9Out).getD (j % 511) 0#8
      else s.byteAt sb j := by
  rw [commandEffect, inPlaceEffect_byteAt_zero h, length_whiten, State.length_bytes, State.a0]
  split
  case isTrue hj => rw [getD_whiten _ (by simpa using hj), State.getD_bytes, if_pos hj]
  case isFalse => rfl

/-- Settles O24: WHITEN writes in place, below `x[0]`, each byte XORed with its entry of the table. -/
theorem whitenXorsTheKeystream : Obligations.WhitenXorsTheKeystream := by
  intro sb s hs
  refine ⟨(decode_eq_ok_iff _ _).2 (by cases sb <;> rfl), fun hlt => rejects_of_check_fails ?_, fun hle => ?_⟩
  · simp [commandChecks, State.bytesInside, State.a0, Nat.not_le.2 hlt]
  · have hc : firstFailure (commandChecks (.whiten sb) s) = none := by
      simp [commandChecks, State.bytesInside, State.a0, hle]
    have hbyte := whitenEffect_byteAt (hs.memWf sb)
    refine ⟨_, exec_eq_effect hc, fun j k hj hk => ?_, fun j hj => ?_, inPlaceEffect_blen s sb _ _ sb,
      Effect.apply_bord s _ sb, fun b hb => inPlaceEffect_sameBuffer s sb _ _ hb, inPlaceEffect_okFrame s sb _ _⟩
    · rw [hbyte, if_pos hj, BitVec.getLsbD_xor, getLsbD_pn9Table _ _ hk, pn9Seed]
    · rw [hbyte, if_neg (Nat.not_lt.2 hj)]

end Sys2Proof.Machine
end

section
/-! The transition tables and the convolutional codes (R110 to R116, R120, R122). -/

namespace Sys2Proof.Machine

/-! ### One transition (R110, R113 to R116) -/

/-- Settles O28: both tables, entry by entry. -/
theorem transitionTablesAreTheSpecs : Obligations.TransitionTablesAreTheSpecs := ⟨by decide, by decide⟩

theorem getLsbD_symSwap_zero (sym : BitVec 2) : (symSwap sym).getLsbD 0 = sym.getLsbD 1 :=
  BitVec.getLsbD_reverse

theorem getLsbD_symSwap_one (sym : BitVec 2) : (symSwap sym).getLsbD 1 = sym.getLsbD 0 :=
  BitVec.getLsbD_reverse

/-- From every state the two inputs give symbols that differ in both bits (R114). -/
theorem rscStep_not_symbol : ∀ (m : BitVec 3) (b : Bool), (rscStep m (!b)).1 = ~~~(rscStep m b).1 := by decide

/-- From every state the two inputs give symbols that differ in both bits (R116). -/
theorem nrnscStep_not_symbol : ∀ (m : BitVec 4) (b : Bool), (nrnscStep m (!b)).1 = ~~~(nrnscStep m b).1 := by decide

theorem trellis_not_symbol (f : Family) (m : Nat) (b : Bool) : (trellis f m (!b)).1 = ~~~(trellis f m b).1 := by
  cases f with
  | rsc => exact rscStep_not_symbol _ b
  | nrnsc => exact nrnscStep_not_symbol _ b

/-- A transition leads to a state of the trellis. -/
theorem trellis_lt (f : Family) (m : Nat) (b : Bool) : (trellis f m b).2 < numStates f := by
  cases f with
  | rsc => exact (rscStep (BitVec.ofNat 3 m) b).2.isLt
  | nrnsc => exact (nrnscStep (BitVec.ofNat 4 m) b).2.isLt

/-- The NRNSC step reads its state shifted alone, so never the oldest bit (R115). -/
theorem nrnscStep_congr {m m' : BitVec 4} (h : m <<< 1 = m' <<< 1) (b : Bool) : nrnscStep m b = nrnscStep m' b := by
  simp only [nrnscStep, h]

theorem trellis_nrnsc_add_eight (m : Nat) (b : Bool) : trellis .nrnsc (m + 8) b = trellis .nrnsc m b := by
  have hshift : BitVec.ofNat 4 (m + 8) <<< 1 = BitVec.ofNat 4 m <<< 1 := by
    apply BitVec.eq_of_toNat_eq
    simp only [BitVec.toNat_shiftLeft, BitVec.toNat_ofNat]
    omega
  simp only [trellis, nrnscStep_congr hshift]

/-! ### A sequence (R111, R112) -/

@[simp] theorem fecBits_nil (f : Family) (m : Nat) : fecBits f m [] = [] := rfl
@[simp] theorem fecState_nil (f : Family) (m : Nat) : fecState f m [] = m := rfl

/-- Each input bit sends `u1` of its symbol and then `u0` (R111). -/
theorem fecBits_cons (f : Family) (m : Nat) (b : Bool) (l : List Bool) :
    fecBits f m (b :: l) =
      (trellis f m b).1.getLsbD 1 :: (trellis f m b).1.getLsbD 0 :: fecBits f (trellis f m b).2 l := by
  simp only [fecBits, getLsbD_symSwap_zero, getLsbD_symSwap_one]

theorem fecState_cons (f : Family) (m : Nat) (b : Bool) (l : List Bool) :
    fecState f m (b :: l) = fecState f (trellis f m b).2 l := rfl

theorem fecBits_append (f : Family) (m : Nat) (u v : List Bool) :
    fecBits f m (u ++ v) = fecBits f m u ++ fecBits f (fecState f m u) v := by
  induction u generalizing m with
  | nil => rfl
  | cons b u ih => simp only [List.cons_append, fecBits_cons, fecState_cons, ih]

theorem fecState_append (f : Family) (m : Nat) (u v : List Bool) :
    fecState f m (u ++ v) = fecState f (fecState f m u) v := by
  induction u generalizing m with
  | nil => rfl
  | cons b u ih => exact ih _

/-- The final state is a state of the trellis. -/
theorem fecState_lt {f : Family} {m : Nat} (h : m < numStates f) (l : List Bool) : fecState f m l < numStates f := by
  induction l generalizing m with
  | nil => exact h
  | cons b l ih => exact ih (trellis_lt f m b)

/-- Settles O29: the laws of a sequence in two parts, of its length, and of one bit. -/
theorem encodingIsContinuous : Obligations.EncodingIsContinuous := fun f m u v =>
  ⟨fecBits_append f m u v, fecState_append f m u v, length_fecBits f m u, fun b => ⟨fecBits_cons f m b [], rfl⟩, rfl, rfl⟩

/-- The code of `u` and a bit more begins with the code of `u`, and then sends the symbol of that bit (R112, R122). -/
theorem fecBits_append_cons (f : Family) (m : Nat) (u v : List Bool) (b : Bool) :
    (fecBits f m (u ++ b :: v)).take (2 * u.length) = fecBits f m u ∧
      (fecBits f m (u ++ b :: v)).getD (2 * u.length) false = (trellis f (fecState f m u) b).1.getLsbD 1 ∧
      (fecBits f m (u ++ b :: v)).getD (2 * u.length + 1) false = (trellis f (fecState f m u) b).1.getLsbD 0 := by
  have hlen : 2 * u.length = (fecBits f m u).length := (length_fecBits f m u).symm
  rw [fecBits_append, fecBits_cons, hlen]
  refine ⟨List.take_left, ?_, ?_⟩
  · rw [List.getD_append_right _ _ _ _ (Nat.le_refl _)]
    simp
  · rw [List.getD_append_right _ _ _ _ (Nat.le_succ _)]
    simp

/-- Settles O30: both codes begin with the code of `u`, and the symbols of `b` and `!b` differ in both bits. -/
theorem encodersAreInjective : Obligations.EncodersAreInjective := by
  intro f m u v v' b
  obtain ⟨htake, hu1, hu0⟩ := fecBits_append_cons f m u v b
  obtain ⟨htake', hu1', hu0'⟩ := fecBits_append_cons f m u v' (!b)
  refine ⟨htake.trans htake'.symm, ?_, ?_⟩
  · rw [hu1, hu1', trellis_not_symbol]
    simp
  · rw [hu0, hu0', trellis_not_symbol]
    simp

/-- Settles O31: the eight RSC states with each three bits, and the sixteen NRNSC states. -/
theorem tailBitsFlushTheEncoders : Obligations.TailBitsFlushTheEncoders := ⟨by decide, by decide⟩

/-- Settles O32: the first transitions from `m + 8` and `m` are the same. -/
theorem nrnscIgnoresItsOldestBit : Obligations.NrnscIgnoresItsOldestBit := by
  intro m b u _
  simp only [fecBits_cons, fecState_cons, trellis_nrnsc_add_eight, and_self]

end Sys2Proof.Machine
end

section
/-! RSCENC and NRNSCENC (R117, R118). -/

namespace Sys2Proof.Machine

/-! ### A buffer produced (R26, R56) -/

/-- A success that produces a buffer leaves the buffers `produce` leaves. -/
theorem produceEffect_buf (s : State) (db : BufId) (l : List Byte) (n : Nat) (results : List (Fin 8 × Word))
    (fsm : Option Word) (b : BufId) :
    ((produceEffect db l n results fsm).apply s).buf b = (s.produce db l n).buf b := by
  simp [produceEffect, Effect.apply, State.writeBuf, State.produce]

/-- After a buffer is produced every byte of it reads as produced, and the bytes above are kept (R56). -/
theorem produceEffect_byteAt {s : State} {db : BufId} (h : (s.buf db).mem.wf) (l : List Byte) (n : Nat)
    (results : List (Fin 8 × Word)) (fsm : Option Word) (k : Nat) :
    ((produceEffect db l n results fsm).apply s).byteAt db k = if k < l.length then l.getD k 0#8 else s.byteAt db k := by
  rw [State.byteAt, produceEffect_buf, ← State.byteAt, State.produce_byteAt h]
  simp

/-- After a buffer is produced its length is the one given, if a word holds it (R56). -/
theorem produceEffect_blen (s : State) (db : BufId) (l : List Byte) {n : Nat} (hn : n < 2 ^ 32)
    (results : List (Fin 8 × Word)) (fsm : Option Word) : ((produceEffect db l n results fsm).apply s).blen db = n := by
  rw [State.blen, produceEffect_buf, ← State.blen, State.produce_blen, if_pos rfl, Nat.mod_eq_of_lt hn]

/-- Packed bits make a produced buffer read in stream order (R9, R26, R50, R56). -/
theorem produceEffect_pack_produced {s : State} {db : BufId} (h : (s.buf db).mem.wf) {bits : List Bool} {n : Nat}
    (hlen : bits.length = n) (hn : n < 2 ^ 32) (results : List (Fin 8 × Word)) (fsm : Option Word) :
    Produced State.streamBit db bits s ((produceEffect db (pack bits) n results fsm).apply s) := by
  have hbyte := produceEffect_byteAt h (pack bits) n results fsm
  rw [length_pack] at hbyte
  have hbit : ∀ i, i < 8 * ceil8 bits.length →
      ((produceEffect db (pack bits) n results fsm).apply s).streamBit db i = bits.getD i false := fun i hi => by
    rw [State.streamBit, hbyte, if_pos (by omega), getLsbD_pack _ _ _ (Nat.mod_lt i (by decide)), Nat.div_add_mod]
  have hceil : bits.length ≤ 8 * ceil8 bits.length := by unfold ceil8; omega
  exact ⟨(produceEffect_blen s db _ hn results fsm).trans hlen.symm, fun i hi => hbit i (Nat.lt_of_lt_of_le hi hceil),
    fun i hge hi => (hbit i hi).trans (List.getD_eq_default _ _ hge),
    fun j hj => (hbyte j).trans (if_neg (Nat.not_lt.2 hj)), Effect.apply_bord s _ db⟩

/-- A buffer is produced without a change to the other one (R55). -/
theorem produceEffect_sameBuffer (s : State) {db b : BufId} (h : b ≠ db) (l : List Byte) (n : Nat)
    (results : List (Fin 8 × Word)) (fsm : Option Word) :
    SameBuffer b s ((produceEffect db l n results fsm).apply s) :=
  .of_buf (by rw [produceEffect_buf, State.produce_buf_ne s h.symm])

/-! ### The encoder commands -/

/-- The stream-order bits of a buffer, by the view the statements use (R9). -/
theorem State.streamOf_eq_map_streamBit (s : State) (b : BufId) (n : Nat) :
    s.streamOf b n = (List.range n).map (s.streamBit b) := s.streamOf_eq b n

theorem State.bitsInside_iff (s : State) (b : BufId) (n : Nat) : s.bitsInside b n = true ↔ n ≤ s.blen b :=
  decide_eq_true_iff

theorem State.fits_iff (s : State) (n : Nat) : s.fits n = true ↔ n ≤ 8 * s.params.capBytes := decide_eq_true_iff

/-- Which check of an encoder fails first (R117, R118). -/
theorem firstFailure_encChecks (f : Family) (sb db : BufId) (s : State) :
    firstFailure (encChecks f sb db s) =
      if sb = db then some .illegal else if numStates f ≤ (s.x 1).toNat then some .illegal
      else if s.blen sb < (s.x 0).toNat then some .capacity
      else if 8 * s.params.capBytes < 2 * (s.x 0).toNat then some .capacity else none := by
  simp only [encChecks, firstFailure_cons, firstFailure_nil, State.bitsInside_iff, State.fits_iff, State.a0, State.a1,
    decide_eq_true_eq, ne_eq, ← Nat.not_le, ite_not]

/-- What an encoder leaves when its output fits a buffer (R117, R118). -/
theorem encodeEffect_spec {s : State} (hs : s.Inv) (f : Family) {sb db : BufId} (hne : sb ≠ db)
    (hm : s.a1 < numStates f) (hfits : 2 * s.a0 ≤ 8 * s.params.capBytes) :
    let t := (encodeEffect f sb db s).apply s
    let input := (List.range s.a0).map (s.streamBit sb)
    Produced State.streamBit db (fecBits f s.a1 input) s t ∧ t.blen db = 2 * s.a0 ∧ (t.x 4).toNat = 2 * s.a0 ∧
      (t.x 5).toNat = fecState f s.a1 input ∧ SameBuffer sb s t ∧ OkFrame [4, 5] s t := by
  have hword : 2 * s.a0 < 2 ^ 32 := by have := s.params.cap_hi; omega
  have hfinal : fecState f s.a1 (s.streamOf sb s.a0) < 2 ^ 32 :=
    Nat.lt_trans (fecState_lt hm _) (by cases f <;> decide)
  rw [← State.streamOf_eq_map_streamBit]
  refine ⟨produceEffect_pack_produced (hs.memWf db) (by simp) hword _ _, produceEffect_blen s db _ hword _ _, ?_, ?_,
    produceEffect_sameBuffer s hne _ _ _ _, ?_⟩
  · simpa [encodeEffect, produceEffect, Effect.apply] using hword
  · simpa [encodeEffect, produceEffect, Effect.apply] using hfinal
  · exact Effect.apply_success_okFrame s _ [(4, _), (5, _)]

/-- A command with an encoder's word, checks and effect means what R117 and R118 say of it. -/
theorem encoderCommandMeaning {f : Family} {op : Nat} {cmd : BufId → BufId → Instr}
    (hword : ∀ sb db, encode (cmd sb db) = BitVec.ofNat 32 (op + 0x100 * bufIndex sb + 0x200 * bufIndex db))
    (hchecks : ∀ sb db s, commandChecks (cmd sb db) s = encChecks f sb db s)
    (heffect : ∀ sb db s, commandEffect (cmd sb db) s = encodeEffect f sb db s) :
    EncoderCommandMeaning f op (numStates f) cmd := by
  intro sb db s hs n m input
  have hfirst := firstFailure_encChecks f sb db s
  have rejects {e : ErrCode} (h : firstFailure (encChecks f sb db s) = some e) : Rejects (cmd sb db) s e :=
    rejects_of_check_fails (by rwa [hchecks])
  refine ⟨(decode_eq_ok_iff _ _).2 (hword sb db), fun heq => rejects ?_, fun hne hm => rejects ?_,
    fun hne hm hlen => rejects ?_, fun hne hm hlen hcap => rejects ?_, fun hne hm hlen hcap => ?_⟩
  · rw [hfirst, if_pos heq]
  · rw [hfirst, if_neg hne, if_pos hm]
  · rw [hfirst, if_neg hne, if_neg (Nat.not_le.2 hm), if_pos hlen]
  · rw [hfirst, if_neg hne, if_neg (Nat.not_le.2 hm), if_neg (Nat.not_lt.2 hlen), if_pos hcap]
  · have hc : firstFailure (commandChecks (cmd sb db) s) = none := by
      rw [hchecks, hfirst, if_neg hne, if_neg (Nat.not_le.2 hm), if_neg (Nat.not_lt.2 hlen),
        if_neg (Nat.not_lt.2 hcap)]
    refine ⟨_, exec_eq_effect hc, ?_⟩
    rw [heffect]
    exact encodeEffect_spec hs f hne hm hcap

/-- Settles O33: RSCENC is the encoder command of the RSC code. -/
theorem rscencEncodesTheBits : Obligations.RscencEncodesTheBits :=
  encoderCommandMeaning (fun sb db => by cases sb <;> cases db <;> rfl) (fun _ _ _ => rfl) (fun _ _ _ => rfl)

/-- Settles O34: NRNSCENC is the encoder command of the NRNSC code. -/
theorem nrnscencEncodesTheBits : Obligations.NrnscencEncodesTheBits :=
  encoderCommandMeaning (fun sb db => by cases sb <;> cases db <;> rfl) (fun _ _ _ => rfl) (fun _ _ _ => rfl)

end Sys2Proof.Machine
end

section
/-! The body of a coded frame (R119, R121, R212). -/

namespace Sys2Proof.Machine

theorem bitsOfWord_extractLsb' {w : Nat} (v : BitVec w) (start n : Nat) :
    bitsOfWord (v.extractLsb' start n) = (List.range n).map fun i => v.getLsbD (start + i) := by
  refine List.map_congr_left fun i hi => ?_
  rw [BitVec.getLsbD_extractLsb', decide_eq_true (List.mem_range.1 hi), Bool.true_and]

/-- The header word goes out low byte first, each byte low bit first (R183). -/
theorem streamBits_headerBytes (H : BitVec 16) : streamBits (headerBytes H) = bitsOfWord H :=
  calc streamBits (headerBytes H)
      = bitsOfWord (H.extractLsb' 0 8) ++ bitsOfWord (H.extractLsb' 8 8) := by simp [headerBytes]
    _ = (List.range (8 + 8)).map H.getLsbD := by
      simp only [bitsOfWord_extractLsb', List.range_add, List.map_append, List.map_map, Nat.zero_add]
      rfl

/-- The pad is one octet with the tail bits, or that octet and `PAD_BYTE` when `2 + L` is even (R119, R121). -/
theorem tailpad_padOctets (f : Family) (m L : Nat) :
    tailpad f m (padOctets L) =
      if (2 + L) % 2 = 0 then [0xD0#8 ||| tailBits f m, 0xD0#8] else [0xD0#8 ||| tailBits f m] := by
  unfold padOctets
  split <;> rfl

theorem sfdCoded_iff (k : SfdType) : sfdCoded k = true ↔ k = .coded0 ∨ k = .coded1 := by cases k <;> decide

/-- What follows the preamble and the SFD of a frame is its body (R213). -/
theorem drop_encodeFrame (P : Params) (k : SfdType) (fam : Family) (dw : Bool) {plen : Nat} (hplen : plen % 8 = 0)
    (data : List Byte) :
    (encodeFrame P k fam dw plen data).drop (plen + 16) = streamBits (frameBody P k fam dw data) := by
  have hhead : ((List.replicate (plen / 8) pre).flatten ++ sfdBits P k).length = plen + 16 := by
    simp [pre, sfdBits]
    omega
  rw [encodeFrame, ← hhead, List.drop_left]

/-- Settles O55: the body of a coded frame, with core, tail and pad as bits. -/
theorem codedBodyIsTheInterleavedCode : Obligations.CodedBodyIsTheInterleavedCode := by
  intro P k fam dw plen data hplen hk payload core first tail
  have hcore : streamBits (frameCore P dw data) = core := by
    rw [frameCore, streamBits_append, streamBits_headerBytes]
    rfl
  have htail : tailpad fam (fecState fam 0 core) (padOctets (data.length + 4)) = tail := tailpad_padOctets ..
  rw [drop_encodeFrame P k fam dw hplen, frameBody]
  simp only [(sfdCoded_iff k).2 hk, if_true, hcore, htail, streamBits_append]
  rfl

end Sys2Proof.Machine
end

section
/-! The number of places at which two bit sequences differ (R130), and the two codes under it (R122, R140). -/

namespace Sys2Proof.Machine

@[simp] theorem hamming_nil_left (l : List Bool) : hamming [] l = 0 := rfl

@[simp] theorem hamming_cons_cons (a b : Bool) (l l' : List Bool) :
    hamming (a :: l) (b :: l') = (if a = b then 0 else 1) + hamming l l' := rfl

@[simp] theorem hamming_self (l : List Bool) : hamming l l = 0 := by
  induction l with
  | nil => rfl
  | cons a l ih => simp [ih]

/-- Of two sequences in two parts the distances of the parts add up. -/
theorem hamming_append {u v : List Bool} (h : u.length = v.length) (u' v' : List Bool) :
    hamming (u ++ u') (v ++ v') = hamming u v + hamming u' v' := by
  induction u generalizing v with
  | nil => simp [List.eq_nil_of_length_eq_zero h.symm]
  | cons a u ih =>
    obtain ⟨b, v, rfl⟩ := List.exists_cons_of_length_eq_add_one h.symm
    simp [ih (by simpa using h), Nat.add_assoc]

theorem hamming_le_length (l l' : List Bool) : hamming l l' ≤ l.length := by
  induction l generalizing l' with
  | nil => simp
  | cons a l ih =>
    cases l' with
    | nil => simp [hamming]
    | cons b l' =>
      have := ih l'
      simp only [hamming_cons_cons, List.length_cons]
      split <;> omega

/-- Sequences of one length at distance 0 are equal. -/
theorem eq_of_hamming_eq_zero {l l' : List Bool} (hlen : l.length = l'.length) (h : hamming l l' = 0) : l = l' := by
  induction l generalizing l' with
  | nil => exact (List.eq_nil_of_length_eq_zero hlen.symm).symm
  | cons a l ih =>
    obtain ⟨b, l', rfl⟩ := List.exists_cons_of_length_eq_add_one hlen.symm
    obtain ⟨hab, hrest⟩ := Nat.add_eq_zero_iff.1 h
    rw [ih (by simpa using hlen) hrest, show a = b by simpa using hab]

/-- From every state the first output bit tells the two inputs apart (R122). -/
theorem eq_of_trellis_bit_eq {f : Family} {m : Nat} {a b : Bool}
    (h : (trellis f m a).1.getLsbD 1 = (trellis f m b).1.getLsbD 1) : a = b := by
  by_contra hne
  obtain rfl : b = !a := Bool.eq_not.2 (Ne.symm hne)
  simp [trellis_not_symbol] at h

/-- The code of a sequence determines it (R122). -/
theorem fecBits_injective {f : Family} {m : Nat} {c c' : List Bool} (h : fecBits f m c = fecBits f m c') : c = c' := by
  induction c generalizing m c' with
  | nil => cases c' with
    | nil => rfl
    | cons b c' => simp [fecBits_cons] at h
  | cons a c ih => cases c' with
    | nil => simp [fecBits_cons] at h
    | cons b c' =>
      simp only [fecBits_cons, List.cons.injEq] at h
      obtain ⟨hbit, -, hrest⟩ := h
      obtain rfl : a = b := eq_of_trellis_bit_eq hbit
      rw [ih hrest]

/-- The distance of a code from the received bits is that of its first part and that of the rest, coded from the state
the first part ends in (R112). -/
theorem hamming_fecBits_append {f : Family} {m : Nat} {u R : List Bool} (h : 2 * u.length = R.length)
    (v E : List Bool) :
    hamming (fecBits f m (u ++ v)) (R ++ E) =
      hamming (fecBits f m u) R + hamming (fecBits f (fecState f m u) v) E := by
  rw [fecBits_append, hamming_append (by simpa using h)]

end Sys2Proof.Machine
end

section
/-! Keeping the nearest of a list: the one rule behind the survivor of a state and the end selection (R133 to R135). -/

namespace Sys2Proof.Machine

/-- The nearer of the one kept and a candidate; `take` says whether a candidate replaces one at the same distance. -/
def nearer {α : Type} (dist : α → Nat) (take : α → Bool) (kept : Option α) (cand : α) : Option α :=
  match kept with
  | none => some cand
  | some old => if dist cand < dist old ∨ (dist cand = dist old ∧ take cand) then some cand else some old

/-- The survivor of a state is kept by this rule (R133). -/
theorem better_eq_nearer (takeNew : Bool) : better takeNew = nearer Prod.fst fun _ => takeNew := by
  funext kept cand
  cases kept with
  | none => rfl
  | some old => by_cases hlt : cand.1 < old.1 <;> simp [better, nearer, hlt]

/-- The survivors of a column with the numbers of their states, counted from `k`. -/
def survivorsFrom : Nat → Column → List (Nat × Survivor)
  | _, [] => []
  | k, none :: col => survivorsFrom (k + 1) col
  | k, some v :: col => (k, v) :: survivorsFrom (k + 1) col

theorem mem_survivorsFrom {k s : Nat} {v : Survivor} {col : Column} :
    (s, v) ∈ survivorsFrom k col ↔ ∃ i, s = k + i ∧ col.getD i none = some v := by
  induction col generalizing k with
  | nil => simp [survivorsFrom]
  | cons c col ih =>
    have hsplit : (∃ i, s = k + i ∧ (c :: col).getD i none = some v) ↔
        (s = k ∧ c = some v) ∨ ∃ i, s = k + 1 + i ∧ col.getD i none = some v := by
      constructor
      · rintro ⟨i, rfl, hi⟩
        cases i with
        | zero => exact .inl ⟨rfl, hi⟩
        | succ i => exact .inr ⟨i, by omega, hi⟩
      · rintro (⟨rfl, hc⟩ | ⟨i, rfl, hi⟩)
        · exact ⟨0, rfl, hc⟩
        · exact ⟨i + 1, by omega, hi⟩
    rw [hsplit]
    cases c with
    | none => simp [survivorsFrom, ih]
    | some u => simp [survivorsFrom, ih, eq_comm]

theorem mem_survivorsFrom_zero {s : Nat} {v : Survivor} {col : Column} :
    (s, v) ∈ survivorsFrom 0 col ↔ col.getD s none = some v :=
  mem_survivorsFrom.trans (by simp)

/-- The end selection is the same rule over the survivors of the last column (R134). -/
theorem endSelection_eq_foldl (pick : Nat → Bool) (k : Nat) (best : Option (Nat × Survivor)) (col : Column) :
    endSelection pick k best col =
      (survivorsFrom k col).foldl (nearer (fun p => p.2.1) fun p => pick p.1) best := by
  induction col generalizing k best with
  | nil => rfl
  | cons c col ih =>
    cases c with
    | none => exact ih _ _
    | some v =>
      cases best with
      | none => exact ih _ _
      | some p =>
        rw [endSelection, survivorsFrom, List.foldl_cons, ih, ih, nearer]
        split <;> rfl

section
variable {α : Type} {dist : α → Nat} {take : α → Bool}

/-- One of the two is kept, and neither is nearer than it. -/
theorem nearer_spec (dist : α → Nat) (take : α → Bool) (kept : Option α) (cand : α) :
    ∃ v, nearer dist take kept cand = some v ∧ (v = cand ∨ kept = some v) ∧ dist v ≤ dist cand ∧
      ∀ u, kept = some u → dist v ≤ dist u := by
  cases kept with
  | none => exact ⟨cand, rfl, .inl rfl, Nat.le_refl _, by simp⟩
  | some old =>
    simp only [nearer]
    split
    · next h => exact ⟨cand, rfl, .inl rfl, Nat.le_refl _, fun u hu => by cases hu; omega⟩
    · next h => exact ⟨old, rfl, .inr rfl, by omega, fun u hu => by cases hu; rfl⟩

/-- What is kept of a list is one of it, or was kept before, and none of these is nearer. -/
theorem foldl_nearer_spec {l : List α} {kept : Option α} {v : α} (h : l.foldl (nearer dist take) kept = some v) :
    (v ∈ l ∨ kept = some v) ∧ (∀ u ∈ l, dist v ≤ dist u) ∧ ∀ u, kept = some u → dist v ≤ dist u := by
  induction l generalizing kept with
  | nil => exact ⟨.inr h, by simp, fun u hu => by cases hu.symm.trans h; rfl⟩
  | cons c l ih =>
    obtain ⟨w, hw, horigin, hwc, hwkept⟩ := nearer_spec dist take kept c
    obtain ⟨hmem, hmin, hkept⟩ := ih h
    have hvw : dist v ≤ dist w := hkept w hw
    refine ⟨?_, ?_, fun u hu => Nat.le_trans hvw (hwkept u hu)⟩
    · rcases hmem with hmem | hmem
      · exact .inl (List.mem_cons_of_mem _ hmem)
      · obtain rfl : w = v := Option.some.inj (hw.symm.trans hmem)
        exact horigin.imp_left fun (hc : w = c) => hc ▸ List.mem_cons_self
    · rintro u (- | ⟨-, hu⟩)
      · exact Nat.le_trans hvw hwc
      · exact hmin u hu

/-- Something is kept of a list that is not empty. -/
theorem exists_foldl_nearer {l : List α} {u : α} (hu : u ∈ l) (kept : Option α) :
    ∃ v, l.foldl (nearer dist take) kept = some v := by
  induction l generalizing kept u with
  | nil => simp at hu
  | cons c l ih =>
    obtain ⟨w, hw, -⟩ := nearer_spec dist take kept c
    cases l with
    | nil => exact ⟨w, hw⟩
    | cons d l => exact ih List.mem_cons_self _

/-- A nearest candidate is kept if it is the first or replaces ties, and nothing else after it replaces ties (R135). -/
theorem foldl_nearer_eq {l l₁ l₂ : List α} {v : α} (hl : l = l₁ ++ v :: l₂) (hmin : ∀ u ∈ l, dist v ≤ dist u)
    (hbefore : l₁ = [] ∨ take v = true) (hafter : ∀ u ∈ l₂, take u = true → u = v) :
    l.foldl (nearer dist take) none = some v := by
  subst hl
  have htaken : nearer dist take (l₁.foldl (nearer dist take) none) v = some v := by
    cases hkept : l₁.foldl (nearer dist take) none with
    | none => rfl
    | some w =>
      obtain ⟨hmem, -⟩ := foldl_nearer_spec hkept
      have hw : w ∈ l₁ := by simpa using hmem
      have htake : take v = true := hbefore.resolve_left (List.ne_nil_of_mem hw)
      have hvw : dist v ≤ dist w := hmin w (List.mem_append_left _ hw)
      simp only [nearer, htake, and_true]
      rw [if_pos (by omega)]
  have hstays : ∀ u ∈ l₂, nearer dist take (some v) u = some v := by
    intro u hu
    have hvu : dist v ≤ dist u := hmin u (by simp [hu])
    rw [nearer]
    split
    · next h =>
      obtain ⟨-, htake⟩ := h.resolve_left (by omega)
      rw [hafter u hu htake]
    · rfl
  rw [List.foldl_append, List.foldl_cons, htaken]
  exact List.foldlRecOn (motive := fun kept => kept = some v) l₂ _ rfl fun _ hkept u hu => by
    rw [hkept, hstays u hu]

end

end Sys2Proof.Machine
end

section
/-! The columns of the recursion (R131 to R134): each survivor is a path, and no path to its state is nearer. -/

namespace Sys2Proof.Machine

/-! ### One branch (R132) -/

/-- The symbol received for two bits (R131). -/
abbrev recvSymbol (b₀ b₁ : Bool) : BitVec 2 := symSwap (wordOfBits 2 [b₀, b₁])

/-- The branch distance counts the output bits in which a symbol differs from the received bits (R131, R132). -/
theorem branchDist_recvSymbol : ∀ (sym : BitVec 2) (b₀ b₁ : Bool),
    branchDist sym (recvSymbol b₀ b₁) = hamming [sym.getLsbD 1, sym.getLsbD 0] [b₀, b₁] := by decide

/-- A survivor at state `s` with the branch of input `b` added (R133). -/
def addBranch (f : Family) (r : BitVec 2) (s : Nat) (b : Bool) (v : Survivor) : Survivor :=
  (v.1 + branchDist (trellis f s b).1 r, b :: v.2)

theorem candidate_eq_some_iff {f : Family} {col : Column} {r : BitVec 2} {s' s : Nat} {b : Bool} {w : Survivor} :
    candidate f col r s' s b = some w ↔
      (trellis f s b).2 = s' ∧ ∃ v, col.getD s none = some v ∧ addBranch f r s b v = w := by
  unfold candidate
  split
  · next h => cases col.getD s none <;> simp [h, addBranch]
  · next h => simp [h]

theorem mem_candidates {f : Family} {col : Column} {r : BitVec 2} {s' : Nat} {w : Survivor} :
    w ∈ candidates f col r s' ↔
      ∃ s b v, s < numStates f ∧ (trellis f s b).2 = s' ∧ col.getD s none = some v ∧ addBranch f r s b v = w := by
  simp only [candidates, List.mem_flatMap, List.mem_range, List.mem_append, Option.mem_toList,
    candidate_eq_some_iff]
  constructor
  · rintro ⟨s, hs, ⟨hs', v, hv⟩ | ⟨hs', v, hv⟩⟩
    · exact ⟨s, false, v, hs, hs', hv⟩
    · exact ⟨s, true, v, hs, hs', hv⟩
  · rintro ⟨s, b, v, hs, hs', hv⟩
    cases b with
    | false => exact ⟨s, hs, .inl ⟨hs', v, hv⟩⟩
    | true => exact ⟨s, hs, .inr ⟨hs', v, hv⟩⟩

/-- The survivor of a state in the next column is kept of its candidates (R133). -/
theorem getD_nextColumn (f : Family) (pick : Nat → Bool) (col : Column) (r : BitVec 2) (s' : Nat) :
    (nextColumn f pick col r).getD s' none =
      if s' < numStates f then (candidates f col r s').foldl (nearer Prod.fst fun _ => pick s') none else none := by
  rw [nextColumn, List.getD_eq_getElem?_getD, List.getElem?_map, ← better_eq_nearer]
  split
  · next h => rw [List.getElem?_range h]; rfl
  · next h => rw [List.getElem?_eq_none (by simpa using h)]; rfl

theorem getD_startColumn {f : Family} {m : Nat} (hm : m < numStates f) (s : Nat) :
    (startColumn f m).getD s none = if s = m then some (0, []) else none := by
  rw [startColumn, List.getD_eq_getElem?_getD, List.getElem?_map]
  by_cases h : s < numStates f
  · rw [List.getElem?_range h]; rfl
  · rw [List.getElem?_eq_none (by simpa using h), if_neg (by omega)]; rfl

/-! ### Paths -/

/-- The survivor is a path from `m` to `s` with its distance from the received bits `R` (R130, R133). -/
structure PathTo (f : Family) (m : Nat) (R : List Bool) (s : Nat) (v : Survivor) : Prop where
  length : 2 * v.2.reverse.length = R.length
  state : fecState f m v.2.reverse = s
  dist : v.1 = hamming (fecBits f m v.2.reverse) R

/-- A path and a branch more is a path (R133). -/
theorem PathTo.of_branch {f : Family} {m s : Nat} {R : List Bool} {v : Survivor} (h : PathTo f m R s v)
    (b b₀ b₁ : Bool) :
    PathTo f m (R ++ [b₀, b₁]) (trellis f s b).2 (addBranch f (recvSymbol b₀ b₁) s b v) := by
  obtain ⟨hlen, rfl, hdist⟩ := h
  refine ⟨?_, ?_, ?_⟩ <;> simp only [addBranch, List.reverse_cons]
  · simp at hlen ⊢; omega
  · rw [fecState_append, fecState_cons, fecState_nil]
  · rw [hamming_fecBits_append hlen, ← hdist, fecBits_cons, fecBits_nil, branchDist_recvSymbol]

/-! ### Columns -/

/-- The column after the received bits `R` (R133, R134): its survivors are paths to their states, and no path to any
state is nearer than the survivor there. -/
structure OptimalColumn (f : Family) (m : Nat) (R : List Bool) (col : Column) : Prop where
  sound : ∀ s v, col.getD s none = some v → PathTo f m R s v
  optimal : ∀ c : List Bool, 2 * c.length = R.length →
    ∃ v, col.getD (fecState f m c) none = some v ∧ v.1 ≤ hamming (fecBits f m c) R

/-- Before the first symbol the one path is the empty one at the start state (R133). -/
theorem optimalColumn_startColumn {f : Family} {m : Nat} (hm : m < numStates f) :
    OptimalColumn f m [] (startColumn f m) where
  sound s v hv := by
    rw [getD_startColumn hm] at hv
    split at hv
    · next h =>
      obtain rfl := Option.some.inj hv
      exact ⟨rfl, h.symm, rfl⟩
    · simp at hv
  optimal c hc := by
    obtain rfl : c = [] := List.eq_nil_of_length_eq_zero (by simpa using hc)
    exact ⟨(0, []), (getD_startColumn hm m).trans (if_pos rfl), Nat.le_refl _⟩

/-- Every candidate is a path (R133). -/
theorem OptimalColumn.candidate_pathTo {f : Family} {m : Nat} {R : List Bool} {col : Column}
    (h : OptimalColumn f m R col) {b₀ b₁ : Bool} {s' : Nat} {w : Survivor}
    (hw : w ∈ candidates f col (recvSymbol b₀ b₁) s') : PathTo f m (R ++ [b₀, b₁]) s' w := by
  obtain ⟨s, b, v, -, rfl, hv, rfl⟩ := mem_candidates.1 hw
  exact (h.sound s v hv).of_branch b b₀ b₁

/-- One symbol keeps a column optimal, whatever the choice among ties (R133, R134). -/
theorem OptimalColumn.nextColumn {f : Family} {m : Nat} {R : List Bool} {col : Column} (hm : m < numStates f)
    (h : OptimalColumn f m R col) (pick : Nat → Bool) (b₀ b₁ : Bool) :
    OptimalColumn f m (R ++ [b₀, b₁]) (nextColumn f pick col (recvSymbol b₀ b₁)) where
  sound s w hw := by
    rw [getD_nextColumn] at hw
    split at hw
    · obtain ⟨hmem, -⟩ := foldl_nearer_spec hw
      exact h.candidate_pathTo (by simpa using hmem)
    · simp at hw
  optimal c hc := by
    have hne : c ≠ [] := by rintro rfl; simp at hc
    obtain ⟨c, b, rfl⟩ := List.eq_nil_or_concat c |>.resolve_left hne
    simp only [List.concat_eq_append] at hc ⊢
    have hlen : 2 * c.length = R.length := by simp at hc; omega
    obtain ⟨v, hv, hle⟩ := h.optimal c hlen
    have hs : fecState f m c < numStates f := fecState_lt hm c
    have hmem : addBranch f (recvSymbol b₀ b₁) (fecState f m c) b v ∈
        candidates f col (recvSymbol b₀ b₁) (trellis f (fecState f m c) b).2 :=
      mem_candidates.2 ⟨_, b, v, hs, rfl, hv, rfl⟩
    obtain ⟨w, hw⟩ := exists_foldl_nearer hmem none
    obtain ⟨-, hmin, -⟩ := foldl_nearer_spec hw
    refine ⟨w, ?_, ?_⟩
    · rw [fecState_append, fecState_cons, fecState_nil, getD_nextColumn, if_pos (trellis_lt ..), hw]
    · rw [hamming_fecBits_append hlen, fecBits_cons, fecBits_nil, ← branchDist_recvSymbol]
      exact Nat.le_trans (hmin _ hmem) (Nat.add_le_add_right hle _)

/-- Received bits come two at a time (R131). -/
theorem exists_two_bits {E : List Bool} {T : Nat} (h : E.length = 2 * (T + 1)) :
    ∃ b₀ b₁ E', E = b₀ :: b₁ :: E' ∧ E'.length = 2 * T := by
  obtain ⟨b₀, E₁, rfl⟩ := List.exists_cons_of_length_eq_add_one (n := 2 * T + 1) h
  obtain ⟨b₁, E', rfl⟩ := List.exists_cons_of_length_eq_add_one (n := 2 * T) (Nat.succ.inj h)
  exact ⟨b₀, b₁, E', rfl, Nat.succ.inj (Nat.succ.inj h)⟩

/-- The symbols received keep a column optimal, whatever the choices among ties (R134). -/
theorem OptimalColumn.runColumns {f : Family} {m : Nat} {R E : List Bool} {col : Column} {T : Nat}
    (hm : m < numStates f) (h : OptimalColumn f m R col) (pick : Nat → Nat → Bool) (t : Nat) (hE : E.length = 2 * T) :
    OptimalColumn f m (R ++ E) (runColumns f pick t col (recvSymbols E)) := by
  induction T generalizing R E col t with
  | zero =>
    obtain rfl : E = [] := List.eq_nil_of_length_eq_zero hE
    rwa [List.append_nil]
  | succ T ih =>
    obtain ⟨b₀, b₁, E, rfl, hE'⟩ := exists_two_bits hE
    have hparts : R ++ b₀ :: b₁ :: E = R ++ [b₀, b₁] ++ E := (List.append_assoc R [b₀, b₁] E).symm
    rw [hparts]
    exact ih (h.nextColumn hm (pick t) b₀ b₁) (t + 1) hE'

/-- The column a decode ends with (R133). -/
def lastColumn (f : Family) (pick : Nat → Nat → Bool) (m : Nat) (enc : List Bool) : Column :=
  runColumns f pick 0 (startColumn f m) (recvSymbols enc)

theorem optimalColumn_lastColumn {f : Family} (pick : Nat → Nat → Bool) {m T : Nat} {enc : List Bool}
    (hm : m < numStates f) (henc : enc.length = 2 * T) : OptimalColumn f m enc (lastColumn f pick m enc) :=
  (optimalColumn_startColumn hm).runColumns hm pick 0 henc

/-! ### The answer (R130, R134) -/

theorem fecDecode_eq_of_endSelection {f : Family} {pick : Nat → Nat → Bool} {m T s : Nat} {enc : List Bool}
    {v : Survivor} (henc : enc.length = 2 * T)
    (h : endSelection (pick T) 0 none (lastColumn f pick m enc) = some (s, v)) :
    fecDecode f pick m enc = { bits := v.2.reverse, final := s, dist := v.1 } := by
  have hT : (recvSymbols enc).length = T := by simp [henc]
  simp only [fecDecode, hT]
  rw [lastColumn] at h
  rw [h]

/-- A decode answers a path to a state, and no sequence of its length is nearer (R134). -/
theorem exists_fecDecode_eq {f : Family} (pick : Nat → Nat → Bool) {m T : Nat} {enc : List Bool}
    (hm : m < numStates f) (henc : enc.length = 2 * T) :
    ∃ s v, fecDecode f pick m enc = { bits := v.2.reverse, final := s, dist := v.1 } ∧ PathTo f m enc s v ∧
      ∀ c : List Bool, c.length = T → v.1 ≤ hamming (fecBits f m c) enc := by
  have hcol := optimalColumn_lastColumn pick hm henc
  have hsurvivor : ∀ c : List Bool, c.length = T → ∃ s u, (s, u) ∈ survivorsFrom 0 (lastColumn f pick m enc) ∧
      u.1 ≤ hamming (fecBits f m c) enc := by
    intro c hc
    obtain ⟨u, hu, hle⟩ := hcol.optimal c (by omega)
    exact ⟨_, u, mem_survivorsFrom_zero.2 hu, hle⟩
  obtain ⟨_, _, hmem, -⟩ := hsurvivor (List.replicate T false) (by simp)
  obtain ⟨⟨s, v⟩, hsel⟩ := exists_foldl_nearer hmem none
  obtain ⟨hin, hmin, -⟩ := foldl_nearer_spec hsel
  have hv := mem_survivorsFrom_zero.1 (hin.resolve_right (by simp))
  refine ⟨_, v, fecDecode_eq_of_endSelection henc ((endSelection_eq_foldl ..).trans hsel), ?_, fun c hc => ?_⟩
  · exact hcol.sound s v hv
  · obtain ⟨s', u, hu, hle⟩ := hsurvivor c hc
    exact Nat.le_trans (hmin _ hu) hle

/-- Settles O35: the last column is optimal, and the end selection answers its nearest path. -/
theorem decoderReturnsAMinimumDistancePath : Obligations.DecoderReturnsAMinimumDistancePath := by
  intro f pick m T enc hm henc
  obtain ⟨s, v, heq, ⟨hlen, hstate, hdist⟩, hmin⟩ := exists_fecDecode_eq pick hm henc
  rw [heq]
  exact ⟨by simp only; omega, hstate.symm, hdist, hmin⟩

/-- Settles O37: the answer is at distance 0 as the sequence itself is, and the code at distance 0 has one input. -/
theorem cleanInputDecodesToItself : Obligations.CleanInputDecodesToItself := by
  intro f pick m c hm
  have hunique : ∀ c' : List Bool, c'.length = c.length → hamming (fecBits f m c') (fecBits f m c) = 0 → c' = c :=
    fun c' hlen h => fecBits_injective (eq_of_hamming_eq_zero (by simp [hlen]) h)
  obtain ⟨s, v, heq, ⟨hlen, hstate, hdist⟩, hmin⟩ := exists_fecDecode_eq pick hm (length_fecBits f m c)
  have hzero : v.1 = 0 := by simpa using hmin c rfl
  have hbits : v.2.reverse = c := hunique _ (by simpa using hlen) (hdist.symm.trans hzero)
  rw [heq, hzero, ← hstate, hbits]
  exact ⟨rfl, fun limit => by cases limit <;> simp [acceptable], hunique⟩

end Sys2Proof.Machine
end

section
/-! Every minimiser is the answer under some choice among ties (R135). -/

namespace Sys2Proof.Machine

/-! ### The two branches into a state (R114, R116) -/

/-- The states of the two branches into one state agree but for their highest bit. -/
theorem trellis_next_div_two (f : Family) : ∀ s < numStates f, ∀ b,
    (trellis f s b).2 / 2 = s % (numStates f / 2) := by
  cases f <;> decide

/-- The two inputs lead to two states. -/
theorem trellis_next_injective (f : Family) : ∀ s < numStates f, ∀ b b',
    (trellis f s b).2 = (trellis f s b').2 → b = b' := by
  cases f <;> decide

/-- No other branch into a state leaves from the same half of the states. -/
theorem eq_of_trellis_next_eq {f : Family} {s s₀ : Nat} {b b₀ : Bool} (hs : s < numStates f) (hs₀ : s₀ < numStates f)
    (hhalf : numStates f ≤ 2 * s₀ ↔ numStates f ≤ 2 * s) (h : (trellis f s₀ b₀).2 = (trellis f s b).2) : s₀ = s := by
  have hmod : s₀ % (numStates f / 2) = s % (numStates f / 2) := by
    rw [← trellis_next_div_two f s₀ hs₀ b₀, ← trellis_next_div_two f s hs b, h]
  cases f <;> simp only [numStates] at * <;> omega

/-- The numbers below `n` are those below `s`, then `s`, then those above. -/
theorem range_eq_append_cons {s n : Nat} (h : s < n) :
    List.range n = List.range s ++ s :: List.range' (s + 1) (n - (s + 1)) :=
  calc List.range n
      = List.range' 0 (s + (n - (s + 1) + 1)) := by rw [List.range_eq_range', show s + (n - (s + 1) + 1) = n by omega]
    _ = List.range' 0 s ++ List.range' (0 + s) (n - (s + 1) + 1) := List.range'_append_1.symm
    _ = List.range s ++ s :: List.range' (s + 1) (n - (s + 1)) := by
      rw [Nat.zero_add, List.range'_succ, List.range_eq_range']

/-- The candidates that state `s` offers (R133). -/
def candidatesFrom (f : Family) (col : Column) (r : BitVec 2) (s' s : Nat) : List Survivor :=
  (candidate f col r s' s false).toList ++ (candidate f col r s' s true).toList

theorem candidates_eq (f : Family) (col : Column) (r : BitVec 2) (s' : Nat) :
    candidates f col r s' = (List.range (numStates f)).flatMap (candidatesFrom f col r s') := rfl

theorem candidatesFrom_eq_nil {f : Family} {col : Column} {r : BitVec 2} {s' s : Nat}
    (h : ∀ b, (trellis f s b).2 ≠ s') : candidatesFrom f col r s' s = [] := by
  simp [candidatesFrom, candidate, h]

/-- A state of the trellis offers the one candidate of the branch that leads there. -/
theorem candidatesFrom_of_branch {f : Family} {col : Column} {s : Nat} {v : Survivor} (hs : s < numStates f)
    (hv : col.getD s none = some v) (r : BitVec 2) (b : Bool) :
    candidatesFrom f col r (trellis f s b).2 s = [addBranch f r s b v] := by
  have htaken : candidate f col r (trellis f s b).2 s b = some (addBranch f r s b v) :=
    candidate_eq_some_iff.2 ⟨rfl, v, hv, rfl⟩
  have hother : candidate f col r (trellis f s b).2 s (!b) = none := by
    refine if_neg fun h => ?_
    simpa using trellis_next_injective f s hs _ _ h
  cases b <;> simpa [candidatesFrom, htaken] using hother

/-- The candidate of a branch from the lower half of the states is the first of its state, one from the upper half the
last. -/
theorem candidates_of_branch {f : Family} {col : Column} {s : Nat} {v : Survivor} (hs : s < numStates f)
    (hv : col.getD s none = some v) (r : BitVec 2) (b : Bool) :
    ∃ l₁ l₂, candidates f col r (trellis f s b).2 = l₁ ++ addBranch f r s b v :: l₂ ∧
      (numStates f ≤ 2 * s → l₂ = []) ∧ (¬ numStates f ≤ 2 * s → l₁ = []) := by
  refine ⟨(List.range s).flatMap (candidatesFrom f col r (trellis f s b).2),
    (List.range' (s + 1) (numStates f - (s + 1))).flatMap (candidatesFrom f col r (trellis f s b).2), ?_, ?_, ?_⟩
  · rw [candidates_eq, range_eq_append_cons hs, List.flatMap_append, List.flatMap_cons,
      candidatesFrom_of_branch hs hv r b, List.singleton_append]
  · intro hhigh
    refine List.flatMap_eq_nil_iff.2 fun s₀ hs₀ => candidatesFrom_eq_nil fun b₀ h => ?_
    obtain ⟨hlo, hhi⟩ := List.mem_range'_1.1 hs₀
    have hsame := eq_of_trellis_next_eq hs (by omega) (by omega) h
    omega
  · intro hlow
    refine List.flatMap_eq_nil_iff.2 fun s₀ hs₀ => candidatesFrom_eq_nil fun b₀ h => ?_
    have hlt := List.mem_range.1 hs₀
    have hsame := eq_of_trellis_next_eq hs (by omega) (by omega) h
    omega

/-! ### The choice that follows a sequence (R135) -/

/-- The choice among ties that keeps the path of `c`: at each symbol the later candidate if `c` comes from the upper half
of the states, at the end the state `c` ends in. -/
def following (f : Family) (m : Nat) (c : List Bool) (t s : Nat) : Bool :=
  if t < c.length then decide (numStates f ≤ 2 * fecState f m (c.take t)) else decide (s = fecState f m c)

/-- No sequence of the same length has a code nearer to the received bits (R130). -/
def IsMinimiser (f : Family) (m : Nat) (enc c : List Bool) : Prop :=
  ∀ c' : List Bool, c'.length = c.length → hamming (fecBits f m c) enc ≤ hamming (fecBits f m c') enc

section
variable {f : Family} {m : Nat} {u c R E : List Bool} {col : Column}

/-- No path to the state where a minimiser stands after `u` is nearer than `u`: it could be completed as the
minimiser is (R134). -/
theorem IsMinimiser.le_of_pathTo (h : IsMinimiser f m (R ++ E) (u ++ c)) (hlen : 2 * u.length = R.length) {w : Survivor}
    (hw : PathTo f m R (fecState f m u) w) : hamming (fecBits f m u) R ≤ w.1 := by
  obtain ⟨hwlen, hstate, hdist⟩ := hw
  have hle := h (w.2.reverse ++ c) (by simp only [List.length_append]; omega)
  rw [hamming_fecBits_append hlen, hamming_fecBits_append hwlen, hstate, ← hdist] at hle
  exact Nat.le_of_add_le_add_right hle

/-- One symbol more of a minimiser survives if the choice at its next state is the one for its branch (R135). -/
theorem OptimalColumn.getD_nextColumn_of_isMinimiser (hm : m < numStates f) (hcol : OptimalColumn f m R col)
    (hlen : 2 * u.length = R.length)
    (hu : col.getD (fecState f m u) none = some (hamming (fecBits f m u) R, u.reverse)) {b b₀ b₁ : Bool}
    (hmin : IsMinimiser f m (R ++ [b₀, b₁] ++ E) (u ++ [b] ++ c)) {pick : Nat → Bool}
    (hpick : pick (fecState f m (u ++ [b])) = decide (numStates f ≤ 2 * fecState f m u)) :
    (Machine.nextColumn f pick col (recvSymbol b₀ b₁)).getD (fecState f m (u ++ [b])) none =
      some (hamming (fecBits f m (u ++ [b])) (R ++ [b₀, b₁]), (u ++ [b]).reverse) := by
  have hnext : fecState f m (u ++ [b]) = (trellis f (fecState f m u) b).2 := fecState_append f m u [b]
  have hext : addBranch f (recvSymbol b₀ b₁) (fecState f m u) b (hamming (fecBits f m u) R, u.reverse) =
      (hamming (fecBits f m (u ++ [b])) (R ++ [b₀, b₁]), (u ++ [b]).reverse) := by
    rw [hamming_fecBits_append hlen, fecBits_cons, fecBits_nil, ← branchDist_recvSymbol, List.reverse_append]
    rfl
  obtain ⟨l₁, l₂, hsplit, hhigh, hlow⟩ := candidates_of_branch (fecState_lt hm u) hu (recvSymbol b₀ b₁) b
  rw [← hnext, hext] at hsplit
  rw [getD_nextColumn, if_pos (fecState_lt hm _), hpick]
  refine foldl_nearer_eq hsplit (fun w hw => ?_) ?_ fun w hw htake => ?_
  · exact hmin.le_of_pathTo (by simp; omega) (hcol.candidate_pathTo hw)
  · by_cases h : numStates f ≤ 2 * fecState f m u
    · exact .inr (decide_eq_true h)
    · exact .inl (hlow h)
  · simp [hhigh (of_decide_eq_true htake)] at hw

/-- Under the choice that follows a minimiser the survivor at its final state is its own path (R135). -/
theorem OptimalColumn.getD_runColumns_following (hm : m < numStates f) (hcol : OptimalColumn f m R col)
    (hlen : 2 * u.length = R.length) (hE : E.length = 2 * c.length)
    (hu : col.getD (fecState f m u) none = some (hamming (fecBits f m u) R, u.reverse))
    (hmin : IsMinimiser f m (R ++ E) (u ++ c)) :
    (Machine.runColumns f (following f m (u ++ c)) u.length col (recvSymbols E)).getD (fecState f m (u ++ c)) none =
      some (hamming (fecBits f m (u ++ c)) (R ++ E), (u ++ c).reverse) := by
  induction c generalizing u R E col with
  | nil =>
    obtain rfl : E = [] := List.eq_nil_of_length_eq_zero hE
    simp only [List.append_nil]
    exact hu
  | cons b c ih =>
    obtain ⟨b₀, b₁, E, rfl, hE'⟩ := exists_two_bits (T := c.length) hE
    have hreceived : R ++ b₀ :: b₁ :: E = R ++ [b₀, b₁] ++ E := (List.append_assoc R [b₀, b₁] E).symm
    rw [hreceived, List.append_cons u b c] at hmin ⊢
    have hpick : following f m (u ++ [b] ++ c) u.length (fecState f m (u ++ [b])) =
        decide (numStates f ≤ 2 * fecState f m u) := by
      simp [following]
    have hrest := ih (hcol.nextColumn hm (following f m (u ++ [b] ++ c) u.length) b₀ b₁) (by simp; omega) hE'
      (hcol.getD_nextColumn_of_isMinimiser hm hlen hu hmin hpick) hmin
    rwa [List.length_append] at hrest

/-- The end selection takes a minimiser that survived if its final state is the one preferred on a tie (R134, R135). -/
theorem OptimalColumn.endSelection_of_isMinimiser (hcol : OptimalColumn f m R col) (hR : R.length = 2 * c.length)
    (hc : col.getD (fecState f m c) none = some (hamming (fecBits f m c) R, c.reverse)) (hmin : IsMinimiser f m R c)
    {pick : Nat → Bool} (hpick : ∀ s, pick s = decide (s = fecState f m c)) :
    endSelection pick 0 none col = some (fecState f m c, hamming (fecBits f m c) R, c.reverse) := by
  obtain ⟨l₁, l₂, hsplit⟩ := List.append_of_mem (mem_survivorsFrom_zero.2 hc)
  rw [endSelection_eq_foldl]
  refine foldl_nearer_eq hsplit ?_ (.inr (by simp [hpick])) ?_
  · rintro ⟨s, w⟩ hw
    obtain ⟨hlen, -, hdist⟩ := hcol.sound s w (mem_survivorsFrom_zero.1 hw)
    rw [hdist]
    exact hmin _ (by omega)
  · rintro ⟨s, w⟩ hw htake
    obtain rfl : s = fecState f m c := by simpa [hpick] using htake
    have hget := mem_survivorsFrom_zero.1 (hsplit ▸ List.mem_append_right _ (List.mem_cons_of_mem _ hw))
    rw [Option.some.inj (hget.symm.trans hc)]

end

/-- Settles O36: under the choice that follows a minimiser the decoder answers it. -/
theorem everyMinimiserCanBeReturned : Obligations.EveryMinimiserCanBeReturned := by
  intro f m enc c hm henc hmin
  refine ⟨following f m c, ?_⟩
  have hsurvivor : (lastColumn f (following f m c) m enc).getD (fecState f m c) none =
      some (hamming (fecBits f m c) enc, c.reverse) :=
    (optimalColumn_startColumn hm).getD_runColumns_following hm (u := []) rfl henc
      ((getD_startColumn hm m).trans (if_pos rfl)) hmin
  have hsel := (optimalColumn_lastColumn (following f m c) hm henc).endSelection_of_isMinimiser henc hsurvivor hmin
    (pick := following f m c c.length) fun s => if_neg (Nat.lt_irrefl _)
  rw [fecDecode_eq_of_endSelection henc hsel, List.reverse_reverse]

end Sys2Proof.Machine
end

section
/-! RSCDEC and NRNSCDEC (R136, R138, R139). -/

namespace Sys2Proof.Machine

/-! ### Failures in flight in the words of the statements (R57, R224) -/

/-- An error writes the status as `StatusError` says (R224, R226). -/
theorem StatusError.of_status_eq {e : ErrCode} {s t : State} (h : t.status = statusErr s.status e) :
    StatusError e s t := by
  obtain ⟨herr, hsticky, hothers, -⟩ := s.reject_rejected e
  exact ⟨h ▸ herr, h ▸ hsticky, h ▸ hothers⟩

/-- A failure in flight leaves what `FailedInFlight` says (R57, R224). -/
theorem Effect.apply_failure_failedInFlight (s : State) (e : ErrCode) (db : Option BufId) (v : Option Word) :
    FailedInFlight e db s ((Effect.failure e db v).apply s) where
  status := .of_status_eq (Effect.apply_failure_status s e db v)
  args _ hi := Effect.apply_x_of_arg s (by simp [Effect.results]) hi
  others _ hb := .of_buf (Effect.apply_buf_of_ne s hb)
  ord := Effect.apply_bord s _
  len b hb := by
    obtain ⟨-, -, -, -, -, -, -, -, -, hlost⟩ := (s.writeFsm v).failInFlight_spec e db
    obtain ⟨hlen, -⟩ := hlost b hb
    simpa [Effect.apply, State.capBits] using hlen
  host := Effect.apply_host s _

/-! ### The acceptance limit (R136) -/

theorem acceptable_iff {limit : Option Nat} {d : Nat} : acceptable limit d = true ↔ ∀ k, limit = some k → d ≤ k := by
  cases limit <;> simp [acceptable]

/-! ### The decoder commands -/

/-- Which check of a decoder fails first (R138, R139). -/
theorem firstFailure_decChecks (f : Family) (sb db : BufId) (s : State) :
    firstFailure (decChecks f sb db s) =
      if sb = db then some .illegal else if numStates f ≤ (s.x 1).toNat then some .illegal
      else if (s.x 0).toNat % 2 ≠ 0 then some .malformed
      else if s.blen sb < (s.x 0).toNat then some .capacity else none := by
  simp only [decChecks, firstFailure_cons, firstFailure_nil, State.bitsInside_iff, decide_eq_true_eq, ne_eq,
    ← Nat.not_le, ite_not]
  rfl

/-- The decode of a command answers a minimiser of the bits it reads, with its final state and distance (R130). -/
theorem decodeOf_spec (f : Family) (sb : BufId) {s : State} (hm : s.a1 < numStates f) (heven : s.a0 % 2 = 0) :
    (decodeOf f sb s).bits.length = s.a0 / 2 ∧ (decodeOf f sb s).final = fecState f s.a1 (decodeOf f sb s).bits ∧
      (decodeOf f sb s).dist = hamming (fecBits f s.a1 (decodeOf f sb s).bits) (s.streamOf sb s.a0) ∧
      ∀ c : List Bool, c.length = s.a0 / 2 →
        (decodeOf f sb s).dist ≤ hamming (fecBits f s.a1 c) (s.streamOf sb s.a0) :=
  decoderReturnsAMinimumDistancePath f _ s.a1 (s.a0 / 2) _ hm (by rw [State.length_streamOf]; omega)

/-- What a decoder leaves when its distance is accepted (R136, R138, R139). -/
theorem decodeEffect_accepted {s : State} (hs : s.Inv) (f : Family) {sb db : BufId} (hne : sb ≠ db)
    (hm : s.a1 < numStates f) (heven : s.a0 % 2 = 0)
    (hacc : acceptable s.params.viterbiMaxDist (decodeOf f sb s).dist = true) :
    let t := (decodeEffect f sb db s).apply s
    let c := (decodeOf f sb s).bits
    Produced State.streamBit db c s t ∧ t.blen db = s.a0 / 2 ∧ (t.x 4).toNat = s.a0 / 2 ∧
      (t.x 5).toNat = fecState f s.a1 c ∧ (t.x 6).toNat = (decodeOf f sb s).dist ∧ SameBuffer sb s t ∧
      OkFrame [4, 5, 6] s t := by
  obtain ⟨hlen, hfinal, hdist, -⟩ := decodeOf_spec f sb hm heven
  have ha0 : s.a0 < 2 ^ 32 := (s.x 0).isLt
  have hword : s.a0 / 2 < 2 ^ 32 := by omega
  have hstate : (decodeOf f sb s).final < 2 ^ 32 := by
    rw [hfinal]
    exact Nat.lt_trans (fecState_lt hm _) (by cases f <;> decide)
  have hnear : (decodeOf f sb s).dist < 2 ^ 32 := by
    have hle := hamming_le_length (fecBits f s.a1 (decodeOf f sb s).bits) (s.streamOf sb s.a0)
    rw [← hdist, length_fecBits] at hle
    omega
  rw [decodeEffect, if_pos hacc]
  refine ⟨produceEffect_pack_produced (hs.memWf db) hlen hword _ _, produceEffect_blen s db _ hword _ _, ?_, ?_, ?_,
    produceEffect_sameBuffer s hne _ _ _ _, ?_⟩
  · simpa [produceEffect, Effect.apply] using hword
  · rw [← hfinal]
    simpa [produceEffect, Effect.apply] using hstate
  · simpa [produceEffect, Effect.apply] using hnear
  · exact Effect.apply_success_okFrame s _ [(4, _), (5, _), (6, _)]

/-- A command with a decoder's word, checks and effect means what R138 and R139 say of it. -/
theorem decoderCommandMeaning {f : Family} {op : Nat} {cmd : BufId → BufId → Instr}
    (hword : ∀ sb db, encode (cmd sb db) = BitVec.ofNat 32 (op + 0x100 * bufIndex sb + 0x200 * bufIndex db))
    (hchecks : ∀ sb db s, commandChecks (cmd sb db) s = decChecks f sb db s)
    (heffect : ∀ sb db s, commandEffect (cmd sb db) s = decodeEffect f sb db s) :
    DecoderCommandMeaning f op (numStates f) cmd := by
  intro sb db s hs e m dist
  have hfirst := firstFailure_decChecks f sb db s
  have rejects {e : ErrCode} (h : firstFailure (decChecks f sb db s) = some e) : Rejects (cmd sb db) s e :=
    rejects_of_check_fails (by rwa [hchecks])
  have runs (hne : sb ≠ db) (hm : m < numStates f) (heven : e % 2 = 0) (hlen : e ≤ s.blen sb) :
      exec (cmd sb db) s = .next ((decodeEffect f sb db s).apply s) := by
    rw [← heffect]
    refine exec_eq_effect ?_
    rw [hchecks, hfirst, if_neg hne, if_neg (Nat.not_le.2 hm), if_neg (not_not.2 heven), if_neg (Nat.not_lt.2 hlen)]
  have hdistOf (c : List Bool) : hamming (fecBits f s.a1 c) (s.streamOf sb s.a0) = dist c := by
    rw [State.streamOf_eq_map_streamBit]
    rfl
  refine ⟨(decode_eq_ok_iff _ _).2 (hword sb db), fun heq => rejects ?_, fun hne hm => rejects ?_,
    fun hne hm hodd => rejects ?_, fun hne hm heven hlen => rejects ?_, ?_, ?_⟩
  · rw [hfirst, if_pos heq]
  · rw [hfirst, if_neg hne, if_pos hm]
  · rw [hfirst, if_neg hne, if_neg (Nat.not_le.2 hm), if_pos hodd]
  · rw [hfirst, if_neg hne, if_neg (Nat.not_le.2 hm), if_neg (not_not.2 heven), if_pos hlen]
  · rintro hne hm heven hlen ⟨c, hc, hwithin⟩
    obtain ⟨hbits, -, hdist, hmin⟩ := decodeOf_spec f sb hm heven
    simp only [hdistOf] at hdist hmin
    have hacc : acceptable s.params.viterbiMaxDist (decodeOf f sb s).dist = true :=
      acceptable_iff.2 fun k hk => Nat.le_trans (hmin c hc) (hwithin k hk)
    refine ⟨_, (decodeOf f sb s).bits, runs hne hm heven hlen, hbits, hdist ▸ hmin, ?_⟩
    rw [← hdist]
    exact decodeEffect_accepted hs f hne hm heven hacc
  · rintro hne hm heven hlen ⟨k, hk, hfar⟩
    obtain ⟨hbits, -, hdist, -⟩ := decodeOf_spec f sb hm heven
    rw [hdistOf] at hdist
    have hrefused : ¬ acceptable s.params.viterbiMaxDist (decodeOf f sb s).dist = true := fun hacc =>
      Nat.not_le.2 (hfar _ hbits) (hdist ▸ acceptable_iff.1 hacc k hk)
    have hfails : decodeEffect f sb db s = .failure .decode (some db) none := if_neg hrefused
    refine ⟨_, runs hne hm heven hlen, ?_, ?_⟩ <;> rw [hfails]
    · exact Effect.apply_failure_failedInFlight s ..
    · exact Effect.apply_fsm s _

/-- Settles O38: RSCDEC is the decoder command of the RSC code. -/
theorem rscdecDecodesTheBits : Obligations.RscdecDecodesTheBits :=
  decoderCommandMeaning (fun sb db => by cases sb <;> cases db <;> rfl) (fun _ _ _ => rfl) (fun _ _ _ => rfl)

/-- Settles O39: NRNSCDEC is the decoder command of the NRNSC code. -/
theorem nrnscdecDecodesTheBits : Obligations.NrnscdecDecodesTheBits :=
  decoderCommandMeaning (fun sb db => by cases sb <;> cases db <;> rfl) (fun _ _ _ => rfl) (fun _ _ _ => rfl)

end Sys2Proof.Machine
end

section
/-! The block interleaver and ILV (R145 to R150). -/

namespace Sys2Proof.Machine

/-! ### Symbols and bytes (R146) -/

/-- A byte is the byte of its four symbols. -/
theorem symbolsBytes_byteSymbols_append (x : Byte) (l : List (BitVec 2)) :
    symbolsBytes (byteSymbols x ++ l) = x :: symbolsBytes l := by
  have hx : symbolsByte (x.extractLsb' 6 2) (x.extractLsb' 4 2) (x.extractLsb' 2 2) (x.extractLsb' 0 2) = x := by
    rw [symbolsByte, BitVec.extractLsb'_append_extractLsb'_eq_extractLsb' (show 6 = 4 + 2 from rfl),
      BitVec.extractLsb'_append_extractLsb'_eq_extractLsb' (show 4 = 2 + 2 from rfl),
      BitVec.extractLsb'_append_extractLsb'_eq_extractLsb' (show 2 = 0 + 2 from rfl)]
    exact BitVec.extractLsb'_eq_self
  exact congrArg (· :: symbolsBytes l) hx

theorem symbolsBytes_flatMap_byteSymbols (l : List Byte) : symbolsBytes (l.flatMap byteSymbols) = l := by
  induction l with
  | nil => rfl
  | cons x l ih => rw [List.flatMap_cons, symbolsBytes_byteSymbols_append, ih]

/-- Four symbols are the symbols of their byte. -/
theorem byteSymbols_symbolsByte : ∀ a b c d : BitVec 2, byteSymbols (symbolsByte a b c d) = [a, b, c, d] := by
  decide +kernel

theorem flatMap_byteSymbols_symbolsBytes {l : List (BitVec 2)} (h : l.length % 4 = 0) :
    (symbolsBytes l).flatMap byteSymbols = l := by
  induction l using symbolsBytes.induct with
  | case1 a b c d rest ih =>
    have hrest : rest.length % 4 = 0 := by simp only [List.length_cons] at h; omega
    simp [symbolsBytes, byteSymbols_symbolsByte, ih hrest]
  | case2 l hshort =>
    match l, hshort, h with
    | [], _, _ => rfl
    | a :: b :: c :: d :: rest, hshort, _ => exact (hshort a b c d rest rfl).elim

theorem length_flatMap_byteSymbols (l : List Byte) : (l.flatMap byteSymbols).length = 4 * l.length := by
  induction l with
  | nil => rfl
  | cons x l ih => rw [List.flatMap_cons, List.length_append, ih, List.length_cons]; simp [byteSymbols]; omega

/-- The symbol at position `k` stands in byte `k / 4`, the first of its four at the top. -/
theorem getD_flatMap_byteSymbols (l : List Byte) (k : Nat) :
    (l.flatMap byteSymbols).getD k 0#2 = (l.getD (k / 4) 0#8 >>> (6 - 2 * (k % 4))).setWidth 2 := by
  induction l generalizing k with
  | nil => simp
  | cons x l ih =>
    match k with
    | 0 | 1 | 2 | 3 => exact BitVec.setWidth_ushiftRight_eq_extractLsb.symm
    | k + 4 => simpa [byteSymbols] using ih k

/-! ### The permutation of a block (R147, R148, R150) -/

theorem ilvTarget_eq (v : IlvVariant) (i : Nat) :
    ilvTarget v i = if v = .formula then 15 - 4 * (i % 4) - i / 4 else 4 * (i % 4) + i / 4 := by
  cases v <;> rfl

theorem ilvTarget_lt (v : IlvVariant) {i : Nat} (h : i < 16) : ilvTarget v i < 16 := by
  cases v <;> simp only [ilvTarget] <;> omega

/-- The table is its own inverse (R150). -/
theorem ilvTarget_ilvTarget (v : IlvVariant) {i : Nat} (h : i < 16) : ilvTarget v (ilvTarget v i) = i := by
  cases v <;> simp only [ilvTarget] <;> omega

/-- The table being its own inverse, each position receives the symbol at its own target. -/
theorem permuteSymbols_eq_map (v : IlvVariant) (src : List (BitVec 2)) :
    permuteSymbols v src = (List.range 16).map fun k => src.getD (ilvTarget v k) 0#2 := by
  cases v <;> rfl

@[simp] theorem length_permuteSymbols (v : IlvVariant) (src : List (BitVec 2)) :
    (permuteSymbols v src).length = 16 := by
  rw [permuteSymbols_eq_map, List.length_map, List.length_range]

theorem getD_permuteSymbols (v : IlvVariant) (src : List (BitVec 2)) {k : Nat} (hk : k < 16) :
    (permuteSymbols v src).getD k 0#2 = src.getD (ilvTarget v k) 0#2 := by
  simp [permuteSymbols_eq_map, hk]

theorem permuteSymbols_permuteSymbols (v : IlvVariant) {src : List (BitVec 2)} (h : src.length = 16) :
    permuteSymbols v (permuteSymbols v src) = src := by
  refine List.ext_getElem (by simp [h]) fun k hk hk' => ?_
  have hk16 : k < 16 := h ▸ hk'
  rw [← List.getD_eq_getElem _ 0#2 hk, getD_permuteSymbols v _ hk16, getD_permuteSymbols v _ (ilvTarget_lt v hk16),
    ilvTarget_ilvTarget v hk16, List.getD_eq_getElem _ _ hk']

/-! ### Blocks and byte sequences (R148) -/

/-- The symbols of an interleaved block are the block's own, permuted. -/
theorem flatMap_byteSymbols_ilvBlock (v : IlvVariant) (block : List Byte) :
    (ilvBlock v block).flatMap byteSymbols = permuteSymbols v (block.flatMap byteSymbols) :=
  flatMap_byteSymbols_symbolsBytes (by rw [length_permuteSymbols])

theorem ilvBlock_ilvBlock (v : IlvVariant) {block : List Byte} (h : block.length = 4) :
    ilvBlock v (ilvBlock v block) = block := by
  rw [ilvBlock, flatMap_byteSymbols_ilvBlock, permuteSymbols_permuteSymbols v (by rw [length_flatMap_byteSymbols, h]),
    symbolsBytes_flatMap_byteSymbols]

theorem ilv_append {block : List Byte} (h : block.length = 4) (v : IlvVariant) (rest : List Byte) :
    ilv v (block ++ rest) = ilvBlock v block ++ ilv v rest := by
  match block, h with
  | [_, _, _, _], _ => rfl

/-- Interleaving is its own inverse; the bytes past the last whole block are kept. -/
theorem ilv_ilv (v : IlvVariant) (l : List Byte) : ilv v (ilv v l) = l := by
  induction l using ilv.induct with
  | case1 x0 x1 x2 x3 rest ih =>
    calc ilv v (ilv v (x0 :: x1 :: x2 :: x3 :: rest))
        = ilv v (ilvBlock v [x0, x1, x2, x3] ++ ilv v rest) := rfl
      _ = ilvBlock v (ilvBlock v [x0, x1, x2, x3]) ++ ilv v (ilv v rest) := ilv_append (length_ilvBlock v _ _ _ _) v _
      _ = x0 :: x1 :: x2 :: x3 :: rest := by rw [ilvBlock_ilvBlock v rfl, ih]; rfl
  | case2 short h =>
    have hkept : ilv v short = short := by rw [ilv]; exact h
    rw [hkept, hkept]

/-- Settles O41: each block is permuted by a table that is its own inverse. -/
theorem interleavingIsAnInvolution : Obligations.InterleavingIsAnInvolution := fun v bytes _ => ilv_ilv v bytes

/-- `ilv` moves the symbol at position `i` of each whole block to position `ILV_TARGET[i]` of that block. -/
theorem getD_flatMap_byteSymbols_ilv (v : IlvVariant) {l : List Byte} {B i : Nat} (hB : B < l.length / 4)
    (hi : i < 16) :
    ((ilv v l).flatMap byteSymbols).getD (16 * B + ilvTarget v i) 0#2 =
      (l.flatMap byteSymbols).getD (16 * B + i) 0#2 := by
  induction l using ilv.induct generalizing B with
  | case1 x0 x1 x2 x3 rest ih =>
    have hsplit : x0 :: x1 :: x2 :: x3 :: rest = [x0, x1, x2, x3] ++ rest := rfl
    have hlen : ([x0, x1, x2, x3].flatMap byteSymbols).length = 16 := rfl
    have ht : ilvTarget v i < 16 := ilvTarget_lt v hi
    rw [hsplit, ilv_append rfl, List.flatMap_append, List.flatMap_append, flatMap_byteSymbols_ilvBlock]
    cases B with
    | zero =>
      rw [Nat.mul_zero, Nat.zero_add, Nat.zero_add, List.getD_append _ _ _ _ (by simpa using ht),
        List.getD_append _ _ _ _ (by rwa [hlen]), getD_permuteSymbols v _ ht, ilvTarget_ilvTarget v hi]
    | succ B =>
      have hB' : B < rest.length / 4 := by simp only [List.length_cons] at hB; omega
      have hsub (j : Nat) : 16 * (B + 1) + j - 16 = 16 * B + j := by omega
      rw [List.getD_append_right _ _ _ _ (by rw [length_permuteSymbols]; omega),
        List.getD_append_right _ _ _ _ (by rw [hlen]; omega), length_permuteSymbols, hlen, hsub, hsub, ih hB']
  | case2 short h =>
    match short, h, hB with
    | [], _, hB | [_], _, hB | [_, _], _, hB | [_, _, _], _, hB => simp at hB
    | x0 :: x1 :: x2 :: x3 :: rest, h, _ => exact (h x0 x1 x2 x3 rest rfl).elim

/-! ### ILV (R149) -/

/-- The symbol of a block of a buffer, read off the list of the bytes it begins with. -/
theorem State.blockSymbol_eq_getD {s : State} {b : BufId} {l : List Byte} {B i : Nat}
    (hl : ∀ j, j < l.length → s.byteAt b j = l.getD j 0#8) (hB : B < l.length / 4) (hi : i < 16) :
    s.blockSymbol b B i = (l.flatMap byteSymbols).getD (16 * B + i) 0#2 := by
  have hdiv : (16 * B + i) / 4 = 4 * B + i / 4 := by omega
  have hmod : (16 * B + i) % 4 = i % 4 := by omega
  rw [State.blockSymbol, hl _ (by omega), getD_flatMap_byteSymbols, hdiv, hmod]

/-- What ILV leaves in each byte of its buffer: the first `x[0] / 8` are interleaved (R149). -/
theorem ilvEffect_byteAt {sb : BufId} {s : State} (h : (s.buf sb).mem.wf) (j : Nat) :
    ((commandEffect (.ilv sb) s).apply s).byteAt sb j =
      if j < s.a0 / 8 then (ilv s.params.ilvVariant (s.bytes sb (s.a0 / 8))).getD j 0#8 else s.byteAt sb j := by
  rw [commandEffect, inPlaceEffect_byteAt_zero h, length_ilv, State.length_bytes]

/-- Settles O40: ILV writes in place, below `x[0]` bits, the bytes with each block interleaved. -/
theorem ilvPermutesTheSymbols : Obligations.IlvPermutesTheSymbols := by
  intro sb s hs
  dsimp only
  refine ⟨(decode_eq_ok_iff _ _).2 (by cases sb <;> rfl), fun hmod => rejects_of_check_fails ?_,
    fun hmod hlt => rejects_of_check_fails ?_, fun hmod hle => ?_⟩
  · simp [commandChecks, State.a0, hmod]
  · simp [commandChecks, State.bitsInside, State.a0, hmod, Nat.not_le.2 hlt]
  · have hc : firstFailure (commandChecks (.ilv sb) s) = none := by
      simp [commandChecks, State.bitsInside, State.a0, hmod, hle]
    have hbyte := ilvEffect_byteAt (hs.memWf sb)
    refine ⟨_, exec_eq_effect hc, fun B i hB hi => ?_, fun j hj => ?_, inPlaceEffect_blen s sb _ _ sb,
      Effect.apply_bord s _ sb, fun b hb => inPlaceEffect_sameBuffer s sb _ _ hb, inPlaceEffect_okFrame s sb _ _⟩
    · have hblock : B < (s.bytes sb (s.a0 / 8)).length / 4 := by rw [State.length_bytes, State.a0]; omega
      have hbefore : ∀ j, j < (s.bytes sb (s.a0 / 8)).length → s.byteAt sb j = (s.bytes sb (s.a0 / 8)).getD j 0#8 :=
        fun j hj => by rw [State.getD_bytes, if_pos (by simpa using hj)]
      have hafter : ∀ j, j < (ilv s.params.ilvVariant (s.bytes sb (s.a0 / 8))).length →
          ((commandEffect (.ilv sb) s).apply s).byteAt sb j =
            (ilv s.params.ilvVariant (s.bytes sb (s.a0 / 8))).getD j 0#8 :=
        fun j hj => (hbyte j).trans (if_pos (by simpa using hj))
      rw [← ilvTarget_eq, State.blockSymbol_eq_getD hafter (by rwa [length_ilv]) (ilvTarget_lt _ hi),
        State.blockSymbol_eq_getD hbefore hblock hi, getD_flatMap_byteSymbols_ilv _ hblock hi]
    · exact (hbyte j).trans (if_neg (Nat.not_lt.2 hj))

end Sys2Proof.Machine
end

section
/-! FCS32, FCSCHK and FCSAPP (R161 to R163), and a CRC in two parts (R158). -/

namespace Sys2Proof.Machine

/-! ### Seeds (R158) -/

@[simp] theorem fcs32_nil (seed : Word) : fcs32 seed [] = seed := by simp [fcs32]

/-- The complement on exit is undone by the complement on the next entry (R158). -/
theorem fcs32_append (seed : Word) (a b : List Byte) : fcs32 seed (a ++ b) = fcs32 (fcs32 seed a) b := by
  simp [fcs32]

/-- Settles O45: the complement between the two parts cancels. -/
theorem fcs32ChainsThroughItsSeed : Obligations.Fcs32ChainsThroughItsSeed :=
  fun seed a b => ⟨(fcs32_append seed a b).symm, fcs32_nil seed⟩

/-! ### The commands -/

theorem State.bytesInside_iff (s : State) (b : BufId) (n : Nat) : s.bytesInside b n = true ↔ 8 * n ≤ s.blen b :=
  decide_eq_true_iff

/-- Settles O42: FCS32 has one check and one result. -/
theorem fcs32ComputesTheCrc : Obligations.Fcs32ComputesTheCrc := by
  intro sb s
  refine ⟨(decode_eq_ok_iff _ _).2 (by cases sb <;> rfl), fun hlt => rejects_of_check_fails ?_,
    fun hle => exec_result ?_ rfl⟩
  · simp [commandChecks, State.bytesInside_iff, State.a0, Nat.not_le.2 hlt]
  · simp [commandChecks, State.bytesInside_iff, State.a0, hle]

/-- Settles O43: FCSCHK has one check and one result, the verdict as a word. -/
theorem fcschkReportsTheVerdict : Obligations.FcschkReportsTheVerdict := by
  intro sb s
  have hverdict (good : Bool) : BitVec.ofNat 32 good.toNat = if good then 1#32 else 0#32 := by cases good <;> rfl
  refine ⟨(decode_eq_ok_iff _ _).2 (by cases sb <;> rfl), fun hlt => rejects_of_check_fails ?_,
    fun hle => exec_result ?_ (congrArg resultEffect (hverdict _))⟩
  · simp [commandChecks, State.bytesInside_iff, State.a0, Nat.not_le.2 hlt]
  · simp [commandChecks, State.bytesInside_iff, State.a0, hle]

/-- Byte `i` of a word, least significant first (R51). -/
theorem getD_wordBytes (v : Word) {i : Nat} (hi : i < 4) :
    (wordBytes v).getD i 0#8 = (v >>> (8 * i)).setWidth 8 := by
  match i, hi with
  | 0, _ | 1, _ | 2, _ | 3, _ => exact BitVec.setWidth_ushiftRight_eq_extractLsb.symm

/-- What FCSAPP leaves in each byte of its buffer: the trailer stands after the first `x[0]` (R163). -/
theorem fcsappEffect_byteAt {sb : BufId} {s : State} (h : (s.buf sb).mem.wf) (j : Nat) :
    ((commandEffect (.fcsapp sb) s).apply s).byteAt sb j =
      if s.a0 ≤ j ∧ j < s.a0 + 4 then (fcs32Trailer (s.bytes sb s.a0)).getD (j - s.a0) 0#8 else s.byteAt sb j := by
  simp [commandEffect, Effect.apply, State.writeBuf, State.writeFsm, State.writeBytes_byteAt h]

/-- What FCSAPP leaves as the length of its buffer, if a word holds it (R163). -/
theorem fcsappEffect_blen (sb : BufId) {s : State} (h : 8 * (s.a0 + 4) < 2 ^ 32) :
    ((commandEffect (.fcsapp sb) s).apply s).blen sb = 8 * (s.a0 + 4) := by
  simpa [commandEffect, Effect.apply, State.writeBuf, State.writeFsm, State.setLen_blen] using h

/-- The result of FCSAPP is the FCS of its data (R163). -/
theorem fcsappEffect_x (sb : BufId) (s : State) :
    ((commandEffect (.fcsapp sb) s).apply s).x 4 = fcsOf (s.bytes sb s.a0) := by
  simp [commandEffect, Effect.apply]

/-- Settles O44: FCSAPP has two checks on its capacity, and writes the trailer in place after the data. -/
theorem fcsappAppendsTheTrailer : Obligations.FcsappAppendsTheTrailer := by
  intro sb s hs
  dsimp only
  refine ⟨(decode_eq_ok_iff _ _).2 (by cases sb <;> rfl), fun hlt => rejects_of_check_fails ?_,
    fun hle hcap => rejects_of_check_fails ?_, fun hle hcap => ?_⟩
  · simp [commandChecks, State.bytesInside_iff, State.a0, Nat.not_le.2 hlt]
  · simp [commandChecks, State.bytesInside_iff, State.fits_iff, State.a0, hle, Nat.not_le.2 hcap]
  · have hc : firstFailure (commandChecks (.fcsapp sb) s) = none := by
      simp [commandChecks, State.bytesInside_iff, State.fits_iff, State.a0, hle, hcap]
    have hword : 8 * (s.a0 + 4) < 2 ^ 32 := by
      have := s.params.cap_hi
      rw [State.a0]
      omega
    have hbyte := fcsappEffect_byteAt (hs.memWf sb)
    refine ⟨_, exec_eq_effect hc, ?_, fun i hi => ?_, fun j hj => ?_, fcsappEffect_blen sb hword,
      Effect.apply_bord s _ sb, fun b hb => .of_buf (Effect.apply_buf_of_ne s ?_),
      Effect.apply_success_okFrame s _ [(4, _)]⟩
    · rw [fcsappEffect_x, fcsOf, fcsCover, State.length_bytes]
      rfl
    · rw [fcsappEffect_x, ← getD_wordBytes _ hi]
      exact (hbyte _).trans (by simp [State.a0, hi, fcs32Trailer])
    · exact (hbyte j).trans (if_neg (by rw [State.a0]; omega))
    · simpa [commandEffect, Effect.dest] using hb.symm

end Sys2Proof.Machine
end

section
/-! The CRC as arithmetic of bits (R155 to R157): a bit step is linear and loses nothing, a byte is eight bit steps and
a word is 32, so no two words and no two bytes give one CRC. -/

namespace Sys2Proof.Machine

/-! ### Bit steps (R155) -/

/-- A bit step shifts, and adds the polynomial if a 1 was shifted out (R155). -/
theorem crcBitStep_eq (c : Word) : crcBitStep c = c >>> 1 ^^^ if c.getLsbD 0 then 0xEDB88320#32 else 0#32 := by
  unfold crcBitStep
  split <;> simp

/-- A bit step is linear. -/
theorem crcBitStep_xor (a b : Word) : crcBitStep (a ^^^ b) = crcBitStep a ^^^ crcBitStep b := by
  have hpoly (p q : Bool) : (if p ^^ q then 0xEDB88320#32 else 0#32) =
      (if p then 0xEDB88320#32 else 0#32) ^^^ if q then 0xEDB88320#32 else 0#32 := by
    cases p <;> cases q <;> rfl
  rw [crcBitStep_eq, crcBitStep_eq, crcBitStep_eq, BitVec.ushiftRight_xor_distrib, BitVec.getLsbD_xor, hpoly]
  ac_rfl

/-- Bit 31 of the result is the bit shifted out: the polynomial has its bit 31 set. -/
theorem getLsbD_crcBitStep_last (c : Word) : (crcBitStep c).getLsbD 31 = c.getLsbD 0 := by
  rw [crcBitStep_eq, BitVec.getLsbD_xor, BitVec.getLsbD_ushiftRight, BitVec.getLsbD_of_ge c _ (by decide)]
  cases c.getLsbD 0 <;> rfl

/-- A bit step loses nothing: the result tells the bit shifted out, and so the 31 others. -/
theorem crcBitStep_injective : Function.Injective crcBitStep := by
  intro a b h
  have hlow : a.getLsbD 0 = b.getLsbD 0 := by rw [← getLsbD_crcBitStep_last, h, getLsbD_crcBitStep_last]
  have hhigh : a >>> 1 = b >>> 1 := by
    rw [crcBitStep_eq, crcBitStep_eq, hlow] at h
    exact (BitVec.xor_left_inj _).1 h
  refine BitVec.eq_of_getLsbD_eq fun i _ => ?_
  cases i with
  | zero => exact hlow
  | succ i => simpa [Nat.add_comm 1 i] using congrArg (·.getLsbD i) hhigh

theorem crcBitSteps_xor (n : Nat) (a b : Word) : crcBitSteps n (a ^^^ b) = crcBitSteps n a ^^^ crcBitSteps n b := by
  induction n generalizing a b with
  | zero => rfl
  | succ n ih => simp only [crcBitSteps, crcBitStep_xor, ih]

theorem crcBitSteps_add (m n : Nat) (c : Word) : crcBitSteps (m + n) c = crcBitSteps m (crcBitSteps n c) := by
  induction n generalizing c with
  | zero => rfl
  | succ n ih => exact ih _

theorem crcBitSteps_injective (n : Nat) : Function.Injective (crcBitSteps n) := by
  induction n with
  | zero => exact fun _ _ h => h
  | succ n ih => exact ih.comp crcBitStep_injective

/-- Bit steps that shift out zeros only shift. -/
theorem crcBitSteps_of_low_zero {n : Nat} {c : Word} (h : ∀ i, i < n → c.getLsbD i = false) :
    crcBitSteps n c = c >>> n := by
  induction n generalizing c with
  | zero => exact (BitVec.ushiftRight_zero c).symm
  | succ n ih =>
    have hstep : crcBitStep c = c >>> 1 := by rw [crcBitStep_eq, h 0 n.succ_pos]; exact BitVec.xor_zero
    rw [crcBitSteps, hstep, ih fun i hi => by rw [BitVec.getLsbD_ushiftRight]; exact h _ (by omega),
      ← BitVec.shiftRight_add, Nat.add_comm]

/-! ### Bytes (R157) -/

/-- Eight bit steps look the low byte up in the table and shift the others down. -/
theorem crcBitSteps_eight (c : Word) : crcBitSteps 8 c = crcTable (c.setWidth 8) ^^^ c >>> 8 := by
  have hsplit : c = (c.setWidth 8).setWidth 32 ^^^ c >>> 8 <<< 8 := by
    refine BitVec.eq_of_getLsbD_eq fun i hi => ?_
    by_cases h : i < 8
    · simp [h, hi]
    · simp [h, hi, Nat.add_sub_cancel' (Nat.not_lt.1 h)]
  have hhigh : crcBitSteps 8 (c >>> 8 <<< 8) = c >>> 8 := by
    rw [crcBitSteps_of_low_zero fun i hi => by simp [hi]]
    refine BitVec.eq_of_getLsbD_eq fun i hi => ?_
    by_cases h : 8 + i < 32
    · simp [h]
    · simp [h, BitVec.getLsbD_of_ge c (8 + i) (by omega)]
  calc crcBitSteps 8 c
      = crcBitSteps 8 ((c.setWidth 8).setWidth 32 ^^^ c >>> 8 <<< 8) := congrArg _ hsplit
    _ = crcTable (c.setWidth 8) ^^^ c >>> 8 := by rw [crcBitSteps_xor, hhigh, crcTable]

/-- A byte of input, with more bits of a word above it, is added to the register before eight bit steps (R157). -/
theorem crcStep_low_byte (c w : Word) : crcStep c (w.setWidth 8) ^^^ w >>> 8 = crcBitSteps 8 (c ^^^ w) := by
  have hlow : (c ^^^ (w.setWidth 8).setWidth 32).setWidth 8 = (c ^^^ w).setWidth 8 := by
    rw [BitVec.setWidth_xor, BitVec.setWidth_xor, BitVec.setWidth_setWidth_of_le _ (by decide), BitVec.setWidth_eq]
  rw [crcBitSteps_eight, crcStep, hlow, BitVec.ushiftRight_xor_distrib, BitVec.xor_assoc]

/-- A byte is added to the register before eight bit steps (R157). -/
theorem crcStep_eq (c : Word) (x : Byte) : crcStep c x = crcBitSteps 8 (c ^^^ x.setWidth 32) := by
  have hbyte : (x.setWidth 32).setWidth 8 = x := by simp
  have hnone : x.setWidth 32 >>> 8 = 0#32 := BitVec.eq_of_getLsbD_eq fun i hi => by simp
  rw [← crcStep_low_byte, hbyte, hnone, BitVec.xor_zero]

/-- A byte of input, with more bits of a word above it, before further bit steps. -/
theorem crcBitSteps_add_eight (n : Nat) (c w : Word) :
    crcBitSteps (n + 8) (c ^^^ w) = crcBitSteps n (crcStep c (w.setWidth 8) ^^^ w >>> 8) := by
  rw [crcBitSteps_add, crcStep_low_byte]

/-- The four bytes of a word are added to the register before 32 bit steps. -/
theorem foldl_crcStep_wordBytes (c w : Word) : (wordBytes w).foldl crcStep c = crcBitSteps 32 (c ^^^ w) := by
  have hbytes : wordBytes w = [w.setWidth 8, (w >>> 8).setWidth 8, (w >>> 16).setWidth 8, (w >>> 24).setWidth 8] := by
    simp only [BitVec.setWidth_ushiftRight_eq_extractLsb]
    rfl
  have hdone : w >>> 32 = 0#32 := BitVec.eq_of_getLsbD_eq fun i hi => by simp
  rw [hbytes, crcBitSteps_add_eight 24, crcBitSteps_add_eight 16, crcBitSteps_add_eight 8, crcBitSteps_add_eight 0]
  simp only [← BitVec.shiftRight_add, Nat.reduceAdd, hdone, BitVec.xor_zero]
  rfl

theorem crcStep_left_injective (x : Byte) : Function.Injective (crcStep · x) := by
  intro c d h
  simp only [crcStep_eq] at h
  exact (BitVec.xor_left_inj _).1 (crcBitSteps_injective 8 h)

theorem crcStep_right_injective (c : Word) : Function.Injective (crcStep c) := by
  intro x y h
  rw [crcStep_eq, crcStep_eq] at h
  have hxy := congrArg (BitVec.setWidth 8) ((BitVec.xor_right_inj _).1 (crcBitSteps_injective 8 h))
  simpa using hxy

theorem foldl_crcStep_injective (l : List Byte) : Function.Injective (l.foldl crcStep) := by
  induction l with
  | nil => exact fun _ _ h => h
  | cons x l ih => exact ih.comp (crcStep_left_injective x)

/-! ### The CRC (R157) -/

/-- Sequences that differ in one byte have different CRCs (R164). -/
theorem fcs32_byte_injective (seed : Word) (u v : List Byte) :
    Function.Injective fun x => fcs32 seed (u ++ x :: v) := by
  intro x y h
  simp only [fcs32_append] at h
  exact crcStep_right_injective _ (foldl_crcStep_injective v ((BitVec.xor_left_inj _).1 h))

end Sys2Proof.Machine
end

section
/-! Good payloads (R159, R160, R164). -/

namespace Sys2Proof.Machine

/-! ### Four bytes after a CRC (R159) -/

/-- The bytes of a word in stream order are its bits, bit 0 first (R9, R51). -/
theorem streamBits_wordBytes (w : Word) : streamBits (wordBytes w) = bitsOfWord w :=
  calc streamBits (wordBytes w)
      = bitsOfWord (w.extractLsb' 0 8) ++ (bitsOfWord (w.extractLsb' 8 8) ++ (bitsOfWord (w.extractLsb' 16 8) ++
          bitsOfWord (w.extractLsb' 24 8))) := by simp [wordBytes]
    _ = (List.range (8 + (8 + (8 + 8)))).map w.getLsbD := by
      simp only [bitsOfWord_extractLsb', List.range_add, List.map_append, List.map_map, Nat.zero_add]
      rfl

/-- Every four bytes are those of a word (R51). -/
theorem exists_wordBytes_eq {t : List Byte} (h : t.length = 4) : ∃ w, wordBytes w = t := by
  refine ⟨wordOfBits 32 (streamBits t), ?_⟩
  rw [← pack_streamBits (wordBytes _), streamBits_wordBytes, bitsOfWord_wordOfBits (by simp [h]), pack_streamBits]

/-- The CRC of a word seeded with a CRC, as 32 bit steps. -/
theorem fcs32_wordBytes (seed w : Word) :
    fcs32 seed (wordBytes w) = crcBitSteps 32 (seed ^^^ crcFinal ^^^ w) ^^^ crcFinal := by
  rw [fcs32, foldl_crcStep_wordBytes]

/-- The CRC of a CRC's own bytes is the good-frame constant, whatever the CRC (R156, R159). -/
theorem fcs32_wordBytes_self (crc : Word) : fcs32 crc (wordBytes crc) = fcsGoodConst := by
  have hcancel : crc ^^^ crcFinal ^^^ crc = crcFinal := by
    rw [BitVec.xor_comm crc, BitVec.xor_assoc, BitVec.xor_self, BitVec.xor_zero]
  rw [fcs32_wordBytes, hcancel]
  decide +kernel

/-- No other word's bytes give the good-frame constant. -/
theorem fcs32_wordBytes_eq_good_iff {crc w : Word} : fcs32 crc (wordBytes w) = fcsGoodConst ↔ w = crc := by
  refine ⟨fun h => ?_, fun h => h ▸ fcs32_wordBytes_self w⟩
  rw [← fcs32_wordBytes_self crc, fcs32_wordBytes, fcs32_wordBytes] at h
  exact (BitVec.xor_right_inj _).1 (crcBitSteps_injective 32 ((BitVec.xor_left_inj _).1 h))

/-! ### The test (R160) -/

theorem fcs32IsGood_of_length_le {l : List Byte} (h : l.length ≤ 4) : fcs32IsGood l = false := by
  simp [fcs32IsGood, h]

/-- The test computes the CRC of the cover of the data, then the last four bytes: for short data the cover puts them at
offset 4 (R160). -/
theorem fcs32IsGood_append {data t : List Byte} (hdata : data ≠ []) (ht : t.length = 4) :
    fcs32IsGood (data ++ t) = (fcs32 0#32 (fcsCover data ++ t) == fcsGoodConst) := by
  have hpos : 0 < data.length := List.length_pos_iff.2 hdata
  have hlen : (data ++ t).length = data.length + 4 := by rw [List.length_append, ht]
  simp only [fcs32IsGood, hlen, fcsCover]
  rw [if_neg (by omega)]
  split
  · rw [Nat.add_sub_cancel, List.take_left, List.drop_left, Nat.add_comm data.length 4, ← Nat.sub_sub]
  · next hlong =>
    rw [Nat.sub_eq_zero_of_le (by omega), List.replicate_zero, List.append_nil]

/-- Data and the bytes of a word are a good payload exactly when the word is the FCS of the data (R164). -/
theorem fcs32IsGood_append_wordBytes_iff {data : List Byte} (hdata : data ≠ []) (w : Word) :
    fcs32IsGood (data ++ wordBytes w) = true ↔ w = fcsOf data := by
  rw [fcs32IsGood_append hdata (length_wordBytes w), beq_iff_eq, fcs32_append]
  exact fcs32_wordBytes_eq_good_iff

/-- Settles O46: the trailer is the bytes of the FCS, and four bytes are those of a word. -/
theorem theTrailerIsTheOnlyGoodOne : Obligations.TheTrailerIsTheOnlyGoodOne := by
  intro data trailer hdata hlen
  obtain ⟨w, rfl⟩ := exists_wordBytes_eq hlen
  have hgood := fcs32IsGood_append_wordBytes_iff hdata
  exact ⟨fun h => congrArg wordBytes ((hgood w).1 h), fun h => h ▸ (hgood (fcsOf data)).2 rfl⟩

/-! ### One changed byte (R164) -/

/-- Whatever byte stands at one place of a payload, the test computes a CRC with that byte at one place (R160). -/
theorem exists_fcs32IsGood_eq {u v : List Byte} (h : 4 ≤ u.length + v.length) :
    ∃ u' v', ∀ x, fcs32IsGood (u ++ x :: v) = (fcs32 0#32 (u' ++ x :: v') == fcsGoodConst) := by
  by_cases hv : 4 ≤ v.length
  case pos =>
    obtain ⟨v, t, rfl, ht⟩ : ∃ v₁ t, v = v₁ ++ t ∧ t.length = 4 :=
      ⟨v.take (v.length - 4), v.drop (v.length - 4), (List.take_append_drop ..).symm, by simp; omega⟩
    refine ⟨u, v ++ List.replicate (4 - (u.length + (v.length + 1))) 0#8 ++ t, fun x => ?_⟩
    have hsplit : u ++ x :: (v ++ t) = u ++ x :: v ++ t := by simp
    rw [hsplit, fcs32IsGood_append (by simp) ht, fcsCover]
    simp
  case neg =>
    obtain ⟨data, t, rfl, ht⟩ : ∃ data t, u = data ++ t ∧ t.length = 3 - v.length :=
      ⟨u.take (u.length - (3 - v.length)), u.drop (u.length - (3 - v.length)), (List.take_append_drop ..).symm,
        by simp; omega⟩
    have hdata : data ≠ [] := by
      rintro rfl
      rw [List.nil_append, ht] at h
      omega
    refine ⟨fcsCover data ++ t, v, fun x => ?_⟩
    rw [List.append_assoc, fcs32IsGood_append hdata (by simp; omega), List.append_assoc]

/-- A good payload is not good with another byte in any one place. -/
theorem fcs32IsGood_byte_unique {u v : List Byte} {x y : Byte} (hx : fcs32IsGood (u ++ x :: v) = true)
    (hy : fcs32IsGood (u ++ y :: v) = true) : x = y := by
  have hlen : 4 ≤ u.length + v.length := by
    by_contra hshort
    rw [fcs32IsGood_of_length_le (by simp; omega)] at hx
    simp at hx
  obtain ⟨u', v', hgood⟩ := exists_fcs32IsGood_eq hlen
  rw [hgood, beq_iff_eq] at hx hy
  exact fcs32_byte_injective _ u' v' (hx.trans hy.symm)

/-- Settles O47: a flipped bit changes one byte. -/
theorem oneFlippedBitIsDetected : Obligations.OneFlippedBitIsDetected := by
  intro u v x k hk hgood
  have hchanged : x ≠ x ^^^ 1#8 <<< k := by
    intro h
    have hbit := congrArg (·.getLsbD k) h
    simp [hk] at hbit
  exact Bool.eq_false_iff.2 fun hflipped => hchanged (fcs32IsGood_byte_unique hgood hflipped)

end Sys2Proof.Machine
end

section
/-! The scan for a synchronisation header (R170 to R173). -/

namespace Sys2Proof.Machine

/-! ### Patterns in a stream -/

/-- The bits of a list stand at a place of a stream exactly when they are what is read from there. -/
theorem take_drop_eq_iff {S l : List Bool} {p : Nat} :
    (S.drop p).take l.length = l ↔ ∀ j, j < l.length → S[p + j]? = some (l.getD j false) := by
  constructor
  · intro h j hj
    rw [← List.getElem?_drop, ← List.getElem?_take_of_lt hj, h, List.getD_eq_getElem _ _ hj,
      List.getElem?_eq_getElem hj]
  · intro h
    refine List.ext_getElem? fun j => ?_
    by_cases hj : j < l.length
    · rw [List.getElem?_take_of_lt hj, List.getElem?_drop, h j hj, List.getD_eq_getElem _ _ hj,
        List.getElem?_eq_getElem hj]
    · rw [List.getElem?_take_eq_none (Nat.not_lt.1 hj), List.getElem?_eq_none (Nat.not_lt.1 hj)]

/-- At position `p` of `S` stand `r` preamble patterns, perhaps more (R170). -/
def PreambleAt (S : List Bool) (p r : Nat) : Prop := ∀ j, j < 8 * r → S[p + j]? = some (decide (j % 2 = 1))

theorem preambleAt_zero (S : List Bool) (p : Nat) : PreambleAt S p 0 := fun _ hj => absurd hj (Nat.not_lt_zero _)

/-- One more pattern is a pattern at the front, then the others (R170). -/
theorem preambleAt_succ {S : List Bool} {p r : Nat} :
    PreambleAt S p (r + 1) ↔ PreambleAt S p 1 ∧ PreambleAt S (p + 8) r := by
  constructor
  · intro h
    refine ⟨fun j hj => h j (by omega), fun j hj => ?_⟩
    have hbit := h (8 + j) (by omega)
    have hparity : (8 + j) % 2 = j % 2 := by omega
    rwa [← Nat.add_assoc, hparity] at hbit
  · rintro ⟨hfront, hrest⟩ j hj
    by_cases h8 : j < 8
    · exact hfront j h8
    · have hbit := hrest (j - 8) (by omega)
      have hplace : p + 8 + (j - 8) = p + j := by omega
      have hparity : (j - 8) % 2 = j % 2 := by omega
      rwa [hplace, hparity] at hbit

/-- A single pattern stands where the comparison of the scan finds it (R170). -/
theorem preambleAt_one_iff {S : List Bool} {p : Nat} : PreambleAt S p 1 ↔ (S.drop p).take 8 = pre := by
  have hbits : ∀ j, j < 8 → pre.getD j false = decide (j % 2 = 1) := by decide
  refine Iff.symm <| (take_drop_eq_iff (l := pre)).trans ?_
  exact forall₂_congr fun j hj => by rw [hbits j hj]

/-- No pattern stands past the end of the stream. -/
theorem not_preambleAt_one_of_length_le {S : List Bool} {p : Nat} (h : S.length ≤ p) : ¬ PreambleAt S p 1 := by
  intro hp
  have hbit := hp 0 (by decide)
  rw [List.getElem?_eq_none (by omega)] at hbit
  cases hbit

/-- The repeat count is `r` exactly when `r` patterns stand there and no further one follows: it is maximal (R173). -/
theorem preRun_eq_iff {S : List Bool} {fuel p r : Nat} (hfuel : S.length ≤ p + fuel) :
    preRun fuel (S.drop p) = r ↔ PreambleAt S p r ∧ ¬ PreambleAt S (p + 8 * r) 1 := by
  induction fuel generalizing p r with
  | zero =>
    have hnone : ¬ PreambleAt S p 1 := not_preambleAt_one_of_length_le hfuel
    cases r with
    | zero => simp [preRun, preambleAt_zero, hnone]
    | succ r => rw [preambleAt_succ (r := r)]; simp [preRun, hnone]
  | succ fuel ih =>
    by_cases hfront : PreambleAt S p 1
    · rw [preRun, if_pos (preambleAt_one_iff.1 hfront), List.drop_drop]
      cases r with
      | zero => simp [hfront]
      | succ r =>
        have hplace : p + 8 * (r + 1) = p + 8 + 8 * r := by omega
        rw [Nat.add_right_cancel_iff, ih (by omega), preambleAt_succ (r := r), hplace]
        simp only [hfront, true_and]
    · rw [preRun, if_neg (mt preambleAt_one_iff.2 hfront)]
      cases r with
      | zero => simp [preambleAt_zero, hfront]
      | succ r => rw [preambleAt_succ (r := r)]; simp [hfront]

/-- Different SfdTypes have different patterns (R172). -/
theorem sfdWord_injective (P : Params) : Function.Injective (sfdWord P) := by
  have hdistinct := P.sfd_distinct
  simp only [List.nodup_cons, List.mem_cons, not_or, List.not_mem_nil] at hdistinct
  intro k k' h
  cases k <;> cases k' <;> simp_all [sfdWord]

theorem sfdBits_inj {P : Params} {k k' : SfdType} : sfdBits P k = sfdBits P k' ↔ k = k' := by
  constructor
  · intro h
    refine sfdWord_injective P ?_
    rw [← wordOfBits_bitsOfWord (sfdWord P k), ← wordOfBits_bitsOfWord (sfdWord P k')]
    exact congrArg _ h
  · rintro rfl
    rfl

/-- 16 bits match the SfdType whose pattern they are (R173). -/
theorem sfdMatch_eq_some_iff {P : Params} {bits : List Bool} {k : SfdType} :
    sfdMatch P bits = some k ↔ bits = sfdBits P k := by
  constructor
  · intro h
    simpa using List.find?_some h
  · rintro rfl
    simp only [sfdMatch, beq_eq_decide, sfdBits_inj]
    cases k <;> rfl

/-- The SFD of a type stands where the comparison of the scan finds it (R172, R173). -/
theorem take_drop_eq_sfdBits_iff {P : Params} {S : List Bool} {p : Nat} {k : SfdType} :
    (S.drop p).take 16 = sfdBits P k ↔ ∀ j, j < 16 → S[p + j]? = some ((sfdWord P k).getLsbD j) := by
  have hiff := take_drop_eq_iff (S := S) (l := sfdBits P k) (p := p)
  simpa only [sfdBits, length_bitsOfWord, getD_bitsOfWord] using hiff

/-! ### One position (R173) -/

/-- A header found is one that stands at its start, with its maximal preamble and the index after its SFD (R173). -/
def Shr.StandsIn (P : Params) (S : List Bool) (h : Shr) : Prop :=
  ∃ r, ShrStandsAt P S h.start r h.kind ∧ h.plen = 8 * r ∧ h.after = h.start + 8 * r + 16

/-- A header stands at a position with the repeat count found there and no other, and its SFD follows (R173). -/
theorem shrStandsAt_iff {P : Params} {S : List Bool} {p r : Nat} {k : SfdType} :
    ShrStandsAt P S p r k ↔ 1 ≤ r ∧ preRun (S.drop p).length (S.drop p) = r ∧
      sfdMatch P (((S.drop p).drop (8 * r)).take 16) = some k := by
  have hfuel : S.length ≤ p + (S.drop p).length := by rw [List.length_drop]; omega
  rw [preRun_eq_iff hfuel, sfdMatch_eq_some_iff, List.drop_drop, take_drop_eq_sfdBits_iff, and_assoc]
  rfl

/-- The candidate at a position is the header that stands there (R173). -/
theorem shrAt_eq_some_iff {P : Params} {S : List Bool} {p : Nat} {h : Shr} :
    shrAt P p (S.drop p) = some h ↔ h.start = p ∧ h.StandsIn P S := by
  obtain ⟨start, plen, kind, after⟩ := h
  simp only [shrAt, Shr.StandsIn]
  constructor
  · intro hat
    split at hat
    · cases hat
    · next hpos =>
      split at hat
      · next k hk =>
        cases hat
        exact ⟨rfl, _, shrStandsAt_iff.2 ⟨Nat.pos_of_ne_zero hpos, rfl, hk⟩, rfl, rfl⟩
      · cases hat
  · rintro ⟨rfl, r, hstands, rfl, rfl⟩
    obtain ⟨hpos, hrun, hsfd⟩ := shrStandsAt_iff.1 hstands
    rw [hrun, if_neg (by omega), hsfd]

/-- There is no candidate at a position exactly when no header stands there (R173). -/
theorem shrAt_eq_none_iff {P : Params} {S : List Bool} {p : Nat} :
    shrAt P p (S.drop p) = none ↔ ∀ r k, ¬ ShrStandsAt P S p r k := by
  rw [Option.eq_none_iff_forall_ne_some]
  constructor
  · intro hnone r k hstands
    exact hnone ⟨p, 8 * r, k, p + 8 * r + 16⟩ (shrAt_eq_some_iff.2 ⟨rfl, r, hstands, rfl, rfl⟩)
  · rintro hnone h hat
    obtain ⟨rfl, r, hstands, -⟩ := shrAt_eq_some_iff.1 hat
    exact hnone r h.kind hstands

/-! ### The scan (R173) -/

/-- The scan answers the candidate at its start, or scans from the next position (R173). -/
theorem shrDetect_eq_or (P : Params) (S : List Bool) (p : Nat) :
    shrDetect P S p = (shrAt P p (S.drop p)).or (shrDetect P S (p + 1)) := by
  rw [shrDetect, shrDetect, ← List.drop_drop]
  cases S.drop p with
  | nil => rfl
  | cons b bits =>
    rw [shrScan]
    cases shrAt P p (b :: bits) <;> rfl

/-- From the end of the stream on the scan finds nothing (R173). -/
theorem shrDetect_of_length_le (P : Params) {S : List Bool} {p : Nat} (h : S.length ≤ p) : shrDetect P S p = none := by
  rw [shrDetect, List.drop_eq_nil_of_le h, shrScan]

/-- A header that stands in a stream ends in it. -/
theorem Shr.StandsIn.after_le {P : Params} {S : List Bool} {h : Shr} (hstands : h.StandsIn P S) :
    h.start + h.plen + 16 = h.after ∧ h.after ≤ S.length := by
  obtain ⟨r, ⟨-, -, -, hsfd⟩, hplen, hafter⟩ := hstands
  obtain ⟨hlast, -⟩ := List.getElem?_eq_some_iff.1 (hsfd 15 (by decide))
  omega

/-- The scan answers the header that stands first at or after its start (R173). -/
theorem shrDetect_eq_some_iff {P : Params} {S : List Bool} {p : Nat} {h : Shr} :
    shrDetect P S p = some h ↔ p ≤ h.start ∧ h.StandsIn P S ∧
      ∀ q, p ≤ q → q < h.start → ∀ r k, ¬ ShrStandsAt P S q r k := by
  induction hn : S.length - p generalizing p with
  | zero =>
    rw [shrDetect_of_length_le P (by omega)]
    refine iff_of_false (by simp) ?_
    rintro ⟨hle, hstands, -⟩
    have := hstands.after_le
    omega
  | succ n ih =>
    rw [shrDetect_eq_or, Option.or_eq_some_iff, ih (by omega), shrAt_eq_some_iff, shrAt_eq_none_iff]
    constructor
    · rintro (⟨rfl, hstands⟩ | ⟨hhere, hlt, hstands, hfirst⟩)
      · exact ⟨Nat.le_refl _, hstands, fun q hle hlt => absurd hle (Nat.not_le.2 hlt)⟩
      · refine ⟨Nat.le_of_succ_le hlt, hstands, fun q hle hq => ?_⟩
        obtain rfl | hpq := Nat.eq_or_lt_of_le hle
        · exact hhere
        · exact hfirst q hpq hq
    · rintro ⟨hle, hstands, hfirst⟩
      obtain heq | hlt := Nat.eq_or_lt_of_le hle
      · exact .inl ⟨heq.symm, hstands⟩
      · exact .inr ⟨hfirst p (Nat.le_refl p) hlt, hlt, hstands, fun q hpq => hfirst q (Nat.le_of_succ_le hpq)⟩

/-- The scan answers nothing exactly when no header stands at or after its start (R173). -/
theorem shrDetect_eq_none_iff {P : Params} {S : List Bool} {p : Nat} :
    shrDetect P S p = none ↔ ∀ q, p ≤ q → ∀ r k, ¬ ShrStandsAt P S q r k := by
  induction hn : S.length - p generalizing p with
  | zero =>
    refine iff_of_true (shrDetect_of_length_le P (by omega)) fun q hle r k hstands => ?_
    obtain ⟨-, hend⟩ := Shr.StandsIn.after_le (h := ⟨q, 8 * r, k, q + 8 * r + 16⟩) ⟨r, hstands, rfl, rfl⟩
    dsimp only at hend
    omega
  | succ n ih =>
    rw [shrDetect_eq_or, Option.or_eq_none_iff, ih (by omega), shrAt_eq_none_iff]
    constructor
    · rintro ⟨hhere, hlater⟩ q hle
      obtain rfl | hpq := Nat.eq_or_lt_of_le hle
      · exact hhere
      · exact hlater q hpq
    · exact fun hnone => ⟨hnone p (Nat.le_refl p), fun q hpq => hnone q (Nat.le_of_succ_le hpq)⟩

/-- Settles O48: the two answers of the scan; a start past the end would do as well. -/
theorem shrScanFindsTheFirstHeader : Obligations.ShrScanFindsTheFirstHeader :=
  fun _ _ _ _ => ⟨fun _ => shrDetect_eq_some_iff, shrDetect_eq_none_iff⟩

/-! ### SHRDET (R174) -/

/-- The stream of SHRDET is the buffer's bits under its tag (R48, R174). -/
theorem State.stream_eq_map_taggedBit (s : State) (b : BufId) :
    s.stream b = (List.range (s.blen b)).map (s.taggedBit b) := by
  simp [State.stream, State.rdBits, State.rdBit_eq_taggedBit]

/-- What SHRDET leaves when its scan finds a header whose end a word holds (R174). -/
theorem shrEffect_found (s : State) {h : Shr} (hplen : h.plen < 2 ^ 32) (hstart : h.start < 2 ^ 32)
    (hafter : h.after < 2 ^ 32) :
    let t := (shrEffect (some h)).apply s
    (t.x 4).toNat = h.plen ∧ t.x 5 = h.kind.code ∧ (t.x 6).toNat = h.after ∧ (t.x 7).toNat = h.start ∧
      t.fsm = 0x02#32 ∧ StatusOk s t ∧ SameRegsBut [4, 5, 6, 7] s t ∧ SameHostSide s t ∧ ∀ b, SameBuffer b s t := by
  refine ⟨?_, ?_, ?_, ?_, Effect.apply_fsm s _, StatusOk.succeed (by simp), fun i hi => ?_, Effect.apply_host s _,
    fun b => .of_buf (Effect.apply_buf_of_ne s (by simp [shrEffect, Effect.dest]))⟩
  · simpa [shrEffect, Effect.apply] using hplen
  · simp [shrEffect, Effect.apply]
  · simpa [shrEffect, Effect.apply] using hafter
  · simpa [shrEffect, Effect.apply] using hstart
  · simp only [List.mem_cons, not_or, List.not_mem_nil] at hi
    obtain ⟨h4, h5, h6, h7, -⟩ := hi
    simp [shrEffect, Effect.apply, Ne.symm h4, Ne.symm h5, Ne.symm h6, Ne.symm h7]

/-- Settles O49: SHRDET has one check, and its effect is read off what the scan of the tagged bits answers. -/
theorem shrdetReportsTheHeader : Obligations.ShrdetReportsTheHeader := by
  intro sb s
  dsimp only
  have runs {found : Option Shr} (hle : (s.x 0).toNat ≤ s.blen sb)
      (hscan : shrDetect s.params ((List.range (s.blen sb)).map (s.taggedBit sb)) (s.x 0).toNat = found) :
      exec (.shrdet sb) s = .next ((shrEffect found).apply s) := by
    have hc : firstFailure (commandChecks (.shrdet sb) s) = none := by
      simp [commandChecks, State.bitsInside_iff, State.a0, hle]
    rw [exec_eq_effect hc, commandEffect, State.stream_eq_map_taggedBit, State.a0, hscan]
  refine ⟨(decode_eq_ok_iff _ _).2 (by cases sb <;> rfl), fun hlt => rejects_of_check_fails ?_,
    fun h hle hscan => ⟨_, runs hle hscan, ?_⟩, fun hle hscan => ⟨_, runs hle hscan, ?_, Effect.apply_fsm s _⟩⟩
  · simp [commandChecks, State.bitsInside_iff, State.a0, Nat.not_le.2 hlt]
  · obtain ⟨-, hstands, -⟩ := shrDetect_eq_some_iff.1 hscan
    obtain ⟨hsum, hend⟩ := hstands.after_le
    have hword : s.blen sb < 2 ^ 32 := (s.buf sb).len.isLt
    rw [List.length_map, List.length_range] at hend
    exact shrEffect_found s (by omega) (by omega) (by omega)
  · exact Effect.apply_failure_failedInFlight s ..

end Sys2Proof.Machine
end

section
/-! The header word, PHRENC and PHRDEC (R175 to R180). -/

namespace Sys2Proof.Machine

/-! ### The fields of a header word (R175 to R178) -/

/-- The length mask keeps bits 0 to 10 (R178). -/
theorem getLsbD_and_lengthMask {w : Nat} (v : BitVec w) (j : Nat) :
    (v &&& BitVec.ofNat w 0x07FF).getLsbD j = (decide (j ≤ 10) && v.getLsbD j) := by
  have hmask : (0x07FF : Nat).testBit j = decide (j < 11) := Nat.testBit_two_pow_sub_one 11 j
  rw [BitVec.getLsbD_and, BitVec.getLsbD_ofNat, hmask]
  by_cases hj : j < w
  · simp [hj, Nat.lt_succ_iff, Bool.and_comm]
  · simp [BitVec.getLsbD_of_ge v j (Nat.not_lt.1 hj)]

/-- Reversing a header word mirrors its bits (R88). -/
theorem getLsbD_reverse16 (v : BitVec 16) (j : Nat) :
    (reverse16 v).getLsbD j = (decide (j < 16) && v.getLsbD (15 - j)) := by
  rw [reverse16, BitVec.getLsbD_reverse, BitVec.getMsbD_eq_getLsbD]

/-- Bits 0 to 10 of the length are bits 15 to 5 of the word (R178). -/
theorem testBit_phrDecode_L (H : BitVec 16) (j : Nat) :
    (phrDecode H).L.testBit j = (decide (j ≤ 10) && H.getLsbD (15 - j)) := by
  rw [phrDecode, BitVec.testBit_toNat, getLsbD_and_lengthMask, getLsbD_reverse16]
  by_cases hj : j ≤ 10
  · have hj16 : j < 16 := by omega
    simp [hj16]
  · simp [hj]

/-- A legal length has bits 0 to 10 only (R176). -/
theorem testBit_eq_false_of_le_2047 {L : Nat} (hL : L ≤ 2047) {j : Nat} (hj : 11 ≤ j) : L.testBit j = false :=
  Nat.testBit_lt_two_pow (Nat.lt_of_lt_of_le (Nat.lt_succ_of_le hL) (Nat.pow_le_pow_right (n := 2) (by decide) hj))

/-- The header word of a legal length: the flags below, the length mirrored above (R177). -/
theorem getLsbD_phrEncode {L : Nat} (hL : L ≤ 2047) (ms fcs dw : Bool) (k : Nat) :
    (phrEncode L ms fcs dw).getLsbD k =
      if k < 5 then [ms, false, false, fcs, dw].getD k false else decide (k < 16) && L.testBit (15 - k) := by
  rw [phrEncode, BitVec.getLsbD_or, getLsbD_wordOfBits, getLsbD_reverse16, BitVec.getLsbD_ofNat]
  split
  · next hk =>
    have hk16 : k < 16 := by omega
    simp [hk16, testBit_eq_false_of_le_2047 hL (show 11 ≤ 15 - k by omega)]
  · next hk =>
    rw [List.getD_eq_default _ _ (Nat.not_lt.1 hk)]
    have hmirror : 15 - k < 16 := by omega
    simp [hmirror]

/-- Decoding a header word gives the fields it was built from (R178). -/
theorem phrDecode_phrEncode {L : Nat} (hL : L ≤ 2047) (ms fcs dw : Bool) :
    phrDecode (phrEncode L ms fcs dw) = { L := L, ms := ms, fcs := fcs, dw := dw } := by
  have hbit := getLsbD_phrEncode hL ms fcs dw
  have hlen : (phrDecode (phrEncode L ms fcs dw)).L = L := by
    refine Nat.eq_of_testBit_eq fun j => ?_
    rw [testBit_phrDecode_L, hbit]
    by_cases hj : j ≤ 10
    · have hplace : 15 - (15 - j) = j := by omega
      have hfield : ¬ 15 - j < 5 := by omega
      have hword : 15 - j < 16 := by omega
      simp [hj, hplace, hfield, hword]
    · simp [hj, testBit_eq_false_of_le_2047 hL (Nat.lt_of_not_le hj)]
  calc phrDecode (phrEncode L ms fcs dw)
      = { L := (phrDecode (phrEncode L ms fcs dw)).L, ms := (phrEncode L ms fcs dw).getLsbD 0,
          fcs := (phrEncode L ms fcs dw).getLsbD 3, dw := (phrEncode L ms fcs dw).getLsbD 4 } := rfl
    _ = { L := L, ms := ms, fcs := fcs, dw := dw } := by rw [hlen, hbit, hbit, hbit]; rfl

/-- Settles O50: each field of a word and each bit of a built word has its place. -/
theorem headerFieldsRoundTrip : Obligations.HeaderFieldsRoundTrip := by
  refine ⟨fun H => ⟨testBit_phrDecode_L H, rfl, rfl, rfl⟩, fun L ms fcs dw hL => ?_⟩
  have hbit := getLsbD_phrEncode hL ms fcs dw
  refine ⟨phrDecode_phrEncode hL ms fcs dw, hbit 1, hbit 2, fun j hj => ?_⟩
  have hplace : 15 - (5 + j) = 10 - j := by omega
  have hword : 5 + j < 16 := by omega
  rw [hbit, if_neg (by omega), hplace, decide_eq_true hword, Bool.true_and]

/-! ### PHRENC (R179) -/

/-- The flags operand has no bit above the flags (R179). -/
theorem getLsbD_flags_eq_false {v : Word} (h : v &&& ~~~0x19#32 = 0#32) {k : Nat} (hk : 5 ≤ k) :
    v.getLsbD k = false := by
  by_cases hk32 : k < 32
  · have hflag : (0x19 : Nat).testBit k = false :=
      Nat.testBit_lt_two_pow (Nat.lt_of_lt_of_le (by decide) (Nat.pow_le_pow_right (by decide) hk))
    have hmask : (~~~0x19#32).getLsbD k = true := by
      simp only [BitVec.getLsbD_not, BitVec.getLsbD_ofNat, hk32, hflag]
      rfl
    have hbit := congrArg (·.getLsbD k) h
    simpa only [BitVec.getLsbD_and, hmask, Bool.and_true, BitVec.getLsbD_zero] using hbit
  · exact BitVec.getLsbD_of_ge v k (Nat.not_lt.1 hk32)

/-- The word PHRENC builds from legal operands: the flags below, the length mirrored above (R179). -/
theorem getLsbD_flags_or_reverseBits {L v : Word} (hL : L.toNat ≤ 2047) (hv : v &&& ~~~0x19#32 = 0#32) (k : Nat) :
    (v ||| reverseBits 16 L).getLsbD k =
      if k < 5 then v.getLsbD k else decide (k < 16) && L.getLsbD (15 - k) := by
  rw [BitVec.getLsbD_or, getLsbD_reverseBits (by decide)]
  split
  · next hk =>
    have habove : L.getLsbD (15 - k) = false := testBit_eq_false_of_le_2047 hL (by omega)
    simp [habove]
  · next hk => simp [getLsbD_flags_eq_false hv (Nat.not_lt.1 hk)]

/-- Which check of PHRENC fails first (R179). -/
theorem firstFailure_phrencChecks (s : State) :
    firstFailure (commandChecks .phrenc s) =
      if 2047 < (s.x 0).toNat then some .illegal else if s.x 1 &&& ~~~0x19#32 ≠ 0#32 then some .illegal
      else if (s.x 1).getLsbD 3 = true then some .unsupported else none := by
  simp only [commandChecks, firstFailure_cons, firstFailure_nil, decide_eq_true_eq, ne_eq, ← Nat.not_le, ite_not,
    Bool.not_eq_true', ← Bool.not_eq_true]
  rfl

/-- Settles O51: PHRENC has three checks and one result. -/
theorem phrencBuildsTheHeader : Obligations.PhrencBuildsTheHeader := by
  intro s
  have hfirst := firstFailure_phrencChecks s
  refine ⟨(decode_eq_ok_iff _ _).2 rfl, fun hlong => rejects_of_check_fails ?_,
    fun hL hflags => rejects_of_check_fails ?_, fun hL hflags hfcs => rejects_of_check_fails ?_,
    fun hL hflags hfcs => ?_⟩
  · rw [hfirst, if_pos hlong]
  · rw [hfirst, if_neg (Nat.not_lt.2 hL), if_pos hflags]
  · rw [hfirst, if_neg (Nat.not_lt.2 hL), if_neg (not_not.2 hflags), if_pos hfcs]
  · have hc : firstFailure (commandChecks .phrenc s) = none := by
      rw [hfirst, if_neg (Nat.not_lt.2 hL), if_neg (not_not.2 hflags), if_neg (Bool.eq_false_iff.1 hfcs)]
    obtain ⟨t, ht, hx, hframe⟩ := exec_result hc rfl
    have hbit := getLsbD_flags_or_reverseBits hL hflags
    rw [← hx] at hbit
    refine ⟨t, ht, fun k hk => (hbit k).trans (if_pos hk), fun j hj => ?_, fun k hk => ?_, hframe⟩
    · have hplace : 15 - (5 + j) = 10 - j := by omega
      have hword : 5 + j < 16 := by omega
      rw [hbit, if_neg (by omega), hplace, decide_eq_true hword, Bool.true_and]
    · rw [hbit, if_neg (by omega), decide_eq_false (Nat.not_lt.2 hk), Bool.false_and]

/-! ### PHRDEC (R180) -/

/-- Settles O52: PHRDEC has one check and two results. -/
theorem phrdecSplitsTheHeader : Obligations.PhrdecSplitsTheHeader := by
  intro s
  refine ⟨(decode_eq_ok_iff _ _).2 rfl, fun hbig => rejects_of_check_fails ?_, fun hle => ?_⟩
  · simp [commandChecks, State.a0, Nat.not_le.2 hbig]
  · have hc : firstFailure (commandChecks .phrdec s) = none := by simp [commandChecks, State.a0, hle]
    have hbit (j : Nat) : (((commandEffect .phrdec s).apply s).x 4).getLsbD j =
        (decide (j ≤ 10) && (s.x 0).getLsbD (15 - j)) := by
      have hx : ((commandEffect .phrdec s).apply s).x 4 = reverseBits 16 (s.x 0) &&& 0x07FF#32 := by
        simp [commandEffect, Effect.apply]
      rw [hx, getLsbD_and_lengthMask, getLsbD_reverseBits (by decide)]
      by_cases hj : j ≤ 10
      · have hj16 : j < 16 := by omega
        simp [hj16]
      · simp [hj]
    refine ⟨_, exec_eq_effect hc, fun j hj => ?_, fun j hj => ?_, ?_, Effect.apply_success_okFrame s _ [(4, _), (5, _)],
      fun b => .of_buf (Effect.apply_buf_of_ne s (by simp [commandEffect, Effect.dest]))⟩
    · simp [hbit, hj]
    · simp [hbit, Nat.not_le.2 hj]
    · simp [commandEffect, Effect.apply]

end Sys2Proof.Machine
end

section
/-! The stream of a frame: preamble, SFD, and the body of an uncoded type (R190, R210 to R213). -/

namespace Sys2Proof.Machine

/-! ### Length (R119, R211) -/

theorem padOctets_eq (L : Nat) : padOctets L = 1 + if (2 + L) % 2 = 0 then 1 else 0 := by
  unfold padOctets
  split <;> rfl

/-- The number of body bytes, by the type (R211). -/
theorem bodyLength_eq (k : SfdType) (L : Nat) :
    bodyLength k L = if k = .coded0 ∨ k = .coded1 then 2 * (2 + L + (1 + if (2 + L) % 2 = 0 then 1 else 0))
      else 2 + L := by
  simp only [bodyLength, sfdCoded_iff, padOctets_eq]

/-! ### Preamble and SFD (R213) -/

/-- A bit inside a list is the one `getD` reads. -/
theorem getElem?_eq_some_getD {l : List Bool} {i : Nat} (h : i < l.length) : l[i]? = some (l.getD i false) := by
  rw [List.getD_eq_getElem _ _ h, List.getElem?_eq_getElem h]

/-- Whole patterns in a row are a preamble of as many patterns (R170). -/
theorem preambleAt_replicate_pre (r : Nat) (rest : List Bool) :
    PreambleAt ((List.replicate r pre).flatten ++ rest) 0 r := by
  induction r with
  | zero => exact preambleAt_zero _ _
  | succ r ih =>
    rw [List.replicate_succ, List.flatten_cons, List.append_assoc]
    refine preambleAt_succ.2 ⟨preambleAt_one_iff.2 (List.take_left' rfl), fun j hj => ?_⟩
    have hbit := ih j hj
    rw [Nat.zero_add] at hbit
    rw [Nat.zero_add, List.getElem?_append_right (Nat.le_add_right 8 j), ← hbit]
    exact congrArg _ (Nat.add_sub_cancel_left 8 j)

/-- A frame begins with its preamble (R213). -/
theorem preambleAt_encodeFrame (P : Params) (k : SfdType) (fam : Family) (dw : Bool) (plen : Nat) (data : List Byte) :
    PreambleAt (encodeFrame P k fam dw plen data) 0 (plen / 8) := by
  rw [encodeFrame, List.append_assoc]
  exact preambleAt_replicate_pre _ _

/-- The 16 bits after the preamble are the SFD of the type (R213). -/
theorem take_drop_encodeFrame (P : Params) (k : SfdType) (fam : Family) (dw : Bool) {plen : Nat} (hplen : plen % 8 = 0)
    (data : List Byte) : ((encodeFrame P k fam dw plen data).drop plen).take 16 = sfdBits P k := by
  have hpre : (List.replicate (plen / 8) pre).flatten.length = plen := by
    simp [pre]
    omega
  have hsfd : (sfdBits P k).length = 16 := length_bitsOfWord _
  rw [encodeFrame, List.append_assoc, List.drop_left' hpre, List.take_left' hsfd]

/-- Settles O53: the length, the preamble and the SFD of a frame. -/
theorem frameStreamHasItsLength : Obligations.FrameStreamHasItsLength := by
  intro P k fam dw plen data hplen
  refine ⟨?_, fun i hi => ?_, ?_⟩
  · rw [length_encodeFrame P k fam dw hplen, frameBits, bodyLength_eq]
  · have hbit := preambleAt_encodeFrame P k fam dw plen data i (by omega)
    rwa [Nat.zero_add] at hbit
  · exact take_drop_eq_sfdBits_iff.1 (take_drop_encodeFrame P k fam dw hplen data)

/-! ### The body of an uncoded frame (R190, R210) -/

/-- A bit inside a byte sequence in stream order. -/
theorem getElem?_streamBits {l : List Byte} {j i : Nat} (hj : j < l.length) (hi : i < 8) :
    (streamBits l)[8 * j + i]? = some ((l.getD j 0#8).getLsbD i) := by
  have hdiv : (8 * j + i) / 8 = j := by omega
  have hmod : (8 * j + i) % 8 = i := by omega
  rw [getElem?_eq_some_getD (by rw [length_streamBits]; omega), getD_streamBits, hdiv, hmod]

/-- What is encoded, or sent as it is: the bits of the header word, then those of the payload (R210, R212). -/
theorem streamBits_frameCore (P : Params) (dw : Bool) (data : List Byte) :
    streamBits (frameCore P dw data) =
      bitsOfWord (phrEncode (data.length + 4) false false dw) ++ streamBits (framePayload P dw data) := by
  rw [frameCore, streamBits_append, streamBits_headerBytes]

theorem frameBody_of_uncoded (P : Params) {k : SfdType} (hk : sfdCoded k = false) (fam : Family) (dw : Bool)
    (data : List Byte) : frameBody P k fam dw data = frameCore P dw data := by
  simp [frameBody, hk]

@[simp] theorem length_framePayload (P : Params) (dw : Bool) (data : List Byte) :
    (framePayload P dw data).length = data.length + 4 := by simp [framePayload]

/-- What follows the SFD of an uncoded frame is header and payload (R210, R213). -/
theorem drop_encodeFrame_of_uncoded (P : Params) {k : SfdType} (hk : sfdCoded k = false) (fam : Family) (dw : Bool)
    {plen : Nat} (hplen : plen % 8 = 0) (data : List Byte) :
    (encodeFrame P k fam dw plen data).drop (plen + 16) =
      bitsOfWord (phrEncode (data.length + 4) false false dw) ++ streamBits (framePayload P dw data) := by
  rw [drop_encodeFrame P k fam dw hplen, frameBody_of_uncoded P hk, streamBits_frameCore]

/-- Settles O54: the body's bits are those of the header word, then those of the payload. -/
theorem uncodedBodyIsHeaderAndPayload : Obligations.UncodedBodyIsHeaderAndPayload := by
  intro P k fam dw plen data hplen hk
  have hbody := drop_encodeFrame_of_uncoded P (k := k) (by rcases hk with rfl | rfl <;> rfl) fam dw hplen data
  refine ⟨fun i hi => ?_, fun j i hj hi => ?_⟩
  · rw [← List.getElem?_drop, hbody, List.getElem?_append_left (by simpa using hi),
      getElem?_eq_some_getD (by simpa using hi), getD_bitsOfWord]
  · have hplace : plen + 32 + 8 * j + i = plen + 16 + (16 + (8 * j + i)) := by omega
    rw [hplace, ← List.getElem?_drop, hbody, List.getElem?_append_right (by simp), length_bitsOfWord,
      Nat.add_sub_cancel_left, getElem?_streamBits (by simpa using hj) hi]
    rfl

end Sys2Proof.Machine
end

section
/-! FRMENC (R207, R214). -/

namespace Sys2Proof.Machine

/-- Bits packed under a buffer's tag make it, once produced, read under that tag (R48, R56, R214). -/
theorem produceEffect_packOrd_produced {s : State} {db : BufId} (h : (s.buf db).mem.wf) {bits : List Bool} {n : Nat}
    (hlen : bits.length = n) (hn : n < 2 ^ 32) (results : List (Fin 8 × Word)) (fsm : Option Word) :
    Produced State.taggedBit db bits s
      ((produceEffect db (packOrd (s.bord db) bits) n results fsm).apply s) := by
  have hbyte := produceEffect_byteAt h (packOrd (s.bord db) bits) n results fsm
  rw [length_packOrd] at hbyte
  have hbit : ∀ i, i < 8 * ceil8 bits.length →
      ((produceEffect db (packOrd (s.bord db) bits) n results fsm).apply s).taggedBit db i = bits.getD i false :=
    fun i hi => by
      rw [← State.rdBit_eq_taggedBit, State.rdBit, hbyte, if_pos (by omega), Effect.apply_bord,
        getLsbD_packOrd _ _ _ hi]
  have hceil : bits.length ≤ 8 * ceil8 bits.length := by unfold ceil8; omega
  exact ⟨(produceEffect_blen s db _ hn results fsm).trans hlen.symm, fun i hi => hbit i (Nat.lt_of_lt_of_le hi hceil),
    fun i hge hi => (hbit i hi).trans (List.getD_eq_default _ _ hge),
    fun j hj => (hbyte j).trans (if_neg (Nat.not_lt.2 hj)), Effect.apply_bord s _ db⟩

section
variable (sb db : BufId) (fam : Family) (dw : Bool) (k : SfdType) (fcst : Bool) (s : State)

/-- The word of FRMENC: its fields stand at places of their own, so that their sum has no carries (R67). -/
theorem encode_frmenc_eq_ofNat :
    encode (.frmenc sb db fam dw k fcst) =
      BitVec.ofNat 32 (0x61 + 0x100 * bufIndex sb + 0x200 * bufIndex db + 0x1000 * fam.code.toNat +
        0x4000 * dw.toNat + 0x8000 * k.code.toNat + 0x20000 * fcst.toNat) := by
  cases sb <;> cases db <;> cases fam <;> cases dw <;> cases k <;> cases fcst <;> rfl

/-- Which check of FRMENC fails first (R207). -/
theorem firstFailure_frmencChecks :
    firstFailure (commandChecks (.frmenc sb db fam dw k fcst) s) =
      if sb = db then some .illegal else if fcst = true then some .unsupported
      else if 2043 < (s.x 0).toNat then some .illegal
      else if ¬((s.x 1).toNat % 8 = 0 ∧ 8 ≤ (s.x 1).toNat) then some .malformed
      else if s.blen sb < 8 * (s.x 0).toNat then some .capacity
      else if 8 * s.params.capBytes < frameBits k (s.x 1).toNat ((s.x 0).toNat + 4) then some .capacity else none := by
  simp only [commandChecks, frmencChecks, firstFailure_cons, firstFailure_nil, State.bytesInside_iff, State.fits_iff,
    decide_eq_true_eq, Bool.not_eq_true', ← Bool.not_eq_true, ne_eq, ← Nat.not_le, ite_not]
  rfl

variable {sb db s}

/-- What FRMENC leaves when the frame fits a buffer (R214). -/
theorem frmencEffect_spec (hs : s.Inv) (hne : sb ≠ db) (hplen : s.a1 % 8 = 0)
    (hfits : frameBits k s.a1 (s.a0 + 4) ≤ 8 * s.params.capBytes) :
    let t := (commandEffect (.frmenc sb db fam dw k fcst) s).apply s
    let frame := encodeFrame s.params k fam dw s.a1 (s.bytes sb s.a0)
    Produced State.taggedBit db frame s t ∧ (t.x 4).toNat = frame.length ∧ SameBuffer sb s t ∧ OkFrame [4] s t := by
  have hlen : (encodeFrame s.params k fam dw s.a1 (s.bytes sb s.a0)).length = frameBits k s.a1 (s.a0 + 4) := by
    rw [length_encodeFrame _ _ _ _ hplen, State.length_bytes]
  have hword : frameBits k s.a1 (s.a0 + 4) < 2 ^ 32 := by have := s.params.cap_hi; omega
  refine ⟨produceEffect_packOrd_produced (hs.memWf db) hlen hword _ _, ?_, produceEffect_sameBuffer s hne _ _ _ _,
    Effect.apply_success_okFrame s _ [(4, _)]⟩
  rw [hlen]
  simpa [commandEffect, produceEffect, Effect.apply] using hword

end

/-- Settles O56: FRMENC has six checks, the last on the frame's length, and produces the frame. -/
theorem frmencBuildsTheFrame : Obligations.FrmencBuildsTheFrame := by
  intro sb db fam dw k fcst s hs nd plen frame cmd
  have hfirst := firstFailure_frmencChecks sb db fam dw k fcst s
  have hlength (hmod : plen % 8 = 0) : frame.length = frameBits k plen (nd + 4) := by
    rw [length_encodeFrame _ _ _ _ hmod, List.length_map, List.length_range]
  refine ⟨(decode_eq_ok_iff _ _).2 (encode_frmenc_eq_ofNat sb db fam dw k fcst),
    fun heq => rejects_of_check_fails ?_, fun hne hfcst => rejects_of_check_fails ?_,
    fun hne hfcst hnd => rejects_of_check_fails ?_, fun hne hfcst hnd hpre => rejects_of_check_fails ?_,
    fun hne hfcst hnd hmod hpos hlen => rejects_of_check_fails ?_,
    fun hne hfcst hnd hmod hpos hlen hcap => rejects_of_check_fails ?_,
    fun hne hfcst hnd hmod hpos hlen hcap => ?_⟩
  · rw [hfirst, if_pos heq]
  · rw [hfirst, if_neg hne, if_pos hfcst]
  · rw [hfirst, if_neg hne, if_neg (Bool.eq_false_iff.1 hfcst), if_pos hnd]
  · rw [hfirst, if_neg hne, if_neg (Bool.eq_false_iff.1 hfcst), if_neg (Nat.not_lt.2 hnd), if_pos hpre]
  · rw [hfirst, if_neg hne, if_neg (Bool.eq_false_iff.1 hfcst), if_neg (Nat.not_lt.2 hnd),
      if_neg (not_not.2 ⟨hmod, hpos⟩), if_pos hlen]
  · rw [hlength hmod] at hcap
    rw [hfirst, if_neg hne, if_neg (Bool.eq_false_iff.1 hfcst), if_neg (Nat.not_lt.2 hnd),
      if_neg (not_not.2 ⟨hmod, hpos⟩), if_neg (Nat.not_lt.2 hlen), if_pos hcap]
  · rw [hlength hmod] at hcap
    have hc : firstFailure (commandChecks cmd s) = none := by
      rw [hfirst, if_neg hne, if_neg (Bool.eq_false_iff.1 hfcst), if_neg (Nat.not_lt.2 hnd),
        if_neg (not_not.2 ⟨hmod, hpos⟩), if_neg (Nat.not_lt.2 hlen), if_neg (Nat.not_lt.2 hcap)]
    exact ⟨_, exec_eq_effect hc, frmencEffect_spec fam dw k fcst hs hne hmod hcap⟩

end Sys2Proof.Machine
end

section
/-! The decode of a region of a coded frame (R130, R135, R136, R196, R201), and bits read as a word or as octets. -/

namespace Sys2Proof.Machine

/-! ### Least distance and acceptance (R130, R135, R136) -/

section
variable {P : Params} {f : Family} {m T : Nat} {enc c : List Bool}

/-- A decode that is accepted answers a sequence of least distance (R130, R136). -/
theorem leastDistance_fecDecode {pick : Nat → Nat → Bool} (hm : m < numStates f) (henc : enc.length = 2 * T)
    (hacc : acceptable P.viterbiMaxDist (fecDecode f pick m enc).dist = true) :
    LeastDistance P f m enc (fecDecode f pick m enc).bits := by
  obtain ⟨hlen, -, hdist, hmin⟩ := decoderReturnsAMinimumDistancePath f pick m T enc hm henc
  exact ⟨by omega, fun c' hc' => hdist ▸ hmin c' (hc'.trans hlen), fun k hk => hdist ▸ acceptable_iff.1 hacc k hk⟩

/-- A decode is refused under every choice among ties, or under none: when every sequence is too far (R136). -/
theorem not_acceptable_fecDecode_iff (P : Params) (pick : Nat → Nat → Bool) (hm : m < numStates f)
    (henc : enc.length = 2 * T) :
    ¬ acceptable P.viterbiMaxDist (fecDecode f pick m enc).dist = true ↔ TooFar P f m enc := by
  obtain ⟨hlen, -, hdist, hmin⟩ := decoderReturnsAMinimumDistancePath f pick m T enc hm henc
  simp only [acceptable_iff, not_forall, Nat.not_le]
  constructor
  · rintro ⟨k, hk, hlt⟩
    exact ⟨k, hk, fun c hc => Nat.lt_of_lt_of_le hlt (hmin c (by omega))⟩
  · rintro ⟨k, hk, hfar⟩
    exact ⟨k, hk, hdist ▸ hfar _ (by omega)⟩

/-- Every accepted sequence of least distance is the answer under some choice among ties (R135, R136). -/
theorem LeastDistance.exists_fecDecode_eq (h : LeastDistance P f m enc c) (hm : m < numStates f) :
    ∃ pick, (fecDecode f pick m enc).bits = c ∧ (fecDecode f pick m enc).final = fecState f m c ∧
      acceptable P.viterbiMaxDist (fecDecode f pick m enc).dist = true := by
  obtain ⟨pick, hbits⟩ := everyMinimiserCanBeReturned f m enc c hm h.length.symm h.least
  obtain ⟨-, hfinal, hdist, -⟩ := decoderReturnsAMinimumDistancePath f pick m c.length enc hm h.length.symm
  rw [hbits] at hfinal hdist
  exact ⟨pick, hbits, hfinal, acceptable_iff.2 (hdist ▸ h.accepted)⟩

end

/-! ### A region of a stream (R196, R201) -/

section
variable (P : Params) {S : List Bool} {a n : Nat}

theorem length_deinterleaved (h : a + n ≤ S.length) : (deinterleaved P S a n).length = n := by
  refine length_unpack ?_
  simp [ceil8]
  omega

/-- The region a decode reads is the bits of a stream, de-interleaved (R196, R201). -/
theorem decodeRegion_eq (f : Family) (pick : TieChoice) (m : Nat) (h : a + n ≤ S.length) :
    decodeRegion P f pick m ((S.drop a).take n) =
      fecDecode f (pick f m (deinterleaved P S a n)) m (deinterleaved P S a n) := by
  have hlen : ((S.drop a).take n).length = n := by simp; omega
  simp only [decodeRegion, hlen, deinterleaved]

end

/-- The family of a coded type at decode (R196). -/
theorem sfdFamily_eq_codedFamily {P : Params} {k : SfdType} (hk : IsCoded k) : sfdFamily P k = codedFamily P k := by
  rcases hk with rfl | rfl <;> rfl

/-! ### Bits as a word, bits as octets -/

theorem eq_wordOfBits_iff {w : Nat} {H : BitVec w} {l : List Bool} :
    H = wordOfBits w l ↔ ∀ i, i < w → H.getLsbD i = l.getD i false := by
  constructor
  · rintro rfl i hi
    rw [getLsbD_wordOfBits, decide_eq_true hi, Bool.true_and]
  · intro h
    refine BitVec.eq_of_getLsbD_eq fun i hi => ?_
    rw [h i hi, getLsbD_wordOfBits, decide_eq_true hi, Bool.true_and]

/-- The word whose bits are read at a place of a stream (R195). -/
theorem eq_wordOfBits_take_drop_iff {w p : Nat} {H : BitVec w} {S : List Bool} (h : p + w ≤ S.length) :
    H = wordOfBits w ((S.drop p).take w) ↔ ∀ i, i < w → S[p + i]? = some (H.getLsbD i) := by
  have hread := take_drop_eq_iff (S := S) (l := bitsOfWord H) (p := p)
  simp only [length_bitsOfWord, getD_bitsOfWord] at hread
  rw [← hread]
  constructor
  · rintro rfl
    exact (bitsOfWord_wordOfBits (by simp; omega)).symm
  · intro hbits
    rw [hbits, wordOfBits_bitsOfWord]

/-- The first octets of packed bits are those with the bits at their places (R50). -/
theorem eq_take_pack_iff {bits : List Bool} {octets : List Byte} {L : Nat} (hL : L ≤ ceil8 bits.length) :
    octets = (pack bits).take L ↔ octets.length = L ∧
      ∀ j i, j < L → i < 8 → (octets.getD j 0#8).getLsbD i = bits.getD (8 * j + i) false := by
  have hlen : ((pack bits).take L).length = L := by simpa using hL
  have hbit : ∀ j i, j < L → i < 8 → (((pack bits).take L).getD j 0#8).getLsbD i = bits.getD (8 * j + i) false := by
    intro j i hj hi
    rw [← getLsbD_pack bits j i hi, List.getD_eq_getElem?_getD, List.getElem?_take_of_lt hj,
      ← List.getD_eq_getElem?_getD]
  constructor
  · rintro rfl
    exact ⟨hlen, hbit⟩
  · rintro ⟨hoctets, hbits⟩
    refine List.ext_getElem (hoctets.trans hlen.symm) fun j h₁ h₂ => BitVec.eq_of_getLsbD_eq fun i hi => ?_
    rw [← List.getD_eq_getElem _ 0#8 h₁, ← List.getD_eq_getElem _ 0#8 h₂, hbits j i (by omega) hi,
      hbit j i (by omega) hi]

end Sys2Proof.Machine
end

section
/-! The header and the payload of a frame in a stream, against the steps of the frame machine (R195 to R203). -/

namespace Sys2Proof.Machine

variable {P : Params} {S : List Bool} {h : Shr} {H : BitVec 16} {m1 : Nat} {raw : List Byte}

/-- The number of bits of the payload region the header word `H` declares (R198). -/
abbrev payloadSize (h : Shr) (H : BitVec 16) : Nat := payloadBits h.kind (phrDecode H).L

/-- The header bits of a coded frame, de-interleaved (R196). -/
abbrev headerRegion (P : Params) (S : List Bool) (h : Shr) : List Bool := deinterleaved P S h.after 32

/-- The payload bits of a coded frame, de-interleaved (R201). -/
abbrev payloadRegion (P : Params) (S : List Bool) (h : Shr) (H : BitVec 16) : List Bool :=
  deinterleaved P S (headerEnd h) (payloadSize h H)

/-- The decode the frame machine makes of a de-interleaved region of a coded frame (R196, R201). -/
def regionDecode (P : Params) (pick : TieChoice) (h : Shr) (m : Nat) (region : List Bool) : Decoded :=
  fecDecode (codedFamily P h.kind) (pick (codedFamily P h.kind) m region) m region

/-! ### The header (R195, R196) -/

theorem headerEnd_of_coded (hk : IsCoded h.kind) : headerEnd h = h.after + 32 := by rw [headerEnd, if_pos hk]

theorem headerEnd_of_uncoded (hk : ¬IsCoded h.kind) : headerEnd h = h.after + 16 := by rw [headerEnd, if_neg hk]

/-- A stream that ends inside the header fails so, whatever its type (R195, R196). -/
theorem recoverHeader_of_short (pick : TieChoice) (hshort : S.length < headerEnd h) :
    recoverHeader P pick h.kind (S.drop h.after) = .error ⟨.malformed, .sfdMatched⟩ := by
  by_cases hk : IsCoded h.kind
  · rw [headerEnd_of_coded hk] at hshort
    have hlen : (S.drop h.after).length < 32 := by rw [List.length_drop]; omega
    rw [recoverHeader, if_pos ((sfdCoded_iff _).2 hk), if_pos hlen]
  · rw [headerEnd_of_uncoded hk] at hshort
    have hlen : (S.drop h.after).length < 16 := by rw [List.length_drop]; omega
    rw [recoverHeader, if_neg (mt (sfdCoded_iff _).1 hk), if_pos hlen]

/-- The header of a coded type is decoded from the 32 bits after the SFD (R196). -/
theorem recoverHeader_of_coded (pick : TieChoice) (hk : IsCoded h.kind) (hroom : headerEnd h ≤ S.length) :
    recoverHeader P pick h.kind (S.drop h.after) =
      if acceptable P.viterbiMaxDist (regionDecode P pick h 0 (headerRegion P S h)).dist then
        .ok ⟨wordOfBits 16 (regionDecode P pick h 0 (headerRegion P S h)).bits,
          (regionDecode P pick h 0 (headerRegion P S h)).final, S.drop (headerEnd h)⟩
      else .error ⟨.decode, .sfdMatched⟩ := by
  rw [headerEnd_of_coded hk] at hroom ⊢
  have hlen : ¬ (S.drop h.after).length < 32 := by rw [List.length_drop]; omega
  rw [recoverHeader, if_pos ((sfdCoded_iff _).2 hk), if_neg hlen]
  simp only [decodeRegion_eq P _ pick 0 hroom, sfdFamily_eq_codedFamily hk, List.drop_drop]
  rfl

/-- The header of an uncoded type is the 16 bits after the SFD (R195). -/
theorem recoverHeader_of_uncoded (pick : TieChoice) (hk : ¬IsCoded h.kind) (hroom : headerEnd h ≤ S.length) :
    recoverHeader P pick h.kind (S.drop h.after) =
      .ok ⟨wordOfBits 16 ((S.drop h.after).take 16), 0, S.drop (headerEnd h)⟩ := by
  rw [headerEnd_of_uncoded hk] at hroom ⊢
  have hlen : ¬ (S.drop h.after).length < 16 := by rw [List.length_drop]; omega
  rw [recoverHeader, if_neg (mt (sfdCoded_iff _).1 hk), if_neg hlen, List.drop_drop]

theorem headerIs_iff_of_coded (hk : IsCoded h.kind) :
    HeaderIs P S h H m1 ↔ headerEnd h ≤ S.length ∧
      ∃ c, LeastDistance P (codedFamily P h.kind) 0 (headerRegion P S h) c ∧ H = wordOfBits 16 c ∧
        m1 = fecState (codedFamily P h.kind) 0 c := by
  simp only [HeaderIs, if_pos hk, eq_wordOfBits_iff]

theorem headerIs_iff_of_uncoded (hk : ¬IsCoded h.kind) :
    HeaderIs P S h H m1 ↔ headerEnd h ≤ S.length ∧ H = wordOfBits 16 ((S.drop h.after).take 16) ∧ m1 = 0 := by
  rw [HeaderIs, if_neg hk]
  refine and_congr_right fun hroom => ?_
  rw [headerEnd_of_uncoded hk] at hroom
  rw [eq_wordOfBits_take_drop_iff hroom]

/-- The header that stands in a stream ends in it. -/
theorem HeaderIs.headerEnd_le (hdr : HeaderIs P S h H m1) : headerEnd h ≤ S.length := hdr.1

theorem zero_lt_numStates (f : Family) : 0 < numStates f := by cases f <;> decide

/-- The header of a coded frame ends in a state of the trellis. -/
theorem HeaderIs.lt_numStates (hdr : HeaderIs P S h H m1) : m1 < numStates (codedFamily P h.kind) := by
  by_cases hk : IsCoded h.kind
  · obtain ⟨-, c, -, -, rfl⟩ := (headerIs_iff_of_coded hk).1 hdr
    exact fecState_lt (zero_lt_numStates _) c
  · obtain ⟨-, -, rfl⟩ := (headerIs_iff_of_uncoded hk).1 hdr
    exact zero_lt_numStates _

/-- The header decode reads 16 symbols. -/
theorem length_headerRegion (hk : IsCoded h.kind) (hroom : headerEnd h ≤ S.length) :
    (headerRegion P S h).length = 2 * 16 :=
  length_deinterleaved P (headerEnd_of_coded hk ▸ hroom)

/-- All that recovering a header does on a stream: it fails on one of two conditions, or answers a header that stands in
the stream, and the bits after it (R195, R196). -/
theorem recoverHeader_inv (P : Params) (pick : TieChoice) (S : List Bool) (h : Shr) :
    (S.length < headerEnd h ∧ recoverHeader P pick h.kind (S.drop h.after) = .error ⟨.malformed, .sfdMatched⟩) ∨
    (headerEnd h ≤ S.length ∧ IsCoded h.kind ∧
      TooFar P (codedFamily P h.kind) 0 (headerRegion P S h) ∧
      recoverHeader P pick h.kind (S.drop h.after) = .error ⟨.decode, .sfdMatched⟩) ∨
    ∃ H m1, HeaderIs P S h H m1 ∧
      recoverHeader P pick h.kind (S.drop h.after) = .ok ⟨H, m1, S.drop (headerEnd h)⟩ := by
  by_cases hroom : headerEnd h ≤ S.length
  case neg => exact .inl ⟨Nat.lt_of_not_le hroom, recoverHeader_of_short pick (Nat.lt_of_not_le hroom)⟩
  case pos =>
    right
    by_cases hk : IsCoded h.kind
    · have hlen := length_headerRegion (P := P) hk hroom
      have hzero := zero_lt_numStates (codedFamily P h.kind)
      rw [recoverHeader_of_coded pick hk hroom]
      by_cases hacc : acceptable P.viterbiMaxDist (regionDecode P pick h 0 (headerRegion P S h)).dist = true
      · obtain ⟨-, hfinal, -⟩ := decoderReturnsAMinimumDistancePath _ (pick _ _ _) 0 16 _ hzero hlen
        rw [if_pos hacc]
        exact .inr ⟨_, _, (headerIs_iff_of_coded hk).2
          ⟨hroom, _, leastDistance_fecDecode hzero hlen hacc, rfl, hfinal⟩, rfl⟩
      · rw [if_neg hacc]
        exact .inl ⟨hroom, hk, (not_acceptable_fecDecode_iff P _ hzero hlen).1 hacc, rfl⟩
    · rw [recoverHeader_of_uncoded pick hk hroom]
      exact .inr ⟨_, _, (headerIs_iff_of_uncoded hk).2 ⟨hroom, rfl, rfl⟩, rfl⟩

/-- A header that is too far from every sequence fails so under every choice among ties (R196). -/
theorem recoverHeader_of_far (pick : TieChoice) (hk : IsCoded h.kind) (hroom : headerEnd h ≤ S.length)
    (far : TooFar P (codedFamily P h.kind) 0 (headerRegion P S h)) :
    recoverHeader P pick h.kind (S.drop h.after) = .error ⟨.decode, .sfdMatched⟩ := by
  rw [recoverHeader_of_coded pick hk hroom]
  exact if_neg ((not_acceptable_fecDecode_iff P _ (zero_lt_numStates _) (length_headerRegion hk hroom)).2 far)

/-- Every header that stands in a stream is recovered under some choice among ties, and under every choice when the type
is uncoded (R135, R195, R196). -/
theorem HeaderIs.exists_recoverHeader_eq (hdr : HeaderIs P S h H m1) :
    ∃ pick, ∀ pick', (IsCoded h.kind → pick' = pick) →
      recoverHeader P pick' h.kind (S.drop h.after) = .ok ⟨H, m1, S.drop (headerEnd h)⟩ := by
  by_cases hk : IsCoded h.kind
  · obtain ⟨hroom, c, hleast, rfl, rfl⟩ := (headerIs_iff_of_coded hk).1 hdr
    obtain ⟨pick, hbits, hfinal, hacc⟩ := hleast.exists_fecDecode_eq (zero_lt_numStates _)
    refine ⟨fun _ _ _ => pick, fun pick' hpick => ?_⟩
    obtain rfl := hpick hk
    rw [recoverHeader_of_coded _ hk hroom, regionDecode, if_pos hacc, hbits, hfinal]
  · obtain ⟨hroom, rfl, rfl⟩ := (headerIs_iff_of_uncoded hk).1 hdr
    exact ⟨fun _ _ _ _ _ => false, fun pick' _ => recoverHeader_of_uncoded pick' hk hroom⟩

/-! ### The payload (R198 to R203) -/

theorem payloadSize_of_coded (hk : IsCoded h.kind) (H : BitVec 16) :
    payloadSize h H = 16 * ((phrDecode H).L + padOctets (phrDecode H).L) := by
  rw [payloadSize, payloadBits, if_pos hk, padOctets_eq]

theorem payloadSize_of_uncoded (hk : ¬IsCoded h.kind) (H : BitVec 16) : payloadSize h H = 8 * (phrDecode H).L := by
  rw [payloadSize, payloadBits, if_neg hk]

/-- The payload decode reads whole symbols. -/
theorem length_payloadRegion (P : Params) (hk : IsCoded h.kind) (hroom : headerEnd h + payloadSize h H ≤ S.length) :
    (payloadRegion P S h H).length = 2 * (8 * ((phrDecode H).L + padOctets (phrDecode H).L)) := by
  rw [payloadRegion, length_deinterleaved P hroom, payloadSize_of_coded hk]
  omega

/-- The bits that hold the octets of the payload: the region itself, or a least-distance decode of it (R200, R201). -/
def PayloadBitsAre (P : Params) (S : List Bool) (h : Shr) (H : BitVec 16) (m1 : Nat) (bits : List Bool) : Prop :=
  if IsCoded h.kind then LeastDistance P (codedFamily P h.kind) m1 (payloadRegion P S h H) bits
  else bits = (S.drop (headerEnd h)).take (payloadSize h H)

theorem payloadBitsAre_iff_of_coded (hk : IsCoded h.kind) {bits : List Bool} :
    PayloadBitsAre P S h H m1 bits ↔ LeastDistance P (codedFamily P h.kind) m1 (payloadRegion P S h H) bits := by
  rw [PayloadBitsAre, if_pos hk]

theorem payloadBitsAre_iff_of_uncoded (hk : ¬IsCoded h.kind) {bits : List Bool} :
    PayloadBitsAre P S h H m1 bits ↔ bits = (S.drop (headerEnd h)).take (payloadSize h H) := by
  rw [PayloadBitsAre, if_neg hk]

/-- The octets of the payload before de-whitening, in the words of `PayloadIs` but as packed bits (R200, R201). -/
def OctetsAre (P : Params) (S : List Bool) (h : Shr) (H : BitVec 16) (m1 : Nat) (raw : List Byte) : Prop :=
  headerEnd h + payloadSize h H ≤ S.length ∧
    ∃ bits, PayloadBitsAre P S h H m1 bits ∧ raw = (pack bits).take (phrDecode H).L

/-- The bits of a payload region hold its octets (R119, R198). -/
theorem PayloadBitsAre.le_ceil8_length {bits : List Bool} (hbits : PayloadBitsAre P S h H m1 bits)
    (hroom : headerEnd h + payloadSize h H ≤ S.length) : (phrDecode H).L ≤ ceil8 bits.length := by
  unfold ceil8
  by_cases hk : IsCoded h.kind
  · have hlen := ((payloadBitsAre_iff_of_coded hk).1 hbits).length.trans (length_payloadRegion P hk hroom)
    omega
  · obtain rfl := (payloadBitsAre_iff_of_uncoded hk).1 hbits
    rw [payloadSize_of_uncoded hk] at hroom ⊢
    rw [List.length_take, List.length_drop]
    omega

/-- The payload is the octets, de-whitened when the header says so (R202). -/
theorem payloadIs_iff {payload : List Byte} :
    PayloadIs P S h H m1 payload ↔
      ∃ raw, OctetsAre P S h H m1 raw ∧ payload = whitenIf P (phrDecode H).dw raw := by
  constructor
  · rintro ⟨hroom, bits, octets, hlen, hplaces, hbits, rfl⟩
    have hL := PayloadBitsAre.le_ceil8_length hbits hroom
    exact ⟨octets, ⟨hroom, bits, hbits, (eq_take_pack_iff hL).2 ⟨hlen, hplaces⟩⟩, rfl⟩
  · rintro ⟨raw, ⟨hroom, bits, hbits, hraw⟩, rfl⟩
    obtain ⟨hlen, hplaces⟩ := (eq_take_pack_iff (hbits.le_ceil8_length hroom)).1 hraw
    exact ⟨hroom, bits, raw, hlen, hplaces, hbits, rfl⟩

/-- There are as many octets as the header names (R205). -/
theorem OctetsAre.length_eq (hraw : OctetsAre P S h H m1 raw) : raw.length = (phrDecode H).L := by
  obtain ⟨hroom, bits, hbits, rfl⟩ := hraw
  simpa using hbits.le_ceil8_length hroom

theorem recoverPayload_of_fcs {k : SfdType} {rest : List Bool} (pick : TieChoice) (hfcs : H.getLsbD 3 = true) :
    recoverPayload P pick k ⟨H, m1, rest⟩ = .error ⟨.unsupported, .headerRecovered⟩ := if_pos hfcs

/-- A stream that ends inside the payload fails so, whatever its type (R200, R201). -/
theorem recoverPayload_of_short (pick : TieChoice) (hroom : headerEnd h ≤ S.length) (hfcs : H.getLsbD 3 = false)
    (hshort : S.length < headerEnd h + payloadSize h H) :
    recoverPayload P pick h.kind ⟨H, m1, S.drop (headerEnd h)⟩ = .error ⟨.malformed, .headerRecovered⟩ := by
  have hno : ¬ (phrDecode H).fcs = true := Bool.eq_false_iff.1 hfcs
  have hlen : (S.drop (headerEnd h)).length < payloadSize h H := by rw [List.length_drop]; omega
  by_cases hk : IsCoded h.kind
  · rw [payloadSize_of_coded hk] at hlen
    simp only [recoverPayload, if_neg hno, if_pos ((sfdCoded_iff _).2 hk), if_pos hlen]
  · rw [payloadSize_of_uncoded hk] at hlen
    simp only [recoverPayload, if_neg hno, if_neg (mt (sfdCoded_iff _).1 hk), if_pos hlen]

/-- The octets of a coded type are decoded from the payload region, from the header's end state (R201). -/
theorem recoverPayload_of_coded (pick : TieChoice) (hk : IsCoded h.kind) (hfcs : H.getLsbD 3 = false)
    (hroom : headerEnd h + payloadSize h H ≤ S.length) :
    recoverPayload P pick h.kind ⟨H, m1, S.drop (headerEnd h)⟩ =
      if acceptable P.viterbiMaxDist
          (regionDecode P pick h m1 (payloadRegion P S h H)).dist then
        .ok ((pack (regionDecode P pick h m1 (payloadRegion P S h H)).bits).take
          (phrDecode H).L)
      else .error ⟨.decode, .headerRecovered⟩ := by
  have hno : ¬ (phrDecode H).fcs = true := Bool.eq_false_iff.1 hfcs
  rw [payloadRegion, payloadSize_of_coded hk]
  rw [payloadSize_of_coded hk] at hroom
  have hlen : ¬ (S.drop (headerEnd h)).length < 16 * ((phrDecode H).L + padOctets (phrDecode H).L) := by
    rw [List.length_drop]
    omega
  simp only [recoverPayload, if_neg hno, if_pos ((sfdCoded_iff _).2 hk), if_neg hlen, decodeRegion_eq P _ pick m1 hroom,
    sfdFamily_eq_codedFamily hk]
  rfl

/-- The octets of an uncoded type are the bits of the payload region (R200). -/
theorem recoverPayload_of_uncoded (pick : TieChoice) (hk : ¬IsCoded h.kind) (hfcs : H.getLsbD 3 = false)
    (hroom : headerEnd h + payloadSize h H ≤ S.length) :
    recoverPayload P pick h.kind ⟨H, m1, S.drop (headerEnd h)⟩ =
      .ok ((pack ((S.drop (headerEnd h)).take (payloadSize h H))).take (phrDecode H).L) := by
  have hno : ¬ (phrDecode H).fcs = true := Bool.eq_false_iff.1 hfcs
  rw [payloadSize_of_uncoded hk] at hroom ⊢
  have hlen : 8 * (phrDecode H).L ≤ (S.drop (headerEnd h)).length := by rw [List.length_drop]; omega
  have hall : (pack ((S.drop (headerEnd h)).take (8 * (phrDecode H).L))).length ≤ (phrDecode H).L := by
    rw [length_pack, List.length_take, Nat.min_eq_left hlen]
    unfold ceil8
    omega
  simp only [recoverPayload, if_neg hno, if_neg (mt (sfdCoded_iff _).1 hk), if_neg (Nat.not_lt.2 hlen),
    List.take_of_length_le hall]

/-- All that recovering a payload after a header does on a stream: it fails on one of three conditions, or answers the
octets that stand in the stream (R198 to R201). -/
theorem recoverPayload_inv (pick : TieChoice) (hdr : HeaderIs P S h H m1) :
    (H.getLsbD 3 = true ∧ recoverPayload P pick h.kind ⟨H, m1, S.drop (headerEnd h)⟩ =
      .error ⟨.unsupported, .headerRecovered⟩) ∨
    H.getLsbD 3 = false ∧
      ((S.length < headerEnd h + payloadSize h H ∧
        recoverPayload P pick h.kind ⟨H, m1, S.drop (headerEnd h)⟩ = .error ⟨.malformed, .headerRecovered⟩) ∨
      (headerEnd h + payloadSize h H ≤ S.length ∧ IsCoded h.kind ∧
        TooFar P (codedFamily P h.kind) m1
          (payloadRegion P S h H) ∧
        recoverPayload P pick h.kind ⟨H, m1, S.drop (headerEnd h)⟩ = .error ⟨.decode, .headerRecovered⟩) ∨
      ∃ raw, OctetsAre P S h H m1 raw ∧ recoverPayload P pick h.kind ⟨H, m1, S.drop (headerEnd h)⟩ = .ok raw) := by
  cases hfcs : H.getLsbD 3 with
  | true => exact .inl ⟨rfl, recoverPayload_of_fcs pick hfcs⟩
  | false =>
    refine .inr ⟨rfl, ?_⟩
    by_cases hroom : headerEnd h + payloadSize h H ≤ S.length
    case neg =>
      have hshort := Nat.lt_of_not_le hroom
      exact .inl ⟨hshort, recoverPayload_of_short pick hdr.headerEnd_le hfcs hshort⟩
    case pos =>
      right
      by_cases hk : IsCoded h.kind
      · have hlen := length_payloadRegion P hk hroom
        rw [recoverPayload_of_coded pick hk hfcs hroom]
        by_cases hacc : acceptable P.viterbiMaxDist
            (regionDecode P pick h m1 (payloadRegion P S h H)).dist = true
        · rw [if_pos hacc]
          have hbits := (payloadBitsAre_iff_of_coded hk).2 (leastDistance_fecDecode hdr.lt_numStates hlen hacc)
          exact .inr ⟨_, ⟨hroom, _, hbits, rfl⟩, rfl⟩
        · rw [if_neg hacc]
          exact .inl ⟨hroom, hk, (not_acceptable_fecDecode_iff P _ hdr.lt_numStates hlen).1 hacc, rfl⟩
      · rw [recoverPayload_of_uncoded pick hk hfcs hroom]
        exact .inr ⟨_, ⟨hroom, _, (payloadBitsAre_iff_of_uncoded hk).2 rfl, rfl⟩, rfl⟩

/-- A payload that is too far from every sequence fails so under every choice among ties (R201). -/
theorem recoverPayload_of_far (pick : TieChoice) (hdr : HeaderIs P S h H m1) (hk : IsCoded h.kind)
    (hfcs : H.getLsbD 3 = false) (hroom : headerEnd h + payloadSize h H ≤ S.length)
    (far : TooFar P (codedFamily P h.kind) m1
      (payloadRegion P S h H)) :
    recoverPayload P pick h.kind ⟨H, m1, S.drop (headerEnd h)⟩ = .error ⟨.decode, .headerRecovered⟩ := by
  rw [recoverPayload_of_coded pick hk hfcs hroom]
  exact if_neg ((not_acceptable_fecDecode_iff P _ hdr.lt_numStates (length_payloadRegion P hk hroom)).2 far)

/-- Octets that stand after a header are recovered under some choice among ties, and under every choice when the type is
uncoded (R135, R200, R201). -/
theorem OctetsAre.exists_recoverPayload_eq (hraw : OctetsAre P S h H m1 raw) (hdr : HeaderIs P S h H m1)
    (hfcs : H.getLsbD 3 = false) :
    ∃ pick, ∀ pick', (IsCoded h.kind → pick' = pick) →
      recoverPayload P pick' h.kind ⟨H, m1, S.drop (headerEnd h)⟩ = .ok raw := by
  obtain ⟨hroom, bits, hbits, rfl⟩ := hraw
  by_cases hk : IsCoded h.kind
  · have hleast := (payloadBitsAre_iff_of_coded hk).1 hbits
    obtain ⟨pick, hbits, -, hacc⟩ := hleast.exists_fecDecode_eq hdr.lt_numStates
    refine ⟨fun _ _ _ => pick, fun pick' hpick => ?_⟩
    obtain rfl := hpick hk
    rw [recoverPayload_of_coded _ hk hfcs hroom, regionDecode, if_pos hacc, hbits]
  · obtain rfl := (payloadBitsAre_iff_of_uncoded hk).1 hbits
    exact ⟨fun _ _ _ _ _ => false, fun pick' _ => recoverPayload_of_uncoded pick' hk hfcs hroom⟩

end Sys2Proof.Machine
end

section
/-! The frame machine on any stream: when it fails and what it delivers (R194 to R206). -/

namespace Sys2Proof.Machine

variable {P : Params} {skipv : Bool} {S : List Bool} {pick : Nat → TieChoice} {e : FrameError} {h : Shr}

/-! ### The steps of the frame machine (R193) -/

theorem findShr_of_some (found : shrDetect P S 0 = some h) : findShr P S = .ok h := by rw [findShr, found]

theorem decodeFrame_of_none (found : shrDetect P S 0 = none) :
    decodeFrame P pick skipv S = .error ⟨.notFound, .searching⟩ := by
  rw [decodeFrame, findShr, found]

theorem decodeFrame_of_header_error (found : shrDetect P S 0 = some h)
    (header : recoverHeader P (pick 1) h.kind (S.drop h.after) = .error e) :
    decodeFrame P pick skipv S = .error e := by
  simp only [decodeFrame, findShr_of_some found, header]

theorem decodeFrame_of_payload_error {r : Recovered} (found : shrDetect P S 0 = some h)
    (header : recoverHeader P (pick 1) h.kind (S.drop h.after) = .ok r)
    (payload : recoverPayload P (pick 2) h.kind r = .error e) : decodeFrame P pick skipv S = .error e := by
  simp only [decodeFrame, findShr_of_some found, header, payload]

/-- Once the octets are recovered, verification decides (R202, R204). -/
theorem decodeFrame_of_payload {r : Recovered} {raw : List Byte} (found : shrDetect P S 0 = some h)
    (header : recoverHeader P (pick 1) h.kind (S.drop h.after) = .ok r)
    (payload : recoverPayload P (pick 2) h.kind r = .ok raw) :
    decodeFrame P pick skipv S =
      if skipv = false ∧ fcs32IsGood (whitenIf P (phrDecode r.H).dw raw) = false then
        .error ⟨.verify, .payloadRecovered⟩
      else .ok { shr := h, H := r.H, payload := whitenIf P (phrDecode r.H).dw raw,
                 final := if skipv then .payloadRecovered else .verified } := by
  simp only [decodeFrame, findShr_of_some found, header, payload, verifyPayload]
  cases skipv with
  | true => rfl
  | false => cases fcs32IsGood (whitenIf P (phrDecode r.H).dw raw) <;> rfl

/-- All that the frame machine does on a stream: it raises a failure whose condition holds, or delivers a frame (R194 to
R206). -/
theorem decodeFrame_inv (P : Params) (pick : Nat → TieChoice) (skipv : Bool) (S : List Bool) :
    (∃ e, decodeFrame P pick skipv S = .error e ∧ FrameFails P skipv S e) ∨
      ∃ r, decodeFrame P pick skipv S = .ok r ∧ FrameDelivered P skipv S r ∧
        r.payload.length = (phrDecode r.H).L := by
  cases found : shrDetect P S 0 with
  | none => exact .inl ⟨_, decodeFrame_of_none found, .noHeader found⟩
  | some h =>
    obtain ⟨hshort, hfails⟩ | ⟨hroom, hk, far, hfails⟩ | ⟨H, m1, hdr, header⟩ := recoverHeader_inv P (pick 1) S h
    · exact .inl ⟨_, decodeFrame_of_header_error found hfails, .headerShort h found hshort⟩
    · exact .inl ⟨_, decodeFrame_of_header_error found hfails, .headerFar h found hk hroom far⟩
    obtain ⟨hfcs, hfails⟩ | ⟨hfcs, ⟨hshort, hfails⟩ | ⟨hroom, hk, far, hfails⟩ | ⟨raw, hraw, payload⟩⟩ :=
      recoverPayload_inv (pick 2) hdr
    · exact .inl ⟨_, decodeFrame_of_payload_error found header hfails, .fcsType h H m1 found hdr hfcs⟩
    · exact .inl ⟨_, decodeFrame_of_payload_error found header hfails, .payloadShort h H m1 found hdr hfcs hshort⟩
    · exact .inl ⟨_, decodeFrame_of_payload_error found header hfails, .payloadFar h H m1 found hdr hfcs hk hroom far⟩
    have hpayload := payloadIs_iff.2 ⟨raw, hraw, rfl⟩
    rw [decodeFrame_of_payload found header payload]
    by_cases hbad : skipv = false ∧ fcs32IsGood (whitenIf P (phrDecode H).dw raw) = false
    · obtain ⟨verify, bad⟩ := hbad
      exact .inl ⟨_, if_pos ⟨verify, bad⟩, .notGood h H m1 _ found hdr hfcs hpayload verify bad⟩
    · refine .inr ⟨_, if_neg hbad, ⟨found, ⟨m1, hdr, hpayload⟩, hfcs, rfl, fun verify => ?_⟩, ?_⟩
      · exact Bool.eq_true_of_not_eq_false fun bad => hbad ⟨verify, bad⟩
      · rw [length_whitenIf, hraw.length_eq]

/-! ### Choices among ties (R135) -/

/-- The choice of the whole decode from those of its two decodes, of the header and of the payload. -/
def picks (header payload : TieChoice) (i : Nat) : TieChoice := if i = 1 then header else payload

/-- `pick'` is `pick` when the type of the stream's first header is coded, and any choice when it is uncoded. -/
def Serves (P : Params) (S : List Bool) (pick pick' : Nat → TieChoice) : Prop :=
  ∀ h, shrDetect P S 0 = some h → IsCoded h.kind → pick' = pick

/-- A header and the octets after it are recovered together under some choice among ties (R135). -/
theorem exists_recover_eq {H : BitVec 16} {m1 : Nat} {raw : List Byte} (found : shrDetect P S 0 = some h)
    (hdr : HeaderIs P S h H m1) (hfcs : H.getLsbD 3 = false) (hraw : OctetsAre P S h H m1 raw) :
    ∃ pick, ∀ pick', Serves P S pick pick' →
      recoverHeader P (pick' 1) h.kind (S.drop h.after) = .ok ⟨H, m1, S.drop (headerEnd h)⟩ ∧
        recoverPayload P (pick' 2) h.kind ⟨H, m1, S.drop (headerEnd h)⟩ = .ok raw := by
  obtain ⟨p₁, header⟩ := hdr.exists_recoverHeader_eq
  obtain ⟨p₂, payload⟩ := hraw.exists_recoverPayload_eq hdr hfcs
  refine ⟨picks p₁ p₂, fun pick' serves => ⟨header _ fun hk => ?_, payload _ fun hk => ?_⟩⟩
  · rw [serves h found hk]
    rfl
  · rw [serves h found hk]
    rfl

/-- Every condition listed makes the frame machine fail so under some choice among ties, and under every choice when the
type is uncoded (R206). -/
theorem FrameFails.exists_decodeFrame_eq (fails : FrameFails P skipv S e) :
    ∃ pick, ∀ pick', Serves P S pick pick' → decodeFrame P pick' skipv S = .error e := by
  have any : Nat → TieChoice := fun _ _ _ _ _ _ => false
  have afterHeader {h : Shr} {H : BitVec 16} {m1 : Nat} (found : shrDetect P S 0 = some h)
      (hdr : HeaderIs P S h H m1)
      (hpayload : ∀ p, recoverPayload P p h.kind ⟨H, m1, S.drop (headerEnd h)⟩ = .error e) :
      ∃ pick, ∀ pick', Serves P S pick pick' → decodeFrame P pick' skipv S = .error e := by
    obtain ⟨p₁, header⟩ := hdr.exists_recoverHeader_eq
    refine ⟨fun _ => p₁, fun pick' serves => decodeFrame_of_payload_error found (header _ fun hk => ?_) (hpayload _)⟩
    rw [serves h found hk]
  cases fails with
  | noHeader found => exact ⟨any, fun _ _ => decodeFrame_of_none found⟩
  | headerShort h found short =>
    exact ⟨any, fun _ _ => decodeFrame_of_header_error found (recoverHeader_of_short _ short)⟩
  | headerFar h found coded room far =>
    exact ⟨any, fun _ _ => decodeFrame_of_header_error found (recoverHeader_of_far _ coded room far)⟩
  | fcsType h H m1 found hdr fcs => exact afterHeader found hdr fun p => recoverPayload_of_fcs p fcs
  | payloadShort h H m1 found hdr fcs short =>
    exact afterHeader found hdr fun p => recoverPayload_of_short p hdr.headerEnd_le fcs short
  | payloadFar h H m1 found hdr fcs coded room far =>
    exact afterHeader found hdr fun p => recoverPayload_of_far p hdr coded fcs room far
  | notGood h H m1 payload found hdr fcs hpayload verify bad =>
    obtain ⟨raw, hraw, rfl⟩ := payloadIs_iff.1 hpayload
    obtain ⟨pick, recovered⟩ := exists_recover_eq found hdr fcs hraw
    refine ⟨pick, fun pick' serves => ?_⟩
    obtain ⟨header, payload⟩ := recovered pick' serves
    rw [decodeFrame_of_payload found header payload]
    exact if_pos ⟨verify, bad⟩

/-- Every frame that stands in a stream is delivered under some choice among ties, and under every choice when
the type is uncoded (R205). -/
theorem FrameDelivered.exists_decodeFrame_eq {r : FrameResult} (delivered : FrameDelivered P skipv S r) :
    ∃ pick, ∀ pick', Serves P S pick pick' → decodeFrame P pick' skipv S = .ok r := by
  obtain ⟨shr, H, payload, final⟩ := r
  obtain ⟨found, ⟨m1, hdr, hpayload⟩, fcs, hfinal, good⟩ := delivered
  dsimp only at *
  obtain ⟨raw, hraw, rfl⟩ := payloadIs_iff.1 hpayload
  obtain ⟨pick, recovered⟩ := exists_recover_eq found hdr fcs hraw
  refine ⟨pick, fun pick' serves => ?_⟩
  obtain ⟨header, payload⟩ := recovered pick' serves
  rw [decodeFrame_of_payload found header payload, hfinal]
  exact if_neg fun ⟨verify, bad⟩ => Bool.eq_false_iff.1 bad (good verify)

/-! ### The statements -/

/-- A stream in which decoding fails for want of a nearby sequence comes with a limit (R136). -/
theorem TooFar.limit_ne_none {f : Family} {m : Nat} {enc : List Bool} (far : TooFar P f m enc) :
    P.viterbiMaxDist ≠ none := by
  obtain ⟨k, hk, -⟩ := far
  rw [hk]
  exact Option.some_ne_none k

/-- The pairs of code and state, and what three of the codes tell (R206). -/
theorem FrameFails.code_src (fails : FrameFails P skipv S e) :
    (e.code, e.src) ∈ [(ErrCode.notFound, FsmState.searching), (.malformed, .sfdMatched), (.decode, .sfdMatched),
        (.unsupported, .headerRecovered), (.malformed, .headerRecovered), (.decode, .headerRecovered),
        (.verify, .payloadRecovered)] ∧
      (e.code = .notFound ↔ shrDetect P S 0 = none) ∧ (e.code = .verify → skipv = false) ∧
      (e.code = .decode → P.viterbiMaxDist ≠ none) := by
  cases fails with
  | noHeader found => simp [found]
  | headerShort h found | fcsType h H m1 found | payloadShort h H m1 found => simp [found]
  | headerFar h found coded room far | payloadFar h H m1 found hdr fcs coded room far =>
    simp [found, far.limit_ne_none]
  | notGood h H m1 payload found hdr fcs hpayload verify bad => simp [found, verify]

/-- Settles O58: the failures of the frame machine are those of `FrameFails`, under the choices that serve. -/
theorem frameDecodeErrorsAreThoseListed : Obligations.FrameDecodeErrorsAreThoseListed := by
  intro P skipv S
  refine ⟨fun pick e he => ?_, fun e fails => ?_, fun huncoded pick e fails => ?_⟩
  · obtain ⟨e', he', fails⟩ | ⟨r, hr, -⟩ := decodeFrame_inv P pick skipv S
    · obtain rfl : e' = e := Except.error.inj (he'.symm.trans he)
      exact ⟨fails, fails.code_src⟩
    · cases hr.symm.trans he
  · obtain ⟨pick, hpick⟩ := fails.exists_decodeFrame_eq
    exact ⟨pick, hpick pick fun _ _ _ => rfl⟩
  · obtain ⟨_, hpick⟩ := fails.exists_decodeFrame_eq
    exact hpick pick fun h found hk => absurd hk (huncoded h found)

/-- A good payload has data before its four trailer octets (R160). -/
theorem five_le_length_of_fcs32IsGood {l : List Byte} (good : fcs32IsGood l = true) : 5 ≤ l.length := by
  by_contra hshort
  rw [fcs32IsGood_of_length_le (by omega)] at good
  cases good

/-- Settles O59: what the frame machine delivers is described by `FrameDelivered`, under the choices that serve. -/
theorem deliveredFramesAreChecked : Obligations.DeliveredFramesAreChecked := by
  intro P skipv S r
  refine ⟨fun pick hok => ?_, fun delivered => ?_, fun huncoded delivered pick => ?_⟩
  · obtain ⟨e, he, -⟩ | ⟨r', hr', delivered, hlen⟩ := decodeFrame_inv P pick skipv S
    · cases he.symm.trans hok
    · obtain rfl : r' = r := Except.ok.inj (hr'.symm.trans hok)
      refine ⟨delivered, hlen, delivered.fcs, delivered.found, fun hskip => ?_, fun hverify => ?_⟩
      · rw [delivered.final, if_pos hskip]
      · have good := delivered.good hverify
        exact ⟨by rw [delivered.final, if_neg (Bool.eq_false_iff.1 hverify)], good, five_le_length_of_fcs32IsGood good⟩
  · obtain ⟨pick, hpick⟩ := delivered.exists_decodeFrame_eq
    exact ⟨pick, hpick pick fun _ _ _ => rfl⟩
  · obtain ⟨_, hpick⟩ := delivered.exists_decodeFrame_eq
    refine hpick pick fun h found hk => absurd hk ?_
    obtain rfl : r.shr = h := Option.some.inj (delivered.found.symm.trans found)
    exact huncoded

end Sys2Proof.Machine
end

section
/-! FRMDEC (R193, R205, R206). -/

namespace Sys2Proof.Machine

/-- A success writes no register but those of its results (R18). -/
theorem Effect.apply_success_sameRegsBut (s : State) (w : Option BufWrite) (l : List (Fin 8 × Word)) (v : Option Word) :
    SameRegsBut (l.map Prod.fst) s ((Effect.success w l v).apply s) := by
  intro i hi
  have hn : ∀ p ∈ l, p.1 ≠ i := fun p hp he => hi (he ▸ List.mem_map_of_mem hp)
  simp [Effect.apply, State.writeResults_x_of_notMem hn]

/-- A header word names at most 2047 octets (R175, R176). -/
theorem phrDecode_L_le (H : BitVec 16) : (phrDecode H).L ≤ 2047 := by
  simp only [phrDecode, BitVec.toNat_and]
  exact Nat.and_le_right

/-- What FRMDEC leaves when a frame is delivered (R205). -/
theorem frameEffect_delivered {s : State} (hs : s.Inv) {sb db : BufId} (hne : sb ≠ db) {r : FrameResult}
    (hlen : r.payload.length = (phrDecode r.H).L) (hplen : r.shr.plen < 2 ^ 32) :
    let t := (frameEffect db (.ok r)).apply s
    (t.x 4).toNat = r.shr.plen ∧ t.x 5 = r.shr.kind.code ∧ t.x 6 = r.H.setWidth 32 ∧
      (t.x 7).toNat = r.payload.length ∧ Produced State.streamBit db (streamBits r.payload) s t ∧
      t.blen db = 8 * r.payload.length ∧ t.fsm = fsmAt r.final ∧ StatusOk s t ∧ SameRegsBut [4, 5, 6, 7] s t ∧
      SameBuffer sb s t ∧ SameHostSide s t := by
  have hL := phrDecode_L_le r.H
  have hword : 8 * r.payload.length < 2 ^ 32 := by omega
  have hcount : r.payload.length < 2 ^ 32 := by omega
  have hproduced := produceEffect_pack_produced (hs.memWf db) (length_streamBits r.payload) hword
    [(4, BitVec.ofNat 32 r.shr.plen), (5, r.shr.kind.code), (6, r.H.setWidth 32),
      (7, BitVec.ofNat 32 r.payload.length)] (some (fsmAt r.final))
  rw [pack_streamBits] at hproduced
  rw [frameEffect, ← hlen]
  refine ⟨?_, ?_, ?_, ?_, hproduced, produceEffect_blen s db _ hword _ _, Effect.apply_fsm s _,
    StatusOk.succeed (by simp), Effect.apply_success_sameRegsBut s _ [(4, _), (5, _), (6, _), (7, _)] _,
    produceEffect_sameBuffer s hne _ _ _ _, Effect.apply_host s _⟩
  · simpa [produceEffect, Effect.apply] using hplen
  · simp [produceEffect, Effect.apply]
  · simp [produceEffect, Effect.apply]
  · simpa [produceEffect, Effect.apply] using hcount

/-- The final state of a delivered frame as a word (R29, R204). -/
theorem fsmAt_final (skipv : Bool) :
    fsmAt (if skipv then .payloadRecovered else .verified) = if skipv then 0x04#32 else 0x05#32 := by
  cases skipv <;> rfl

/-- Settles O57: FRMDEC has one check, and its effect is read off how the frame machine ends. -/
theorem frmdecDeliversTheFrame : Obligations.FrmdecDeliversTheFrame := by
  intro sb db skipv s hs S res
  have runs (hne : sb ≠ db) : exec (.frmdec sb db skipv) s = .next ((frameEffect db res).apply s) := by
    have hc : firstFailure (commandChecks (.frmdec sb db skipv) s) = none := by simp [commandChecks, hne]
    rw [exec_eq_effect hc, commandEffect, frameOf, State.stream_eq_map_taggedBit]
  refine ⟨(decode_eq_ok_iff _ _).2 (by cases sb <;> cases db <;> cases skipv <;> rfl),
    fun heq => rejects_of_check_fails (by simp [commandChecks, heq]), fun r hne hok => ⟨_, runs hne, ?_⟩,
    fun e hne hfails => ⟨_, runs hne, ?_⟩⟩
  · obtain ⟨hdelivered, -⟩ := deliveredFramesAreChecked s.params skipv S r
    obtain ⟨delivered, hlen, -, found, -⟩ := hdelivered Config.tiePick hok
    obtain ⟨-, hstands, -⟩ := shrDetect_eq_some_iff.1 found
    obtain ⟨hsum, hend⟩ := hstands.after_le
    have hSlen : S.length = s.blen sb := by rw [List.length_map, List.length_range]
    have hword : s.blen sb < 2 ^ 32 := (s.buf sb).len.isLt
    obtain ⟨hx4, hx5, hx6, hx7, hproduced, hblen, hfsm, hframe⟩ := frameEffect_delivered hs hne hlen (by omega)
    rw [hok]
    refine ⟨hx4, hx5, hx6, hx7, hx7.trans hlen, hproduced, hblen, ?_, hframe⟩
    rw [hfsm, delivered.final, fsmAt_final]
  · rw [hfails]
    exact ⟨Effect.apply_failure_failedInFlight s .., Effect.apply_fsm s _⟩

end Sys2Proof.Machine
end

section
/-! The round trip of a frame (R215): decoding what `encodeFrame` built. -/

namespace Sys2Proof.Machine

/-! ### The synchronisation header of a frame (R173, R213) -/

/-- The scan finds the header of a frame at its first bit, unless the SFD continues the preamble (R215). -/
theorem shrDetect_encodeFrame (P : Params) {k : SfdType} (fam : Family) (dw : Bool) {plen : Nat} (hplen : plen % 8 = 0)
    (hpos : 8 ≤ plen) (data : List Byte) (hsfd : (sfdBits P k).take 8 ≠ pre) :
    shrDetect P (encodeFrame P k fam dw plen data) 0 = some ⟨0, plen, k, plen + 16⟩ := by
  have hend : 0 + 8 * (plen / 8) = plen := by omega
  have hbits := take_drop_encodeFrame P k fam dw hplen data
  have hmaximal : ¬ PreambleAt (encodeFrame P k fam dw plen data) plen 1 := by
    rw [preambleAt_one_iff, ← show min 8 16 = 8 from rfl, ← List.take_take, hbits]
    exact hsfd
  have hstands : ShrStandsAt P (encodeFrame P k fam dw plen data) 0 (plen / 8) k := by
    refine ⟨by omega, preambleAt_encodeFrame P k fam dw plen data, ?_, ?_⟩ <;> rw [hend]
    · exact hmaximal
    · exact take_drop_eq_sfdBits_iff.1 hbits
  exact shrDetect_eq_some_iff.2 ⟨Nat.le_refl 0, ⟨_, hstands, by dsimp only; omega, by dsimp only; omega⟩,
    fun q _ hq => absurd hq (Nat.not_lt_zero q)⟩

/-! ### Whole bytes, whole blocks -/

/-- Bits that fill their bytes are the bits of those bytes (R50). -/
theorem streamBits_pack_of_whole {l : List Bool} (h : l.length % 8 = 0) : streamBits (pack l) = l := by
  have hfull : 8 * ceil8 l.length - l.length = 0 := by unfold ceil8; omega
  rw [streamBits_pack, hfull, List.replicate_zero, List.append_nil]

theorem pack_append {u v : List Bool} (hu : u.length % 8 = 0) (hv : v.length % 8 = 0) :
    pack (u ++ v) = pack u ++ pack v := by
  calc pack (u ++ v)
      = pack (streamBits (pack u ++ pack v)) := by
        rw [streamBits_append, streamBits_pack_of_whole hu, streamBits_pack_of_whole hv]
    _ = pack u ++ pack v := pack_streamBits _

/-- The first block is interleaved apart from what follows it (R148). -/
theorem ilv_append_of_block (v : IlvVariant) {block : List Byte} (h : block.length = 4) (rest : List Byte) :
    ilv v (block ++ rest) = ilv v block ++ ilv v rest := by
  have hblock : ilv v block = ilvBlock v block := by simpa [ilv] using ilv_append h v []
  rw [ilv_append h, hblock]

/-! ### A region without errors (R140, R150) -/

/-- A sequence as it is sent in the body of a coded frame: encoded and interleaved (R212). -/
def sent (P : Params) (f : Family) (m : Nat) (c : List Bool) : List Bool :=
  streamBits (ilv P.ilvVariant (pack (fecBits f m c)))

section
variable {P : Params} {f : Family} {m : Nat} {c : List Bool}

theorem length_sent (h : c.length % 4 = 0) : (sent P f m c).length = 2 * c.length := by
  simp [sent, ceil8]
  omega

/-- What was sent is decoded to itself, under every choice among ties (R140, R150). -/
theorem decodeRegion_sent (pick : TieChoice) (hm : m < numStates f) (h : c.length % 4 = 0) :
    decodeRegion P f pick m (sent P f m c) = { bits := c, final := fecState f m c, dist := 0 } := by
  have hlen : (sent P f m c).length = (fecBits f m c).length := by rw [length_sent h, length_fecBits]
  have henc : unpack (ilv P.ilvVariant (pack (sent P f m c))) (sent P f m c).length = fecBits f m c := by
    rw [hlen, sent, pack_streamBits, ilv_ilv, unpack_pack]
  obtain ⟨hclean, -⟩ := cleanInputDecodesToItself f (pick f m (fecBits f m c)) m c hm
  simp only [decodeRegion, henc, hclean]

/-- A sequence that begins with a header word is sent as the block of the word, and the rest from the state the word
ends in (R112, R145). -/
theorem sent_bitsOfWord_append (P : Params) (f : Family) (H : BitVec 16) (h : c.length % 4 = 0) :
    sent P f 0 (bitsOfWord H ++ c) = sent P f 0 (bitsOfWord H) ++ sent P f (fecState f 0 (bitsOfWord H)) c := by
  have hblock : (pack (fecBits f 0 (bitsOfWord H))).length = 4 := by simp [ceil8]
  rw [sent, fecBits_append, pack_append (by simp) (by simp; omega), ilv_append_of_block _ hblock, streamBits_append]
  rfl

end

theorem acceptable_zero (limit : Option Nat) : acceptable limit 0 = true := by cases limit <;> simp [acceptable]

/-! ### Header and payload recovered (R195 to R201) -/

section
variable {P : Params} {k : SfdType} (pick : TieChoice) (H : BitVec 16)

theorem recoverHeader_sent (hk : sfdCoded k = true) (rest : List Bool) :
    recoverHeader P pick k (sent P (sfdFamily P k) 0 (bitsOfWord H) ++ rest) =
      .ok ⟨H, fecState (sfdFamily P k) 0 (bitsOfWord H), rest⟩ := by
  have hlen : (sent P (sfdFamily P k) 0 (bitsOfWord H)).length = 32 := by rw [length_sent] <;> simp
  have hroom : ¬ (sent P (sfdFamily P k) 0 (bitsOfWord H) ++ rest).length < 32 := by
    rw [List.length_append, hlen]
    omega
  rw [recoverHeader, if_pos hk, if_neg hroom, List.take_left' hlen, List.drop_left' hlen,
    decodeRegion_sent pick (zero_lt_numStates _) (by simp)]
  simp only [acceptable_zero, if_true, wordOfBits_bitsOfWord]

theorem recoverHeader_bitsOfWord (hk : sfdCoded k = false) (rest : List Bool) :
    recoverHeader P pick k (bitsOfWord H ++ rest) = .ok ⟨H, 0, rest⟩ := by
  have hlen : (bitsOfWord H).length = 16 := length_bitsOfWord H
  have hroom : ¬ (bitsOfWord H ++ rest).length < 16 := by
    rw [List.length_append, hlen]
    omega
  rw [recoverHeader, if_neg (Bool.eq_false_iff.1 hk), if_neg hroom, List.take_left' hlen, List.drop_left' hlen,
    wordOfBits_bitsOfWord]

variable {H} {payload pad : List Byte} {m : Nat}

theorem recoverPayload_sent (hk : sfdCoded k = true) (hfcs : (phrDecode H).fcs = false)
    (hm : m < numStates (sfdFamily P k)) (hpayload : payload.length = (phrDecode H).L)
    (hpad : pad.length = padOctets (phrDecode H).L) :
    recoverPayload P pick k ⟨H, m, sent P (sfdFamily P k) m (streamBits (payload ++ pad))⟩ = .ok payload := by
  have hwhole : (streamBits (payload ++ pad)).length % 4 = 0 := by rw [length_streamBits]; omega
  have hlen : (sent P (sfdFamily P k) m (streamBits (payload ++ pad))).length =
      16 * ((phrDecode H).L + padOctets (phrDecode H).L) := by
    rw [length_sent hwhole, length_streamBits, List.length_append, hpayload, hpad]
    omega
  simp only [recoverPayload, hfcs, hk, Bool.false_eq_true, if_false, if_true, Nat.lt_irrefl, ← hlen,
    List.take_length, decodeRegion_sent pick hm hwhole, acceptable_zero, pack_streamBits]
  rw [List.take_left' hpayload]

theorem recoverPayload_streamBits (hk : sfdCoded k = false) (hfcs : (phrDecode H).fcs = false)
    (hpayload : payload.length = (phrDecode H).L) :
    recoverPayload P pick k ⟨H, m, streamBits payload⟩ = .ok payload := by
  have hlen : (streamBits payload).length = 8 * (phrDecode H).L := by rw [length_streamBits, hpayload]
  simp only [recoverPayload, hfcs, hk, Bool.false_eq_true, if_false, Nat.lt_irrefl, ← hlen, List.take_length,
    pack_streamBits]

end

/-! ### The frame decoded (R215) -/

section
variable (P : Params) {k : SfdType} (fam : Family) (dw : Bool) {plen : Nat} (data : List Byte)

/-- What follows the SFD of a coded frame is the block of the header, then payload, tail and pad (R212, R213). -/
theorem drop_encodeFrame_of_coded (hk : sfdCoded k = true) (hplen : plen % 8 = 0) :
    (encodeFrame P k fam dw plen data).drop (plen + 16) =
      sent P fam 0 (bitsOfWord (phrEncode (data.length + 4) false false dw)) ++
        sent P fam (fecState fam 0 (bitsOfWord (phrEncode (data.length + 4) false false dw)))
          (streamBits (framePayload P dw data ++
            tailpad fam (fecState fam 0 (streamBits (frameCore P dw data))) (padOctets (data.length + 4)))) := by
  rw [drop_encodeFrame P k fam dw hplen, ← sent_bitsOfWord_append P _ _ (by rw [length_streamBits]; omega),
    streamBits_append, ← List.append_assoc, ← streamBits_frameCore, ← streamBits_append]
  simp only [frameBody, hk, if_true]
  rfl

/-- The frame machine recovers the header word and the octets that were sent (R215). -/
theorem exists_recover_encodeFrame (p₁ p₂ : TieChoice) (hfam : sfdCoded k = true → sfdFamily P k = fam)
    (hplen : plen % 8 = 0) (hdata : data.length ≤ 2043) :
    ∃ r : Recovered, r.H = phrEncode (data.length + 4) false false dw ∧
      recoverHeader P p₁ k ((encodeFrame P k fam dw plen data).drop (plen + 16)) = .ok r ∧
      recoverPayload P p₂ k r = .ok (framePayload P dw data) := by
  have hdecode := phrDecode_phrEncode (L := data.length + 4) (by omega) false false dw
  have hL : (phrDecode (phrEncode (data.length + 4) false false dw)).L = data.length + 4 := by rw [hdecode]
  have hfcs : (phrDecode (phrEncode (data.length + 4) false false dw)).fcs = false := by rw [hdecode]
  have hpayload := (length_framePayload P dw data).trans hL.symm
  cases hk : sfdCoded k with
  | true =>
    obtain rfl := hfam hk
    rw [drop_encodeFrame_of_coded P _ dw data hk hplen]
    exact ⟨_, rfl, recoverHeader_sent p₁ _ hk _, recoverPayload_sent p₂ hk hfcs (fecState_lt (zero_lt_numStates _) _)
      hpayload (by rw [hL, length_tailpad])⟩
  | false =>
    rw [drop_encodeFrame_of_uncoded P hk fam dw hplen]
    exact ⟨_, rfl, recoverHeader_bitsOfWord p₁ _ hk _, recoverPayload_streamBits p₂ hk hfcs hpayload⟩

/-- Whitening twice changes nothing (R105). -/
theorem whitenIf_whitenIf (l : List Byte) : whitenIf P dw (whitenIf P dw l) = l := by
  cases dw with
  | false => rfl
  | true => exact whiteningIsAnInvolution P.pn9Out l

/-- A frame of at least one octet decodes to its data and their FCS, verified, under every choice among ties (R215). -/
theorem decodeFrame_encodeFrame (pick : Nat → TieChoice) (hfam : sfdCoded k = true → sfdFamily P k = fam)
    (hplen : plen % 8 = 0) (hpos : 8 ≤ plen) (hdata : data ≠ []) (hlen : data.length ≤ 2043)
    (hsfd : (sfdBits P k).take 8 ≠ pre) :
    decodeFrame P pick false (encodeFrame P k fam dw plen data) =
      .ok { shr := ⟨0, plen, k, plen + 16⟩, H := phrEncode (data.length + 4) false false dw,
            payload := data ++ fcs32Trailer data, final := .verified } := by
  have found := shrDetect_encodeFrame P fam dw hplen hpos data hsfd
  obtain ⟨r, hH, header, payload⟩ := exists_recover_encodeFrame P fam dw data (pick 1) (pick 2) hfam hplen hlen
  have hwhite : whitenIf P (phrDecode r.H).dw (framePayload P dw data) = data ++ fcs32Trailer data := by
    rw [hH, phrDecode_phrEncode (by omega), framePayload, whitenIf_whitenIf]
  have hgood : fcs32IsGood (data ++ fcs32Trailer data) = true :=
    (fcs32IsGood_append_wordBytes_iff hdata (fcsOf data)).2 rfl
  rw [decodeFrame_of_payload found header payload, hwhite, hH]
  exact if_neg fun ⟨_, bad⟩ => Bool.eq_false_iff.1 bad hgood

end

/-! ### FRMENC, then FRMDEC (R215) -/

/-- A command that ends without an error had no check that failed. -/
theorem checks_hold_of_errField_eq_zero {i : Instr} {s t : State} (h : exec i s = .next t)
    (hok : errField t.status = 0#32) : firstFailure (commandChecks i s) = none := by
  obtain ⟨e, hc, rfl⟩ | ⟨hc, -⟩ := exec_cases h
  · have hcode : e.code = 0#32 := by simpa using hok
    exact absurd hcode (ErrCode.code_ne_zero (firstFailure_commandChecks_ne_ok hc))
  · exact hc

/-- What the checks of FRMENC ensure of its operands (R207). -/
theorem of_frmencChecks_hold {sb db : BufId} {fam : Family} {dw : Bool} {k : SfdType} {fcst : Bool} {s : State}
    (hc : firstFailure (commandChecks (.frmenc sb db fam dw k fcst) s) = none) :
    sb ≠ db ∧ s.a0 ≤ 2043 ∧ s.a1 % 8 = 0 ∧ 8 ≤ s.a1 ∧ frameBits k s.a1 (s.a0 + 4) ≤ 8 * s.params.capBytes := by
  have hpre : decide (s.a1 % 8 = 0 ∧ 8 ≤ s.a1) = true :=
    check_holds (e := .malformed) hc (by simp [commandChecks, frmencChecks])
  obtain ⟨hplen, hpos⟩ := of_decide_eq_true hpre
  have hne : decide (sb ≠ db) = true := check_holds (e := .illegal) hc (by simp [commandChecks, frmencChecks])
  have hnd : decide (s.a0 ≤ 2043) = true := check_holds (e := .illegal) hc (by simp [commandChecks, frmencChecks])
  have hfits : s.fits (frameBits k s.a1 (s.a0 + 4)) = true :=
    check_holds (e := .capacity) hc (by simp [commandChecks, frmencChecks])
  exact ⟨of_decide_eq_true hne, of_decide_eq_true hnd, hplen, hpos, (s.fits_iff _).1 hfits⟩

/-- A buffer produced reads as the bits it was produced with. -/
theorem Produced.map_view_eq {view : State → BufId → Nat → Bool} {db : BufId} {bits : List Bool} {s t : State}
    (h : Produced view db bits s t) : (List.range (t.blen db)).map (view t db) = bits := by
  refine bits_ext (by simp [h.len]) fun i hi => ?_
  have hi' : i < bits.length := by simpa [h.len] using hi
  rw [← h.reads i hi', h.len]
  simp [hi']

/-- A buffer produced with the bits of bytes holds the bytes (R9). -/
theorem Produced.byteAt_eq {db : BufId} {l : List Byte} {s t : State}
    (h : Produced State.streamBit db (streamBits l) s t) {j : Nat} (hj : j < l.length) :
    t.byteAt db j = l.getD j 0#8 := by
  refine BitVec.eq_of_getLsbD_eq fun i hi => ?_
  have hdiv : (8 * j + i) / 8 = j := by omega
  have hmod : (8 * j + i) % 8 = i := by omega
  have hbit := h.reads (8 * j + i) (by rw [length_streamBits]; omega)
  rwa [State.streamBit, getD_streamBits, hdiv, hmod] at hbit

/-- Settles O60: the buffer FRMENC produced holds the frame, and the frame decodes to its data. -/
theorem framesRoundTrip : Obligations.FramesRoundTrip := by
  intro sb db fam dw k s t hs hdata hexec hok hfam₀ hfam₁ hsfd
  have hc := checks_hold_of_errField_eq_zero hexec hok
  obtain ⟨hne, hnd, hplen, hpos, hfits⟩ := of_frmencChecks_hold hc
  have ht : t.Inv := hs.exec hexec
  obtain rfl := exec_of_checks_hold hc hexec
  obtain ⟨hproduced, -, -, hframe⟩ := frmencEffect_spec fam dw k false hs hne hplen hfits
  have hfam : sfdCoded k = true → sfdFamily s.params k = fam := fun hk => by
    rcases (sfdCoded_iff k).1 hk with rfl | rfl
    · exact hfam₀ rfl
    · exact hfam₁ rfl
  have hlen : (s.bytes sb s.a0).length = s.a0 := State.length_bytes s sb s.a0
  have hnonempty : s.bytes sb s.a0 ≠ [] := List.ne_nil_of_length_pos (by rw [hlen]; exact hdata)
  have hdecoded := decodeFrame_encodeFrame s.params fam dw (s.bytes sb s.a0) Config.tiePick hfam hplen hpos hnonempty
    (by rwa [hlen]) hsfd
  obtain ⟨-, -, hdelivers, -⟩ := frmdecDeliversTheFrame db sb false _ ht
  rw [hproduced.map_view_eq, hframe.host.params] at hdelivers
  obtain ⟨u, hu, hx4, hx5, hx6, hx7, -, hbytes, hblen, hfsm, hstatus, -⟩ := hdelivers _ (Ne.symm hne) hdecoded
  rw [hlen] at hx6
  have hcount : (s.bytes sb s.a0 ++ fcs32Trailer (s.bytes sb s.a0)).length = s.a0 + 4 := by
    rw [List.length_append, hlen, length_fcs32Trailer]
  have hbyte (j : Nat) (hj : j < s.a0 + 4) :
      u.byteAt sb j = (s.bytes sb s.a0 ++ fcs32Trailer (s.bytes sb s.a0)).getD j 0#8 :=
    Produced.byteAt_eq hbytes (by rwa [hcount])
  refine ⟨u, hu, hstatus.err, hfsm, BitVec.eq_of_toNat_eq hx4, hx5, hx6, hx7.trans hcount, ?_, fun j hj => ?_,
    fun j hj => ?_⟩
  · rw [hblen, hcount]
    rfl
  · have hj' : j < s.a0 := hj
    rw [hbyte j (by omega), List.getD_append _ _ _ _ (by rwa [hlen]), State.getD_bytes, if_pos hj']
  · have hplace := hbyte (s.a0 + j) (by omega)
    rwa [List.getD_append_right _ _ _ _ (by rw [hlen]; omega), hlen, Nat.add_sub_cancel_left] at hplace

end Sys2Proof.Machine
end

section
/-! The error codes each command can end with (R222): those of its checks, and of its effect when it fails in flight. -/

namespace Sys2Proof.Machine

/-- The row of R222 for each command: its errors, `OK` left out. -/
def errorsOf : Instr → List ErrCode
  | .rdbit _ | .whiten _ | .fcs32 _ | .fcschk _ | .fcsapp _ => [.capacity]
  | .wrbit _ | .rscenc _ _ | .nrnscenc _ _ => [.capacity, .illegal]
  | .rev _ | .phrdec => [.illegal]
  | .rscdec _ _ | .nrnscdec _ _ => [.malformed, .capacity, .decode, .illegal]
  | .ilv _ => [.malformed, .capacity]
  | .shrdet _ => [.notFound, .capacity]
  | .phrenc => [.unsupported, .illegal]
  | .frmdec _ _ _ => [.malformed, .notFound, .verify, .unsupported, .decode, .illegal]
  | .frmenc _ _ _ _ _ _ => [.malformed, .capacity, .unsupported, .illegal]

/-- Every check of a command rejects with a code of its row. -/
theorem commandChecks_code_mem_errorsOf (i : Instr) (s : State) : ∀ c ∈ commandChecks i s, c.2 ∈ errorsOf i := by
  cases i <;> simp [commandChecks, encChecks, decChecks, frmencChecks, errorsOf]

/-- The only failure of a decode in flight is `DECODE` (R138, R139). -/
theorem code_of_decodeEffect_failure {f : Family} {sb db : BufId} {s : State} {e : ErrCode} {lost : Option BufId}
    {v : Option Word} (h : decodeEffect f sb db s = .failure e lost v) : e = .decode := by
  unfold decodeEffect at h
  split at h
  · cases h
  · cases h
    rfl

/-- The only failure of a scan in flight is `NOT_FOUND` (R174). -/
theorem code_of_shrEffect_failure {found : Option Shr} {e : ErrCode} {lost : Option BufId} {v : Option Word}
    (h : shrEffect found = .failure e lost v) : e = .notFound := by
  cases found <;> cases h
  rfl

/-- The frame machine raises the codes of FRMDEC's row (R206). -/
theorem FrameErrorRaised.code_mem_errorsOf {skipv : Bool} {e : FrameError} (h : FrameErrorRaised skipv e)
    (sb db : BufId) : e.code ∈ errorsOf (.frmdec sb db skipv) := by
  cases h with
  | noHeader | notGood => simp [errorsOf]
  | header c hc => rcases hc with rfl | rfl <;> simp [errorsOf]
  | payload c hc => rcases hc with rfl | rfl | rfl <;> simp [errorsOf]

/-- A command that fails in flight fails with a code of its row; only the decoders, SHRDET and FRMDEC can. -/
theorem commandEffect_failure_mem_errorsOf {i : Instr} {s : State} {e : ErrCode} {lost : Option BufId}
    {v : Option Word} (h : commandEffect i s = .failure e lost v) : e ∈ errorsOf i := by
  cases i with
  | rscdec sb db | nrnscdec sb db =>
    obtain rfl := code_of_decodeEffect_failure h
    simp [errorsOf]
  | shrdet sb =>
    obtain rfl := code_of_shrEffect_failure h
    simp [errorsOf]
  | frmdec sb db skipv =>
    obtain ⟨e', hE, hraised⟩ | ⟨r, l, hE, -⟩ := frameEffect_cases sb db skipv s
    · cases hE.symm.trans h
      exact hraised.code_mem_errorsOf sb db
    · cases hE.symm.trans h
  | _ => cases h

/-- A command ends with the status of a success, or of an error of its row (R222). -/
theorem exec_status_cases {i : Instr} {s t : State} (h : exec i s = .next t) :
    t.status = statusOk s.status ∨ ∃ e ∈ errorsOf i, t.status = statusErr s.status e := by
  obtain ⟨e, hfail, rfl⟩ | ⟨-, rfl⟩ := exec_cases h
  · obtain ⟨c, hc, rfl⟩ := firstFailure_mem hfail
    exact .inr ⟨c.2, commandChecks_code_mem_errorsOf i s c hc, rfl⟩
  · cases hE : commandEffect i s with
    | success w l v => exact .inl (Effect.apply_success_status s w l v)
    | failure e lost v =>
      exact .inr ⟨e, commandEffect_failure_mem_errorsOf hE, Effect.apply_failure_status s e lost v⟩

/-- `STATUS.ERR` after a command is 0 or the code of an error of its row. -/
theorem errField_exec_mem {i : Instr} {s t : State} (h : exec i s = .next t) :
    errField t.status ∈ 0#32 :: (errorsOf i).map ErrCode.code := by
  obtain ht | ⟨e, he, ht⟩ := exec_status_cases h
  · rw [ht, errField_statusOk]
    exact List.mem_cons_self
  · rw [ht, errField_statusErr]
    exact List.mem_cons_of_mem _ (List.mem_map_of_mem he)

/-- Settles O19: the codes of a command's checks and of its failure in flight are those of its row of R222. -/
theorem commandsEndWithTheirErrorsOnly : Obligations.CommandsEndWithTheirErrorsOnly := by
  intro i s t h
  cases i <;> exact errField_exec_mem h

end Sys2Proof.Machine
end
